-- ==== Sys2Proof/Word.lean ====
section
/-! DEFINITION. The word types of the machine. -/

namespace Sys2Proof

/-- An XLEN-bit value (10_state.md R20, R24). It is held in 64 bits; with `XLEN = 32` the upper half is zero. -/
abbrev Word := BitVec 64

/-- A 32-bit value: an instruction word, a 32-bit CP0 register, the low half of a `Word`. -/
abbrev Word32 := BitVec 32

/-- A byte (20_memory.md R100: 8 bits). -/
abbrev Byte := BitVec 8

/-- A 5-bit register selector, a general register or a CP0 register number (R20, R30). -/
abbrev RegNum := BitVec 5

end Sys2Proof
end

