-- ==== Sys2Proof/Syntax.lean ====
section
/-! DEFINITION. The instructions: one constructor per row of spec/opcode_table.json, with the fields the row has. -/

namespace Sys2Proof

/-- One constructor per row of spec/opcode_table.json. `rs`, `rt`, `rd`, `base` of the general formats are general
registers; in the four CP0 moves `rt` is the general register and `rd` the CP0 register number (30_encoding.md R142). -/
inductive Instr where
  /-- 40_cp0_move.md R171 -/
  | mfc0 (rt rd : RegNum)
  /-- R173 -/
  | dmfc0 (rt rd : RegNum)
  /-- R172 -/
  | mtc0 (rt rd : RegNum)
  /-- R174 -/
  | dmtc0 (rt rd : RegNum)
  /-- 44_support_and_deferred.md R210 -/
  | tlbr
  /-- R211 -/
  | tlbwi
  /-- R212 -/
  | tlbwr
  /-- R209 -/
  | tlbp
  /-- 41_exception_return.md R180 -/
  | rfe
  /-- R181 -/
  | eret
  /-- 43_nop_sync.md R195: every SLL word but the two that are NOP and SSNOP -/
  | sll (rt rd sa : RegNum)
  /-- R196: the word of `sll $0,$0,0` -/
  | nop
  /-- R197: the word of `sll $0,$0,1` -/
  | ssnop
  /-- 41_exception_return.md R182 -/
  | jr (rs : RegNum)
  /-- 42_trap_instructions.md R190; the code is ignored by hardware -/
  | syscall (code : BitVec 20)
  /-- R191 -/
  | brk (code : BitVec 20)
  /-- 43_nop_sync.md R198 -/
  | sync (stype : BitVec 5)
  /-- 44_support_and_deferred.md R203 -/
  | addu (rs rt rd : RegNum)
  /-- R201 -/
  | and (rs rt rd : RegNum)
  /-- R202 -/
  | or (rs rt rd : RegNum)
  /-- R204 -/
  | lw (base rt : RegNum) (offset : BitVec 16)
  /-- R205 -/
  | sw (base rt : RegNum) (offset : BitVec 16)
  /-- R208 -/
  | cache (base : RegNum) (op : BitVec 5) (offset : BitVec 16)
  /-- R214 -/
  | ll (base rt : RegNum) (offset : BitVec 16)
  /-- R213 -/
  | pref (base : RegNum) (hint : BitVec 5) (offset : BitVec 16)
  /-- R215 -/
  | sc (base rt : RegNum) (offset : BitVec 16)
deriving DecidableEq, Repr

end Sys2Proof
end

