-- ==== Sys2Proof/WellFormed.lean ====
section
/-! DEFINITION. Which terms of `Instr` are the reading of an instruction word. The fields are bit vectors of the widths of
spec/opcode_table.json, so that every value of a field is encodable; the one check left is that a word has one spelling. -/

namespace Sys2Proof

/-- The words 0x00000000 and 0x00000040 are the rows NOP and SSNOP (30_encoding.md R155: the alias rows are more specific
than the SLL row), so `sll $0,$0,0` and `sll $0,$0,1` are not spelled with the constructor `sll` (log 27). -/
def Instr.wellFormed : Instr → Bool
  | .sll rt rd sa => !(rt == 0 && rd == 0 && (sa == 0 || sa == 1))
  | .mfc0 _ _ | .dmfc0 _ _ | .mtc0 _ _ | .dmtc0 _ _ | .tlbr | .tlbwi | .tlbwr | .tlbp | .rfe | .eret | .nop | .ssnop
  | .jr _ | .syscall _ | .brk _ | .sync _ | .addu _ _ _ | .and _ _ _ | .or _ _ _ | .lw _ _ _ | .sw _ _ _ | .cache _ _ _
  | .ll _ _ _ | .pref _ _ _ | .sc _ _ _ => true

end Sys2Proof
end

