-- ==== Sys2Proof/Decode.lean ====
section
/-! DEFINITION. The decoder, total on any bytes (30_encoding.md R140 to R149), and after it the encoder, each written from
the format tables of R141 and the opcode tables of R143 to R146. -/

namespace Sys2Proof

/-! ### Fields of a word (R141, R142) -/

/-- Bits 31:26, the major opcode. -/
def fieldOp (w : Word32) : BitVec 6 := w.extractLsb' 26 6
/-- Bits 25:21: rs, base, or the COP0 sub-opcode. -/
def fieldRs (w : Word32) : BitVec 5 := w.extractLsb' 21 5
/-- Bits 20:16: rt, op, hint. -/
def fieldRt (w : Word32) : BitVec 5 := w.extractLsb' 16 5
/-- Bits 15:11: rd, or the CP0 register number. -/
def fieldRd (w : Word32) : BitVec 5 := w.extractLsb' 11 5
/-- Bits 10:6: sa, stype. -/
def fieldSa (w : Word32) : BitVec 5 := w.extractLsb' 6 5
/-- Bits 5:0. -/
def fieldFunct (w : Word32) : BitVec 6 := w.extractLsb' 0 6
/-- Bits 25:6 of SYSCALL and BREAK. -/
def fieldCode (w : Word32) : BitVec 20 := w.extractLsb' 6 20
/-- Bits 15:0 of format I. -/
def fieldOffset (w : Word32) : BitVec 16 := w.extractLsb' 0 16
/-- Bits 10:0 of format C0M, which must be zero (R144). -/
def fieldLow11 (w : Word32) : BitVec 11 := w.extractLsb' 0 11
/-- Bits 25:6 of format C0F: CO and the 19 bits that must be zero (R145). -/
def fieldCo (w : Word32) : BitVec 20 := w.extractLsb' 6 20

/-! ### The decoder -/

/-- What a word is. -/
inductive Decoded where
  /-- A word of a row of spec/opcode_table.json. -/
  | instr (i : Instr)
  /-- A word of major opcode COP1, COP2 or COP3: an instruction of coprocessor `z` (R148). -/
  | coprocessor (z : BitVec 2)
  /-- Every other word: no row, or a non-zero must-be-zero field (R149). -/
  | unknown
deriving DecidableEq, Repr

/-- Major opcode SPECIAL (R146). -/
def decodeSpecial (w : Word32) : Decoded :=
  match fieldFunct w with
  | 0b000000 =>
    if fieldRs w = 0 then
      if fieldRt w = 0 ∧ fieldRd w = 0 ∧ fieldSa w = 0 then .instr .nop
      else if fieldRt w = 0 ∧ fieldRd w = 0 ∧ fieldSa w = 1 then .instr .ssnop
      else .instr (.sll (fieldRt w) (fieldRd w) (fieldSa w))
    else .unknown
  | 0b001000 => if fieldRt w = 0 ∧ fieldRd w = 0 ∧ fieldSa w = 0 then .instr (.jr (fieldRs w)) else .unknown
  | 0b001100 => .instr (.syscall (fieldCode w))
  | 0b001101 => .instr (.brk (fieldCode w))
  | 0b001111 => if fieldRs w = 0 ∧ fieldRt w = 0 ∧ fieldRd w = 0 then .instr (.sync (fieldSa w)) else .unknown
  | 0b100001 => if fieldSa w = 0 then .instr (.addu (fieldRs w) (fieldRt w) (fieldRd w)) else .unknown
  | 0b100100 => if fieldSa w = 0 then .instr (.and (fieldRs w) (fieldRt w) (fieldRd w)) else .unknown
  | 0b100101 => if fieldSa w = 0 then .instr (.or (fieldRs w) (fieldRt w) (fieldRd w)) else .unknown
  | _ => .unknown

/-- COP0 functions, for words whose bits 25:6 are CO = 1 and zeros (R145). -/
def decodeCop0Function (w : Word32) : Decoded :=
  match fieldFunct w with
  | 0b000001 => .instr .tlbr
  | 0b000010 => .instr .tlbwi
  | 0b000110 => .instr .tlbwr
  | 0b001000 => .instr .tlbp
  | 0b010000 => .instr .rfe
  | 0b011000 => .instr .eret
  | _ => .unknown

/-- COP0 moves, for words whose bits 10:0 are zero (R144). -/
def decodeCop0Move (w : Word32) : Decoded :=
  match fieldRs w with
  | 0b00000 => .instr (.mfc0 (fieldRt w) (fieldRd w))
  | 0b00001 => .instr (.dmfc0 (fieldRt w) (fieldRd w))
  | 0b00100 => .instr (.mtc0 (fieldRt w) (fieldRd w))
  | 0b00101 => .instr (.dmtc0 (fieldRt w) (fieldRd w))
  | _ => .unknown

/-- Major opcode COP0 (R144, R145). -/
def decodeCop0 (w : Word32) : Decoded :=
  if fieldCo w = 0x80000 then decodeCop0Function w
  else if fieldLow11 w = 0 then decodeCop0Move w
  else .unknown

/-- The decoder: total, one 32-bit word to what it is (R143). -/
def decode (w : Word32) : Decoded :=
  match fieldOp w with
  | 0b000000 => decodeSpecial w
  | 0b010000 => decodeCop0 w
  | 0b010001 => .coprocessor 1
  | 0b010010 => .coprocessor 2
  | 0b010011 => .coprocessor 3
  | 0b100011 => .instr (.lw (fieldRs w) (fieldRt w) (fieldOffset w))
  | 0b101011 => .instr (.sw (fieldRs w) (fieldRt w) (fieldOffset w))
  | 0b101111 => .instr (.cache (fieldRs w) (fieldRt w) (fieldOffset w))
  | 0b110000 => .instr (.ll (fieldRs w) (fieldRt w) (fieldOffset w))
  | 0b110011 => .instr (.pref (fieldRs w) (fieldRt w) (fieldOffset w))
  | 0b111000 => .instr (.sc (fieldRs w) (fieldRt w) (fieldOffset w))
  | _ => .unknown

/-! ### Bytes (20_memory.md R106, R108) -/

/-- The 4-byte value of four bytes in rising address order: most significant first when big-endian (R106). -/
def assembleWord (big : Bool) (b0 b1 b2 b3 : Byte) : Word32 :=
  if big then b0 ++ b1 ++ b2 ++ b3 else b3 ++ b2 ++ b1 ++ b0

/-- The bytes of a 4-byte value in rising address order (R106). -/
def wordBytes (big : Bool) (w : Word32) : List Byte :=
  if big then [w.extractLsb' 24 8, w.extractLsb' 16 8, w.extractLsb' 8 8, w.extractLsb' 0 8]
  else [w.extractLsb' 0 8, w.extractLsb' 8 8, w.extractLsb' 16 8, w.extractLsb' 24 8]

/-- Decodes bytes as memory holds them: an instruction is exactly four bytes (R140). -/
def decodeBytes (big : Bool) : List Byte → Decoded
  | [b0, b1, b2, b3] => decode (assembleWord big b0 b1 b2 b3)
  | _ => .unknown

/-- What the decoder reads from an instruction whose bits are `w` (bit 0 the least significant; every bit from `nbits` on
is 0), laid out in memory big-endian, the byte order of the reset configuration, and read back. -/
def decodeTableWord (nbits w : Nat) : Option Instr :=
  match decodeBytes true (wordBytes true (BitVec.ofNat 32 (w % 2 ^ nbits))) with
  | .instr i => some i
  | .coprocessor _ | .unknown => none

/-! ### The encoder (R141, R143 to R146) -/

/-- Format R with opcode SPECIAL. -/
def formatR (rs rt rd sa : BitVec 5) (funct : BitVec 6) : Word32 := 0b000000#6 ++ rs ++ rt ++ rd ++ sa ++ funct
/-- Format I. -/
def formatI (op : BitVec 6) (base rt : BitVec 5) (offset : BitVec 16) : Word32 := op ++ base ++ rt ++ offset
/-- Format C0M. -/
def formatC0M (sub rt rd : BitVec 5) : Word32 := 0b010000#6 ++ sub ++ rt ++ rd ++ 0#11
/-- Format C0F. -/
def formatC0F (funct : BitVec 6) : Word32 := 0b010000#6 ++ 1#1 ++ 0#19 ++ funct
/-- Format CODE. -/
def formatCode (code : BitVec 20) (funct : BitVec 6) : Word32 := 0b000000#6 ++ code ++ funct

/-- The word of an instruction. -/
def encode : Instr → Word32
  | .mfc0 rt rd => formatC0M 0b00000 rt rd
  | .dmfc0 rt rd => formatC0M 0b00001 rt rd
  | .mtc0 rt rd => formatC0M 0b00100 rt rd
  | .dmtc0 rt rd => formatC0M 0b00101 rt rd
  | .tlbr => formatC0F 0b000001
  | .tlbwi => formatC0F 0b000010
  | .tlbwr => formatC0F 0b000110
  | .tlbp => formatC0F 0b001000
  | .rfe => formatC0F 0b010000
  | .eret => formatC0F 0b011000
  | .sll rt rd sa => formatR 0 rt rd sa 0b000000
  | .nop => formatR 0 0 0 0 0b000000
  | .ssnop => formatR 0 0 0 1 0b000000
  | .jr rs => formatR rs 0 0 0 0b001000
  | .syscall code => formatCode code 0b001100
  | .brk code => formatCode code 0b001101
  | .sync stype => formatR 0 0 0 stype 0b001111
  | .addu rs rt rd => formatR rs rt rd 0 0b100001
  | .and rs rt rd => formatR rs rt rd 0 0b100100
  | .or rs rt rd => formatR rs rt rd 0 0b100101
  | .lw base rt offset => formatI 0b100011 base rt offset
  | .sw base rt offset => formatI 0b101011 base rt offset
  | .cache base op offset => formatI 0b101111 base op offset
  | .ll base rt offset => formatI 0b110000 base rt offset
  | .pref base hint offset => formatI 0b110011 base hint offset
  | .sc base rt offset => formatI 0b111000 base rt offset

end Sys2Proof
end

