-- ==== Sys2Proof/Config.lean ====
section
/-! DEFINITION. The implementation parameters of 00_scope.md R6, the launch parameters of R112 and R97, and the free
values of `draw(N)` (R8). A configuration is fixed for a machine: State carries it and no step changes it. -/

namespace Sys2Proof

/-- `CP0_STYLE` (R4, R6): which of the two CP0 designs the CPU has. -/
inductive Style where
  | r3000
  | r4000
deriving DecidableEq, Repr

/-- `XLEN` (R6). -/
inductive Xlen where
  | x32
  | x64
deriving DecidableEq, Repr

/-- An entry point with its `SR.BEV = 0` and its `SR.BEV = 1` address (60_exceptions.md R245). -/
structure VectorPair where
  bev0 : Word32
  bev1 : Word32
deriving DecidableEq, Repr

/-- The `VEC_*` parameters (R245). -/
structure Vectors where
  reset : Word32
  tlbRefill : VectorPair
  /-- `none` on the R3000 style, which has no such entry. -/
  xtlbRefill : Option VectorPair
  /-- `none` on the R3000 style. No modelled step enters here (R242, A-NOPARITY). -/
  cacheError : Option VectorPair
  general : VectorPair
deriving DecidableEq, Repr

/-- The `SEG_*` parameters (20_memory.md R103): the first address of each segment above kuseg. -/
structure Segments where
  kseg0 : Word32
  kseg1 : Word32
  kseg2 : Word32
deriving DecidableEq, Repr

/-- A range of physical addresses, `base` to `base + size - 1`. -/
structure Region where
  base : Nat
  size : Nat
deriving DecidableEq, Repr

/-- Every parameter of 00_scope.md R6, and the launch parameters. -/
structure Config where
  style : Style
  xlen : Xlen
  /-- `PRID_IMP`, `PRID_REV`, `PRID_RESERVED` (10_state.md R40). -/
  pridImp : BitVec 8
  pridRev : BitVec 8
  pridReserved : BitVec 16
  /-- `BIGENDIAN` (20_memory.md R105). -/
  bigEndian : Bool
  beWritable : Bool
  hasFpu : Bool
  hasCp2 : Bool
  hasCp3 : Bool
  hasTlb : Bool
  /-- `IMPLEMENTS_TS` (R55). -/
  implementsTs : Bool
  /-- Whether the CPU is of the IDT R3051 family, whose SR.TS after hard reset tells that there is no TLB (R55, R97). -/
  r3051Family : Bool
  /-- `KU_KERNEL` (R47, D1): the value of a KU bit that means kernel mode. -/
  kuKernel : BitVec 1
  timerIrqWired : Bool
  /-- `COUNT_RATE` as numerator and denominator: timing only, no rule reads it (R265). -/
  countRate : Nat × Nat
  /-- `CONFIG_RESET` (R6, R97). -/
  configReset : Word32
  scWritable : Bool
  epWritable : Bool
  /-- `PABITS` (R6). -/
  paBits : Nat
  vectors : Vectors
  segments : Segments
  /-- `CP0_HAZARD_DISTANCE` (70_reset_and_hazards.md R294). -/
  hazardDistance : Nat
  /-- `LOAD_DELAY` (R296). -/
  loadDelay : Bool
  watchMaskedByExl : Bool
  /-- `RP_EFFECTIVE`: timing only, no rule reads it (R70). -/
  rpEffective : Bool
  /-- The plain-memory physical addresses, a launch parameter (20_memory.md R112). -/
  plain : List Region
  /-- The memory contents the launch fixes (10_state.md R97, row memory): what a hard reset leaves in memory. -/
  image : List Host.Cell
deriving DecidableEq, Repr

/-- Default `VEC_*` of the R3000 style (R245). -/
def Vectors.r3000 : Vectors where
  reset := 0xBFC00000
  tlbRefill := { bev0 := 0x80000000, bev1 := 0xBFC00100 }
  xtlbRefill := none
  cacheError := none
  general := { bev0 := 0x80000080, bev1 := 0xBFC00180 }

/-- Default `VEC_*` of the R4000 style (R245). -/
def Vectors.r4000 : Vectors where
  reset := 0xBFC00000
  tlbRefill := { bev0 := 0x80000000, bev1 := 0xBFC00200 }
  xtlbRefill := some { bev0 := 0x80000080, bev1 := 0xBFC00280 }
  cacheError := some { bev0 := 0xA0000100, bev1 := 0xBFC00300 }
  general := { bev0 := 0x80000180, bev1 := 0xBFC00380 }

/-- Default `SEG_*` (R103). -/
def Segments.standard : Segments where
  kseg0 := 0x80000000
  kseg1 := 0xA0000000
  kseg2 := 0xC0000000

/-- A 64-bit R4000-style CPU, the configuration of the machine after reset. Each value the spec leaves OPEN is a DESIGN
CHOICE (log 1); statements hold for every configuration. -/
def Config.r4000 : Config where
  style := .r4000
  xlen := .x64
  pridImp := 4
  pridRev := 0
  pridReserved := 0
  bigEndian := true
  beWritable := false
  hasFpu := true
  hasCp2 := false
  hasCp3 := false
  hasTlb := true
  implementsTs := true
  r3051Family := false
  kuKernel := 1
  timerIrqWired := true
  countRate := (1, 2)
  configReset := 0x00008000
  scWritable := false
  epWritable := false
  paBits := 36
  vectors := Vectors.r4000
  segments := Segments.standard
  hazardDistance := 2
  loadDelay := false
  watchMaskedByExl := false
  rpEffective := false
  plain := [{ base := 0, size := 2 ^ 36 }]
  image := []

/-- A 32-bit R3000-style CPU, the other design of R4, used by the tests (log 1). -/
def Config.r3000 : Config :=
  { Config.r4000 with
    style := .r3000, xlen := .x32, pridImp := 2, paBits := 32, vectors := Vectors.r3000, loadDelay := true,
    plain := [{ base := 0, size := 2 ^ 32 }] }

/-- The places where a rule takes `draw(N)` or "a model admits either". One free value per place and per value of the
counter. -/
inductive DrawSite where
  /-- Cause.CE after an exception other than CpU (R77). -/
  | exceptionCe
  /-- BadVaddr after an exception that does not set it (R82). -/
  | exceptionBadVaddr
  /-- `timer_pending` after a Count write that makes Count equal Compare (R170). -/
  | countWrite
  /-- EPC[63:32] or ErrorEPC[63:32] after a 32-bit write (R170, D33). -/
  | highHalf
  /-- CpU or RI where both apply (R174, R180, D34). -/
  | unusableOrReserved
  /-- The interrupt condition inside a hazard window: old or new value (R251 (b), R294). -/
  | interruptView
  /-- An interrupt against a synchronous exception at one boundary (R251 (a), D15). -/
  | interruptOrException
  /-- The timer's comparison inside a hazard window of Count: old or new Count (R265, R294). -/
  | timerView
  /-- SR.TS after soft reset (R281). -/
  | softResetTs
  /-- The unspecified rows of R97 after hard reset. -/
  | hardResetGpr (r : Nat)
  | hardResetSr
  | hardResetCause
  | hardResetEpc
  | hardResetBadVaddr
  | hardResetErrorEpc
  | hardResetCount
  | hardResetCompare
  | hardResetTimer
  | hardResetConfig
  | hardResetWatchLo
  | hardResetWatchHi
  | hardResetLlAddr
  | hardResetLlBit
deriving DecidableEq, Repr

/-- `draw(N)` of R8: a value the sources do not fix, free at every value `t` of the counter `State.draws`, every place and
every width. It has no body, so nothing can be proved of it. -/
opaque Config.draw (t : Nat) (site : DrawSite) (w : Nat) : BitVec w

/-- What the byte at a physical address reads as when nothing is listed there (R97, row memory: unspecified), for each
`State.memEpoch`. It has no body. -/
opaque Config.unwrittenByte (epoch : Nat) (addr : Nat) : Byte

end Sys2Proof
end

