-- ==== Sys2Proof/Machine/Bits.lean ====
section
/-! DEFINITION. Width changes, sign extension and bit fields. -/

namespace Sys2Proof

/-- The low 32 bits, `v[31:0]`. -/
def lo32 (v : Word) : Word32 := v.setWidth 32

/-- `zext_64`. -/
def zext64 (v : Word32) : Word := v.setWidth 64

/-- `v` as an XLEN-bit value: with `XLEN = 32` the bits above 31 do not exist and are held as 0 (log 2). -/
def Config.norm (c : Config) (v : Word) : Word :=
  match c.xlen with
  | .x32 => zext64 (lo32 v)
  | .x64 => v

/-- `sext_XLEN` of a 32-bit value (R8). -/
def Config.sext (c : Config) (v : Word32) : Word :=
  match c.xlen with
  | .x32 => zext64 v
  | .x64 => v.signExtend 64

/-- `old` with the bits of `mask` taken from `value`. -/
def putBits {w : Nat} (old mask value : BitVec w) : BitVec w := (old &&& ~~~mask) ||| (value &&& mask)

end Sys2Proof
end

