-- ==== Sys2Proof/Machine/ResetValues.lean ====
section
/-! DEFINITION. The registers after a hard reset (10_state.md R97), each as a function of the value `free` that its
unspecified bits take. `State.reset` gives them the values log 4 names, the hard-reset event gives them free values. -/

namespace Sys2Proof.Machine

/-- SR.TS after hard reset: 0, or 1 on an IDT R3051-family CPU without TLB (R55, R97). -/
def tsAfterHardReset (c : Config) : Bool := c.implementsTs && c.r3051Family && !c.hasTlb

/-- SR after hard reset. R4000 style: BEV = 1, ERL = 1, SR = TS = RP = 0; R3000 style: BEV = 1, KUc = `KU_KERNEL`, IEc = 0,
SwC = 0, TS as said; the "0" fields 0; every other field `free` (R97). -/
def srAfterHardReset (c : Config) (free : Word32) : Word32 :=
  let ts : Word32 := if tsAfterHardReset c then 0x00200000 else 0
  match c.style with
  | .r4000 => (free &&& 0xF607FFFB) ||| 0x00400004 ||| ts
  | .r3000 => (free &&& 0xF21DFF3C) ||| 0x00400000 ||| ts ||| (c.kuKernel.setWidth 32 <<< 1)

/-- Cause after hard reset: BD, CE, IP[1:0] and ExcCode unspecified, every other bit 0 (R75, R97). -/
def causeAfterHardReset (free : Word32) : Word32 := free &&& 0xB000037C

/-- The fields of Config that mtc0 may change: K0, SC when `SC_WRITABLE`, EP when `EP_WRITABLE` (R92). -/
def configWritable (c : Config) : Word32 :=
  0x00000007 ||| (if c.scWritable then 0x00020000 else 0) ||| (if c.epWritable then 0x0F000000 else 0)

/-- Config after hard reset: the hardware-set fields at `CONFIG_RESET`, the writable ones `free`; BE = `BIGENDIAN` (R89), EB
and the reserved bit 12 are 0 (R85, R97). -/
def configAfterHardReset (c : Config) (free : Word32) : Word32 :=
  (putBits c.configReset (configWritable c) free &&& 0xFFFF4FFF) ||| (if c.bigEndian then 0x00008000 else 0)

/-- A WatchLo value: bit 2 is a "0" field (R94). -/
def watchLoValue (v : Word32) : Word32 := v &&& 0xFFFFFFFB

/-- A WatchHi value: PAddr1 in bits 3:0, the rest a "0" field; all 0 with `PABITS <= 32` (R95). -/
def watchHiValue (c : Config) (v : Word32) : Word32 := if c.paBits > 32 then v &&& 0x0000000F else 0

end Sys2Proof.Machine
end

