-- ==== Sys2Proof/Machine/State.lean ====
section
/-! DEFINITION. The state of the machine as plain data, its faults and refusals, and the state after reset. -/

namespace Sys2Proof.Machine

/-- Why the machine stops with a fault. The spec's own exceptions are no faults: they are next states. -/
inductive Fault where
  /-- Raised by a load, a store or a fetch whose translated address has a bit at or above `PABITS`: the physical address space
  has no such byte (20_memory.md R100, log 32). Safe: the machine stops. -/
  | noSuchPhysicalAddress (pa : Nat)
deriving DecidableEq, Repr

/-- Why a step has no meaning: `refuse(reason)` of R8. Each is safe: the machine stops where the spec gives no meaning. -/
inductive Refusal where
  /-- An arm of `exec` that has no meaning yet. Safe. -/
  | notModelled (mnemonic : String)
  /-- `step`, on a word that is no row, or a row with a non-zero must-be-zero field (30_encoding.md R149). Safe. -/
  | outsideSpec (word : Word32)
  /-- `step`, on a coprocessor z word with CUz = 1 when the coprocessor exists: it has no rule (R148). Safe. -/
  | coprocessorNotSpecified (z : BitVec 2)
  /-- `step`, on a coprocessor z word with CUz = 1 when the coprocessor does not exist (10_state.md R49, R50). Safe. -/
  | coprocessorAbsent (z : BitVec 2)
  /-- Any instruction or fetch with SR.KSU = 3, EXL = 0, ERL = 0 (10_state.md R66, 60_exceptions.md R261). Safe. -/
  | reservedMode
  /-- A CP0 move of a number with no register on this CPU (R33). Safe. -/
  | registerNotSpecified (number : RegNum)
  /-- A CP0 move of an MMU register (R34). Safe. -/
  | mmuRegister (number : RegNum)
  /-- A CP0 move of ECC, CacheERR, TagLo or TagHi (R35). Safe. -/
  | cacheErrorRegister (number : RegNum)
  /-- A CP0 move of LLAddr (R93). Safe. -/
  | llAddrRegister
  /-- mtc0 to EPC on the R3000 style (R81). Safe. -/
  | epcWriteOnR3000
  /-- mtc0 to Config that changes a field not known writable (R92). Safe. -/
  | configFieldNotWritable
  /-- mtc0 to Config that changes BE where BE is writable (R92). Safe. -/
  | configByteOrderChange
  /-- A load or store with SR.IsC or SR.SwC set (R56). Safe. -/
  | cacheIsolated
  /-- A program address that is no sign-extended 32-bit address (20_memory.md R114). Safe. -/
  | segment64 (va : Word)
  /-- A mapped address with `HAS_TLB = false` (R116). Safe. -/
  | noTlb
  /-- The oracle answers a double match on a CPU that has no SR.TS because its TLB prevents one (R55, log 8). Safe. -/
  | doubleMatchPrevented
  /-- An access outside the plain-memory set (R112). Safe. -/
  | notPlainMemory (pa : Nat)
  /-- A fetch of a byte that this run stored (R124). Safe. -/
  | fetchOfStoredByte (pa : Nat)
  /-- jr in a delay slot (10_state.md R25, 70_reset_and_hazards.md R291). Safe. -/
  | branchInDelaySlot
  /-- eret in a delay slot (41_exception_return.md R181, R291). Safe. -/
  | eretInDelaySlot
  /-- The next instruction would be at `pc + 4` past the top of the address space (10_state.md R24). Safe. -/
  | pcWrap
  /-- An instruction or fetch in a CP0 hazard window whose effect depends on the old or new value (R294). Safe. -/
  | cp0Hazard
  /-- An instruction that reads the register loaded by the one before it, with `LOAD_DELAY = 1` (R296). Safe. -/
  | loadDelay
  /-- addu with an operand that is no sign-extended word, `XLEN = 64` (44_support_and_deferred.md R203). Safe. -/
  | adduOperandNotWord
  /-- cache on the R3000 style (R208). Safe. -/
  | cacheOnR3000
  /-- cache where CP0 is usable (R208). Safe. -/
  | cacheNotSpecified
  /-- tlbp, tlbr, tlbwi, tlbwr where CP0 is usable (R209 to R212). Safe. -/
  | tlbNotSpecified
  /-- pref (R213). Safe. -/
  | prefNotSpecified
  /-- ll (R214). Safe. -/
  | llNotSpecified
  /-- sc (R215). Safe. -/
  | scNotSpecified
  /-- The schedule names a soft reset or an NMI on the R3000 style, which has only the hard reset (R283). Safe. -/
  | noSoftReset
  /-- The schedule names a timer tick on the R3000 style, which has no timer (60_exceptions.md R265). Safe. -/
  | noTimer
deriving DecidableEq, Repr

/-- What an access is for (R8). -/
inductive AccessKind where
  | fetch
  | load
  | store
deriving DecidableEq, Repr

/-- The privilege modes (60_exceptions.md R260, R261). -/
inductive Mode where
  | kernel
  | supervisor
  | user
deriving DecidableEq, Repr

/-- The CP0 registers that CP0Read and CP0Write reach (40_cp0_move.md R170). -/
inductive Cp0Reg where
  | badVaddr
  | count
  | compare
  | sr
  | cause
  | epc
  | prid
  | config
  | watchLo
  | watchHi
  | errorEpc
deriving DecidableEq, Repr

/-- The stored CP0 registers and the hidden state behind them (10_state.md R30, R96). -/
structure Cp0File where
  /-- 12, R45 -/
  sr : Word32
  /-- 13, R75: BD, CE, IP[1:0], ExcCode; IP[7:2] are not stored (R78). -/
  cause : Word32
  /-- 14, R81 -/
  epc : Word
  /-- 8, R82 -/
  badVaddr : Word
  /-- 30, R35 -/
  errorEpc : Word
  /-- 9, R83 -/
  count : Word32
  /-- 11, R84 -/
  compare : Word32
  /-- Hidden, R84, R96. -/
  timerPending : Bool
  /-- 16, R85 -/
  config : Word32
  /-- 18, R94 -/
  watchLo : Word32
  /-- 19, R95 -/
  watchHi : Word32
  /-- 17, R93 (log 29) -/
  llAddr : Word
  /-- The load-linked monitor, R96, R181 (log 29). -/
  llBit : Bool
deriving DecidableEq, Repr

/-- A hazard window that an mtc0 or dmtc0 opened (R294): the register, the value it had before, the timer request it had
before, and how many more instructions the window covers. -/
structure Hazard where
  reg : Cp0Reg
  old : Word
  oldTimer : Bool
  left : Nat
deriving DecidableEq, Repr

/-- What the translation oracle answers for a mapped address (R116). -/
inductive TlbAnswer where
  /-- The range is mapped to physical addresses from `pa` on, with cache attribute `c`; a store to it raises Mod when it is
  not `writable`. -/
  | hit (pa : Nat) (c : BitVec 3) (writable : Bool)
  /-- No match, a refill-type miss, or a match with an invalid entry when not `refill`. -/
  | miss (refill : Bool)
  | doubleMatch
deriving DecidableEq, Repr

/-- One rule of the oracle's table: the answer for the addresses `base` to `base + size - 1`, for one kind of access or for
all (log 8). -/
structure TlbRule where
  base : Word32
  size : Nat
  kind : Option AccessKind
  answer : TlbAnswer
deriving DecidableEq, Repr

/-- A move of one of the agents of 00_scope.md R10 (log 7). -/
inductive Move where
  /-- The CPU: one instruction or one exception entry. -/
  | cpu
  /-- The timer (R265). -/
  | tick
  /-- The environment sets the six interrupt input levels (R250). -/
  | setExtInt (levels : BitVec 6)
  /-- The environment decides whether the next fetch and the next load get a bus error (R119). -/
  | setBusError (onFetch onLoad : Bool)
  /-- The environment changes what the oracle answers (R116). -/
  | setTlb (rules : List TlbRule)
  /-- R280 -/
  | hardReset
  /-- R281 -/
  | softReset
  /-- R282 -/
  | nmi
deriving DecidableEq, Repr

/-- Physical memory: the listed bytes, addresses strictly rising (`Memory.wf`). An address with no entry has no listed
value: it reads as a free byte (log 5). -/
abbrev Memory := List Host.Cell

/-- The state of the machine. INVENTORY.md lists each field with its rule and its reset value. -/
structure State where
  /-- The parameters, which no step changes (00_scope.md R6, log 1). -/
  cfg : Config
  /-- x[0]..x[31] (10_state.md R20); slot 0 is never read or written (R21). -/
  gprs : Vector Word 32
  /-- R24 -/
  pc : Word
  /-- R25 -/
  npc : Word
  /-- R25 -/
  inDelay : Bool
  cp0 : Cp0File
  mem : Memory
  /-- Which free contents unlisted memory has (log 5). -/
  memEpoch : Nat
  /-- The physical addresses this run has stored to, strictly rising (20_memory.md R124). -/
  written : List Nat
  /-- `ext_int[5:0]` (R96). -/
  extInt : BitVec 6
  /-- The environment answers the next fetch with a bus error (R127). -/
  ibe : Bool
  /-- The environment answers the next load with a bus error (R126). -/
  dbe : Bool
  tlb : List TlbRule
  /-- The open hazard windows, newest first (R294). -/
  hazards : List Hazard
  /-- The register loaded by the instruction executed immediately before (R296), tracked when `LOAD_DELAY = 1`. -/
  loadReg : Option RegNum
  /-- The moves of the agents, next first; the CPU moves when it is empty (log 7). -/
  schedule : List Move
  /-- Indexes the free values (log 3). -/
  draws : Nat
deriving DecidableEq, Repr

/-- The machine of configuration `c` after a hard reset. What R97 leaves unspecified is 0: DESIGN CHOICE, unsafe (log 4). What
the TLB behind the translation oracle holds R97 leaves "not specified" and no reset initialises (R284); the empty table `tlb`,
by which every mapped address is a refill-type miss until the environment sets another, is the model's: DESIGN CHOICE, unsafe
(log 8). -/
def State.initial (c : Config) : State where
  cfg := c
  gprs := Vector.replicate 32 0
  pc := c.sext c.vectors.reset
  npc := c.norm (c.sext c.vectors.reset + 4)
  inDelay := false
  cp0 :=
    { sr := srAfterHardReset c 0
      cause := causeAfterHardReset 0
      epc := 0
      badVaddr := 0
      errorEpc := 0
      count := 0
      compare := 0
      timerPending := false
      config := configAfterHardReset c 0
      watchLo := 0
      watchHi := 0
      llAddr := 0
      llBit := false }
  mem := c.image
  memEpoch := 0
  written := []
  extInt := 0
  ibe := false
  dbe := false
  tlb := []
  hazards := []
  loadReg := none
  schedule := []
  draws := 0

/-- The machine right after reset: a 64-bit R4000-style CPU (log 1, log 4). -/
def State.reset : State := State.initial Config.r4000

end Sys2Proof.Machine
end

