-- ==== Sys2Proof/Machine/Flags.lean ====
section
/-! DEFINITION. The hardware has no condition flags (10_state.md R26). Here stand the fields of the status registers SR and
Cause and the predicates the rules compute from them: the mode, the usable checks, the byte order of an access, the live
interrupt requests and the interrupt condition. -/

namespace Sys2Proof.Machine

/-! ### Fields of SR (10_state.md R47, R48) -/

/-- CU0 to CU3, bits 28 to 31 (R49, R50, R51). -/
def srCu (sr : Word32) (z : BitVec 2) : Bool := sr.getLsbD (28 + z.toNat)
/-- RE, bit 25 (R54). -/
def srRe (sr : Word32) : Bool := sr.getLsbD 25
/-- BEV, bit 22 (R52). -/
def srBev (sr : Word32) : Bool := sr.getLsbD 22
/-- TS, bit 21 (R55). -/
def srTs (sr : Word32) : Bool := sr.getLsbD 21
/-- IM, bits 15:8 (R53). -/
def srIm (sr : Word32) : BitVec 8 := sr.extractLsb' 8 8

/-- R3000 style: PE, bit 20 (R59). -/
def srPe (sr : Word32) : Bool := sr.getLsbD 20
/-- R3000 style: CM, bit 19 (R60). -/
def srCm (sr : Word32) : Bool := sr.getLsbD 19
/-- R3000 style: PZ, bit 18 (R61): storage, no modelled effect. -/
def srPz (sr : Word32) : Bool := sr.getLsbD 18
/-- R3000 style: SwC, bit 17 (R56). -/
def srSwc (sr : Word32) : Bool := sr.getLsbD 17
/-- R3000 style: IsC, bit 16 (R56). -/
def srIsc (sr : Word32) : Bool := sr.getLsbD 16
/-- R3000 style: the six KU/IE bits, SR[5:0], the three-entry stack of R58 (old, previous, current). -/
def srKuIe (sr : Word32) : BitVec 6 := sr.extractLsb' 0 6
/-- R3000 style: KUc, bit 1 (R57). -/
def srKuc (sr : Word32) : BitVec 1 := sr.extractLsb' 1 1
/-- R3000 style: IEc, bit 0 (R57). -/
def srIec (sr : Word32) : Bool := sr.getLsbD 0

/-- R4000 style: RP, bit 27 (R70): timing only. -/
def srRp (sr : Word32) : Bool := sr.getLsbD 27
/-- R4000 style: FR, bit 26 (R62): storage. -/
def srFr (sr : Word32) : Bool := sr.getLsbD 26
/-- R4000 style: SR, bit 20, soft reset (R63). -/
def srSoftReset (sr : Word32) : Bool := sr.getLsbD 20
/-- R4000 style: CH, bit 18 (R71): storage. -/
def srCh (sr : Word32) : Bool := sr.getLsbD 18
/-- R4000 style: CE, bit 17 (R72): storage. -/
def srCe (sr : Word32) : Bool := sr.getLsbD 17
/-- R4000 style: DE, bit 16 (R64): storage. -/
def srDe (sr : Word32) : Bool := sr.getLsbD 16
/-- R4000 style: KX, bit 7 (R65). -/
def srKx (sr : Word32) : Bool := sr.getLsbD 7
/-- R4000 style: SX, bit 6 (R65). -/
def srSx (sr : Word32) : Bool := sr.getLsbD 6
/-- R4000 style: UX, bit 5 (R65). -/
def srUx (sr : Word32) : Bool := sr.getLsbD 5
/-- R4000 style: KSU, bits 4:3 (R66). -/
def srKsu (sr : Word32) : BitVec 2 := sr.extractLsb' 3 2
/-- R4000 style: ERL, bit 2 (R67). -/
def srErl (sr : Word32) : Bool := sr.getLsbD 2
/-- R4000 style: EXL, bit 1 (R68). -/
def srExl (sr : Word32) : Bool := sr.getLsbD 1
/-- R4000 style: IE, bit 0 (R69). -/
def srIe (sr : Word32) : Bool := sr.getLsbD 0

/-- The bits of SR that mtc0 writes (R73); TS, and on the R3000 style PE and CM, keep their values, the "0" fields read 0. -/
def srWritable : Style → Word32
  | .r3000 => 0xF247FF3F
  | .r4000 => 0xFE57FFFF

/-- The bits of SR that keep their value under mtc0 (R73). -/
def srKept : Style → Word32
  | .r3000 => 0x00380000
  | .r4000 => 0x00200000

/-! ### Fields of Cause (10_state.md R75) -/

/-- BD, bit 31 (R76). -/
def causeBd (cause : Word32) : Bool := cause.getLsbD 31
/-- CE, bits 29:28 (R77). -/
def causeCe (cause : Word32) : BitVec 2 := cause.extractLsb' 28 2
/-- IP, bits 15:8 (R78). -/
def causeIp (cause : Word32) : BitVec 8 := cause.extractLsb' 8 8
/-- ExcCode, bits 6:2 (R79). -/
def causeExcCode (cause : Word32) : BitVec 5 := cause.extractLsb' 2 5

/-- The register PRId, read from the configuration (R40). -/
def pridValue (c : Config) : Word32 := c.pridReserved ++ c.pridImp ++ c.pridRev

/-! ### Interrupt requests (60_exceptions.md R250, R251) -/

/-- IP[7]: the timer when it is wired, else input 5 (R250). -/
def State.ip7 (s : State) : Bool :=
  if s.cfg.style = .r4000 ∧ s.cfg.timerIrqWired then s.cp0.timerPending else s.extInt.getLsbD 5

/-- Cause.IP as it is now: the timer or input 5, inputs 4 to 0, and the two stored software bits (R78, R250). -/
def State.ip (s : State) : BitVec 8 :=
  BitVec.ofBool s.ip7 ++ s.extInt.extractLsb' 0 5 ++ s.cp0.cause.extractLsb' 8 2

/-- Cause as mfc0 reads it: IP[7:2] are live (R78, R170). -/
def State.liveCause (s : State) : Word32 := putBits s.cp0.cause 0x0000FF00 (s.ip.setWidth 32 <<< 8)

/-- `IntPending` (R251). -/
def State.intPending (s : State) : Bool :=
  let enabled := match s.cfg.style with
    | .r3000 => srIec s.cp0.sr
    | .r4000 => srIe s.cp0.sr && !srExl s.cp0.sr && !srErl s.cp0.sr
  enabled && (s.ip &&& srIm s.cp0.sr) != 0

/-! ### Privilege (R260, R261, R263) -/

/-- The privilege mode; `none` is KSU = 3 with EXL = ERL = 0, which is refused (R260, R261, 10_state.md R66). -/
def State.mode (s : State) : Option Mode :=
  match s.cfg.style with
  | .r3000 => some (if srKuc s.cp0.sr = s.cfg.kuKernel then .kernel else .user)
  | .r4000 =>
    if srExl s.cp0.sr || srErl s.cp0.sr then some .kernel
    else if srKsu s.cp0.sr = 0 then some .kernel
    else if srKsu s.cp0.sr = 1 then some .supervisor
    else if srKsu s.cp0.sr = 2 then some .user
    else none

/-- `Cp0Usable` (10_state.md R51). -/
def State.cp0Usable (s : State) (m : Mode) : Bool := m = .kernel || srCu s.cp0.sr 0

/-- `Dw64Allowed` (40_cp0_move.md R174). -/
def State.dw64Allowed (s : State) (m : Mode) : Bool :=
  match m with
  | .kernel => true
  | .user => srUx s.cp0.sr
  | .supervisor => srSx s.cp0.sr

/-- KX, SX or UX, the bit of the mode an access is made in (10_state.md R65, 60_exceptions.md R246). -/
def State.extendedAddressing (s : State) : Bool :=
  match s.mode with
  | some .kernel => srKx s.cp0.sr
  | some .supervisor => srSx s.cp0.sr
  | some .user => srUx s.cp0.sr
  | none => false

/-- `effective_big`: the byte order of a data access (20_memory.md R107). -/
def State.effectiveBig (s : State) (m : Mode) : Bool := xor s.cfg.bigEndian (srRe s.cp0.sr && m = .user)

end Sys2Proof.Machine
end

