-- ==== Sys2Proof/Machine/Ops.lean ====
section
/-! DEFINITION. The named operations over memory and registers; taking an exception and returning from one; what one
instruction does as data (`Update`, `Effect`), and the shared operation `commit` by which every meaning takes effect. -/

namespace Sys2Proof.Machine

/-! ### General registers (10_state.md R20, R21) -/

/-- `x[r]`: register 0 reads as zero (R21). -/
def State.readGpr (s : State) (r : RegNum) : Word := if r = 0 then 0 else s.gprs[r.toNat]

/-- The register file after `x[r] <- v`: a write of register 0 is discarded (R21); the value has XLEN bits. -/
def putGpr (c : Config) (gprs : Vector Word 32) (r : RegNum) (v : Word) : Vector Word 32 :=
  if r = 0 then gprs else gprs.set r.toNat (c.norm v)

/-! ### Memory (20_memory.md R106) -/

/-- The listed byte at an address. -/
def Memory.find? : Memory → Nat → Option Byte
  | [], _ => none
  | (a, b) :: m, x => if a = x then some b else Memory.find? m x

/-- Lists byte `b` at address `x`, keeping the addresses strictly rising. -/
def Memory.put : Memory → Nat → Byte → Memory
  | [], x, b => [(x, b)]
  | (a, c) :: m, x, b =>
    if x < a then (x, b) :: (a, c) :: m else if x = a then (x, b) :: m else (a, c) :: Memory.put m x b

/-- Lists bytes from address `x` on. -/
def Memory.putAll : Memory → Nat → List Byte → Memory
  | m, _, [] => m
  | m, x, b :: bs => Memory.putAll (Memory.put m x b) (x + 1) bs

/-- The canonical form: addresses strictly rising (log 5). -/
def Memory.wf : Memory → Bool
  | [] => true
  | [_] => true
  | a :: b :: m => decide (a.1 < b.1) && Memory.wf (b :: m)

/-- A set of addresses as a strictly rising list: adding one. -/
def addAddress : List Nat → Nat → List Nat
  | [], x => [x]
  | a :: as, x => if x < a then x :: a :: as else if x = a then a :: as else a :: addAddress as x

/-- Adding `n` addresses from `x` on. -/
def addAddresses : List Nat → Nat → Nat → List Nat
  | as, _, 0 => as
  | as, x, n + 1 => addAddresses (addAddress as x) (x + 1) n

/-- Strictly rising. -/
def addressesWf : List Nat → Bool
  | [] => true
  | [_] => true
  | a :: b :: as => decide (a < b) && addressesWf (b :: as)

/-- The byte at a physical address: the listed one, else a free value (log 5). -/
def State.readByte (s : State) (pa : Nat) : Byte :=
  (Memory.find? s.mem pa).getD (Config.unwrittenByte s.memEpoch pa)

/-- `MemRead(pa, 4)` in a byte order (R106). -/
def State.readWord (s : State) (big : Bool) (pa : Nat) : Word32 :=
  assembleWord big (s.readByte pa) (s.readByte (pa + 1)) (s.readByte (pa + 2)) (s.readByte (pa + 3))

/-! ### CP0 registers (40_cp0_move.md R170) -/

/-- The stored value of a CP0 register at 64 bits; Cause without the live IP[7:2]. -/
def State.cp0Get (s : State) : Cp0Reg → Word
  | .badVaddr => s.cp0.badVaddr
  | .count => zext64 s.cp0.count
  | .compare => zext64 s.cp0.compare
  | .sr => zext64 s.cp0.sr
  | .cause => zext64 s.cp0.cause
  | .epc => s.cp0.epc
  | .prid => zext64 (pridValue s.cfg)
  | .config => zext64 s.cp0.config
  | .watchLo => zext64 s.cp0.watchLo
  | .watchHi => zext64 s.cp0.watchHi
  | .errorEpc => s.cp0.errorEpc

/-- `CP0Read`: Cause is read with IP[7:2] at their live values (R170). -/
def State.cp0Read (s : State) : Cp0Reg → Word
  | .cause => zext64 s.liveCause
  | r => s.cp0Get r

/-- The CP0 file with a register replaced. No instruction writes PRId, which is no storage, or BadVaddr, which only exception
entry sets (D24, 10_state.md R82). -/
def putCp0 (c : Config) (f : Cp0File) (r : Cp0Reg) (v : Word) : Cp0File :=
  match r with
  | .badVaddr => f
  | .count => { f with count := lo32 v }
  | .compare => { f with compare := lo32 v }
  | .sr => { f with sr := lo32 v }
  | .cause => { f with cause := lo32 v }
  | .epc => { f with epc := c.norm v }
  | .prid => f
  | .config => { f with config := lo32 v }
  | .watchLo => { f with watchLo := lo32 v }
  | .watchHi => { f with watchHi := lo32 v }
  | .errorEpc => { f with errorEpc := c.norm v }

/-- What a write does to the timer request (40_cp0_move.md R170, 60_exceptions.md R266). -/
inductive TimerWrite where
  | keep
  /-- A write of Compare. -/
  | clear
  /-- A write of Count with the value of Compare: whether it raises the request is free (log 19). -/
  | mayRaise
deriving DecidableEq, Repr

/-- A write of the bits `mask` of a CP0 register. `timer` is what becomes of the timer request (Count, Compare); `window` says that the write opens a hazard window (R294: the writes of mtc0 and dmtc0). -/
structure Cp0Write where
  reg : Cp0Reg
  mask : Word
  value : Word
  timer : TimerWrite := .keep
  window : Bool := false
deriving DecidableEq, Repr

/-- The timer request after a write. -/
def State.timerAfter (s : State) (t : TimerWrite) : Bool :=
  match t with
  | .keep => s.cp0.timerPending
  | .clear => false
  | .mayRaise => s.cp0.timerPending || Config.draw s.draws .countWrite 1 == 1

/-- The CP0 file after a write. -/
def applyCp0Write (s : State) (w : Cp0Write) : Cp0File :=
  let f := putCp0 s.cfg s.cp0 w.reg (putBits (s.cp0Get w.reg) w.mask w.value)
  { f with timerPending := s.timerAfter w.timer }

/-! ### Exceptions (60_exceptions.md R220) -/

/-- The exceptions of Table 3.3, with what each records. -/
inductive Exc where
  /-- 0, R221 -/
  | int
  /-- 1, R222 -/
  | mod (va : Word)
  /-- 2, R223; `refill` marks a refill-type miss -/
  | tlbl (va : Word) (refill : Bool)
  /-- 3, R224 -/
  | tlbs (va : Word) (refill : Bool)
  /-- 4, R225 -/
  | adel (va : Word)
  /-- 5, R226 -/
  | ades (va : Word)
  /-- 6, R227 -/
  | ibe
  /-- 7, R228 -/
  | dbe
  /-- 8, R229 -/
  | syscall
  /-- 9, R229 -/
  | bp
  /-- 10, R230 -/
  | ri
  /-- 11, R231 -/
  | cpu (z : BitVec 2)
  /-- 12, R232: raised by no modelled step -/
  | ov
  /-- 13, R233: raised by no modelled step -/
  | trap
  /-- 14, R234: raised by no modelled step -/
  | vcei
  /-- 15, R235: raised by no modelled step -/
  | fpe
  /-- 16, R236: raised by no modelled step -/
  | c2e
  /-- 23, R237 -/
  | watch
  /-- 31, R234: raised by no modelled step -/
  | vced
deriving DecidableEq, Repr

/-- The code Cause.ExcCode records (R220). -/
def Exc.code : Exc → BitVec 5
  | .int => 0
  | .mod _ => 1
  | .tlbl _ _ => 2
  | .tlbs _ _ => 3
  | .adel _ => 4
  | .ades _ => 5
  | .ibe => 6
  | .dbe => 7
  | .syscall => 8
  | .bp => 9
  | .ri => 10
  | .cpu _ => 11
  | .ov => 12
  | .trap => 13
  | .vcei => 14
  | .fpe => 15
  | .c2e => 16
  | .watch => 23
  | .vced => 31

/-- The address BadVaddr records: for codes 1 to 5 (R82, R240, R241). -/
def Exc.badVa : Exc → Option Word
  | .mod va | .tlbl va _ | .tlbs va _ | .adel va | .ades va => some va
  | .int | .ibe | .dbe | .syscall | .bp | .ri | .cpu _ | .ov | .trap | .vcei | .fpe | .c2e | .watch | .vced => none

/-- The address of a refill-type miss. -/
def Exc.refillVa : Exc → Option Word
  | .tlbl va true | .tlbs va true => some va
  | _ => none

/-- What the hardware around the CPU does together with raising an exception. -/
inductive Note where
  | none
  /-- The TLB shuts down: SR.TS is set (10_state.md R55, 20_memory.md R116). -/
  | tlbShutdown
  /-- The environment's bus error for a fetch is given (R127). -/
  | fetchBusError
  /-- The environment's bus error for a load is given (R126). -/
  | loadBusError
deriving DecidableEq, Repr

/-- A program address in kuseg (20_memory.md R101). -/
def inKuseg (a : Word32) : Bool := a ≤ 0x7FFFFFFF

/-- `epc_val` of R238: the branch when the instruction is in its delay slot, else the instruction. -/
def State.restartPc (s : State) : Word := if s.inDelay then s.cfg.norm (s.pc - 4) else s.pc

/-- Whether exception entry keeps EPC and Cause.BD: R4000 style with EXL = 1 (R241, D17). -/
def State.nested (s : State) : Bool := s.cfg.style = .r4000 && srExl s.cp0.sr

/-- The address of an entry point, in the column of SR.BEV (R245). -/
def State.entry (s : State) (v : VectorPair) : Word :=
  s.cfg.sext (if srBev s.cp0.sr then v.bev1 else v.bev0)

/-- The entry point of an exception, in both columns of SR.BEV (R245, R246): the refill entries for a refill-type miss that
qualifies, else the general entry. -/
def State.vectorPair (s : State) (e : Exc) : VectorPair :=
  match e.refillVa with
  | none => s.cfg.vectors.general
  | some va =>
    match s.cfg.style with
    | .r3000 => if inKuseg (lo32 va) then s.cfg.vectors.tlbRefill else s.cfg.vectors.general
    | .r4000 =>
      if s.nested then s.cfg.vectors.general
      else if s.cfg.xlen = .x64 ∧ s.extendedAddressing then s.cfg.vectors.xtlbRefill.getD s.cfg.vectors.tlbRefill
      else s.cfg.vectors.tlbRefill

/-- `Vector(E)` (R245, R246). -/
def State.vector (s : State) (e : Exc) : Word := s.entry (s.vectorPair e)

/-- Cause after entry: BD (unless kept), CE and ExcCode; IP[1:0] stay (R240, R241). CE of an exception other than CpU is
free (10_state.md R77). -/
def State.causeOnEntry (s : State) (e : Exc) : Word32 :=
  let ce : BitVec 2 := match e with
    | .cpu z => z
    | _ => Config.draw s.draws .exceptionCe 2
  putBits s.cp0.cause (if s.nested then 0x3000007C else 0xB000007C)
    (((BitVec.ofBool s.inDelay).setWidth 32 <<< 31) ||| (ce.setWidth 32 <<< 28) ||| (e.code.setWidth 32 <<< 2))

/-- SR after entry: the KU/IE stack is pushed (R240), or EXL is set (R241); TS is set when the TLB shuts down. -/
def State.srOnEntry (s : State) (note : Note) : Word32 :=
  let sr := if note = .tlbShutdown then s.cp0.sr ||| 0x00200000 else s.cp0.sr
  match s.cfg.style with
  | .r3000 => putBits sr 0x3F (((sr &&& 0xF) <<< 2) ||| (s.cfg.kuKernel.setWidth 32 <<< 1))
  | .r4000 => sr ||| 0x2

/-- TAKING AN EXCEPTION: `Enter_R3000` and `Enter_R4000` (R240, R241). No general register, no memory changes (10_state.md
R23). Entry ends every hazard window (R294) and the load delay (R296).

DESIGN CHOICE (log 14): in an open window of SR the entry works on the new SR. R294 says so of SR.BEV. For a synchronous
exception nothing else can differ, because `resolve` and `State.fetch` refuse it where `State.entryReads` does. For an interrupt,
which R251 admits in either view, that entry tests the new EXL (EPC and BD kept or saved) and pushes the new KU/IE pairs, even
where the old view took the interrupt, is the model's choice. Unsafe. -/
def enter (e : Exc) (note : Note) (s : State) : State :=
  { s with
    cp0 :=
      { s.cp0 with
        epc := if s.nested then s.cp0.epc else s.restartPc
        cause := s.causeOnEntry e
        badVaddr := s.cfg.norm (e.badVa.getD (Config.draw s.draws .exceptionBadVaddr 64))
        sr := s.srOnEntry note }
    pc := s.vector e
    npc := s.cfg.norm (s.vector e + 4)
    inDelay := false
    ibe := s.ibe && note != .fetchBusError
    dbe := s.dbe && note != .loadBusError
    hazards := []
    loadReg := none
    draws := s.draws + 1 }

/-! ### What an instruction does, as data -/

/-- Where control goes after the instruction (10_state.md R25). -/
inductive Flow where
  /-- The instruction at `npc`. -/
  | next
  /-- `branch_delayed(t)`. -/
  | delayed (t : Word)
  /-- `pc <- t`, no delay slot. -/
  | jump (t : Word)
deriving DecidableEq, Repr

/-- Everything an instruction that completes writes. -/
structure Update where
  gpr : Option (RegNum × Word) := none
  cp0 : Option Cp0Write := none
  /-- Bytes stored from a physical address on. -/
  store : Option (Nat × List Byte) := none
  flow : Flow := .next
  /-- The general register a lw or mfc0 loads (R296). -/
  loaded : Option RegNum := none
  /-- eret breaks the load-linked monitor (R181). -/
  breakLink : Bool := false
deriving DecidableEq, Repr

/-- Why an instruction does not complete. -/
inductive Stop where
  | raise (e : Exc) (note : Note)
  | refuse (r : Refusal)
  | fault (f : Fault)
deriving DecidableEq, Repr

/-- The whole effect of an instruction (R294: "result, exceptions, next pc"). -/
inductive Effect where
  | done (u : Update)
  | stop (x : Stop)
deriving DecidableEq, Repr

/-- The effect of an instruction that raises an exception. -/
def Effect.raise (e : Exc) : Effect := .stop (.raise e .none)

/-- The effect of an instruction that the spec refuses. -/
def Effect.refuse (r : Refusal) : Effect := .stop (.refuse r)

/-! ### Returning from an exception (41_exception_return.md R180, R181) -/

/-- The pop of the KU/IE stack: SR[3:0] <- SR[5:2], all other bits unchanged (R180). Bits 5:2 of SR are all it reads. -/
def popKuIe (s : State) : Update :=
  { cp0 := some { reg := .sr, mask := 0xF, value := zext64 ((s.cp0.sr >>> 2) &&& 0xF) } }

/-- eret: back to ErrorEPC clearing ERL, or to EPC clearing EXL; no delay slot; the link is broken (R181). -/
def exceptionReturn (s : State) : Update :=
  if srErl s.cp0.sr then
    { cp0 := some { reg := .sr, mask := 0x4, value := 0 }, flow := .jump s.cp0.errorEpc, breakLink := true }
  else
    { cp0 := some { reg := .sr, mask := 0x2, value := 0 }, flow := .jump s.cp0.epc, breakLink := true }

/-! ### Hazard windows (70_reset_and_hazards.md R294) -/

/-- `s` as it would be had the write behind window `h` not been seen. -/
def seeOld (h : Hazard) (s : State) : State :=
  let f := putCp0 s.cfg s.cp0 h.reg h.old
  { s with cp0 := if h.reg = .compare then { f with timerPending := h.oldTimer } else f }

/-- Every way of seeing each of the windows' registers old or new; the first is the state as it is. -/
def views : List Hazard → State → List State
  | [], s => [s]
  | h :: hs, s => views hs s ++ (views hs s).map (seeOld h)

/-- The views other than the state itself: none when no window is open. -/
def State.oldViews (s : State) : List State := (views s.hazards s).tail

/-- A window after an instruction that wrote `w`: one instruction fewer is left, and what a write that takes effect at once
(rfe, eret) put into the register is there in the old view too. -/
def ageHazard (w : Option Cp0Write) (h : Hazard) : Option Hazard :=
  if h.left ≤ 1 then none
  else
    match w with
    | some w =>
      if w.reg = h.reg ∧ w.window = false then
        some { h with left := h.left - 1, old := putBits h.old w.mask w.value }
      else some { h with left := h.left - 1 }
    | none => some { h with left := h.left - 1 }

/-- The window an mtc0 or dmtc0 opens. -/
def openHazard (s : State) (w : Option Cp0Write) : List Hazard :=
  match w with
  | some w =>
    if w.window ∧ s.cfg.hazardDistance ≠ 0 then
      [{ reg := w.reg, old := s.cp0Get w.reg, oldTimer := s.cp0.timerPending, left := s.cfg.hazardDistance }]
    else []
  | none => []

/-! ### Completing an instruction -/

/-- `pc + 4` lies past the top of the address space, and the instruction is followed by the one at `pc + 4` (10_state.md
R24). In a delay slot the next instruction is the jump's target. -/
def State.wraps (s : State) (flow : Flow) : Bool :=
  match flow with
  | .jump _ => false
  | .next | .delayed _ => !s.inDelay && s.cfg.norm (s.pc + 4) < 4

/-- The state after an instruction that completes. `pc <- npc` and `npc <- npc + 4`, or as the flow says (R25). -/
def State.retire (s : State) (u : Update) : State :=
  { s with
    gprs := match u.gpr with
      | some (r, v) => putGpr s.cfg s.gprs r v
      | none => s.gprs
    cp0 :=
      let f := match u.cp0 with
        | some w => applyCp0Write s w
        | none => s.cp0
      { f with llBit := f.llBit && !u.breakLink }
    mem := match u.store with
      | some (pa, bytes) => Memory.putAll s.mem pa bytes
      | none => s.mem
    written := match u.store with
      | some (pa, bytes) => addAddresses s.written pa bytes.length
      | none => s.written
    pc := match u.flow with
      | .jump t => t
      | .next | .delayed _ => s.npc
    npc := match u.flow with
      | .jump t => s.cfg.norm (t + 4)
      | .delayed t => t
      | .next => s.cfg.norm (s.npc + 4)
    inDelay := match u.flow with
      | .delayed _ => true
      | .next | .jump _ => false
    hazards := openHazard s u.cp0 ++ s.hazards.filterMap (ageHazard u.cp0)
    loadReg := if s.cfg.loadDelay then u.loaded else none
    draws := s.draws + 1 }

/-- An effect takes place: the update, the exception entry, or the stop. -/
def finish (f : Effect) (s : State) : Host.Outcome State Fault Refusal :=
  match f with
  | .done u => if s.wraps u.flow then .refused .pcWrap else .next (s.retire u)
  | .stop (.raise e note) => .next (enter e note s)
  | .stop (.refuse r) => .refused r
  | .stop (.fault r) => .fault r

/-- An effect computed in the current mode; KSU = 3 is refused (10_state.md R66). -/
def inMode (eff : Mode → State → Effect) (s : State) : Effect :=
  match s.mode with
  | some m => eff m s
  | none => .refuse .reservedMode

/-- What the entry of an exception reads from SR, but for SR.BEV, of which it uses the new value (R294): whether EPC and BD are
kept, the entry point in both columns, and, on the R3000 style, the KU/IE pairs it pushes. -/
def State.entryReads (s : State) (e : Exc) : Bool × VectorPair × BitVec 4 :=
  (s.nested, s.vectorPair e,
    match s.cfg.style with
    | .r3000 => s.cp0.sr.extractLsb' 0 4
    | .r4000 => 0)

/-- Whether two states stop alike: the entry of an exception does the same in both; a refusal or fault looks at no state. -/
def Stop.alike (x : Stop) (s v : State) : Bool :=
  match x with
  | .raise e _ => v.entryReads e = s.entryReads e
  | .refuse _ | .fault _ => true

/-- Whether an instruction does in view `v` what it does in `s`: its whole effect is the same, the entry of an exception it
raises with it (R294). -/
def sameIn (eff : Mode → State → Effect) (s v : State) : Bool :=
  inMode eff v = inMode eff s &&
    match inMode eff s with
    | .done _ => true
    | .stop x => x.alike s v

/-- Whether the instruction reads the register that the instruction before it loaded (R296). -/
def State.readsLoaded (s : State) (sources : List RegNum) : Bool :=
  match s.loadReg with
  | some t => s.cfg.loadDelay && t != 0 && sources.contains t
  | none => false

/-- The effect of an instruction that reads the general registers `sources`, after the load-delay rule (R296) and the hazard
rule (R294): inside a window it executes only if its whole effect is the same whether it sees the old or the new values.

DESIGN CHOICE (log 15): the spec gives no order between the refusals of R296 and R294 and the exceptions that an instruction
raises before it uses its operands (CpU, RI: 40_cp0_move.md R174); the model refuses first. Safe. -/
def resolve (sources : List RegNum) (eff : Mode → State → Effect) (s : State) : Effect :=
  if s.readsLoaded sources then .refuse .loadDelay
  else if s.oldViews.all (sameIn eff s) then inMode eff s
  else .refuse .cp0Hazard

/-- THE SHARED OPERATION of every meaning: the resolved effect takes place. -/
def commit (sources : List RegNum) (eff : Mode → State → Effect) (s : State) : Host.Outcome State Fault Refusal :=
  finish (resolve sources eff s) s

end Sys2Proof.Machine
end

