-- ==== Sys2Proof/Machine/Operands.lean ====
section
/-! DEFINITION. The operand forms: general registers (Ops.lean), the base and offset address, the CP0 register number, and
which general registers an instruction reads. -/

namespace Sys2Proof.Machine

/-- `x[base] + sext_XLEN(offset)`, modulo 2^XLEN (30_encoding.md R147). -/
def State.effectiveAddress (s : State) (base : RegNum) (offset : BitVec 16) : Word :=
  s.cfg.norm (s.readGpr base + offset.signExtend 64)

/-- Which register a CP0 register number names, or why every access to it is refused (10_state.md R30, R33, R34, R35, R93;
40_cp0_move.md R170). -/
def cp0Lookup (c : Config) (n : RegNum) : Except Refusal Cp0Reg :=
  let r4000 : Bool := c.style = .r4000
  match n with
  | 0 | 1 | 2 | 4 | 5 | 10 => if c.hasTlb then .error (.mmuRegister n) else .error (.registerNotSpecified n)
  | 3 | 6 => if c.hasTlb && r4000 then .error (.mmuRegister n) else .error (.registerNotSpecified n)
  | 8 => .ok .badVaddr
  | 9 => if r4000 then .ok .count else .error (.registerNotSpecified n)
  | 11 => if r4000 then .ok .compare else .error (.registerNotSpecified n)
  | 12 => .ok .sr
  | 13 => .ok .cause
  | 14 => .ok .epc
  | 15 => .ok .prid
  | 16 => if r4000 then .ok .config else .error (.registerNotSpecified n)
  | 17 => if r4000 then .error .llAddrRegister else .error (.registerNotSpecified n)
  | 18 => if r4000 then .ok .watchLo else .error (.registerNotSpecified n)
  | 19 => if r4000 then .ok .watchHi else .error (.registerNotSpecified n)
  | 26 | 27 | 28 | 29 => if r4000 then .error (.cacheErrorRegister n) else .error (.registerNotSpecified n)
  | 30 => if r4000 then .ok .errorEpc else .error (.registerNotSpecified n)
  | _ => .error (.registerNotSpecified n)

/-- Whether a CP0 register is 64 bits wide: the XLEN-bit ones with `XLEN = 64` (R32, R170). -/
def cp0IsDouble (c : Config) (r : Cp0Reg) : Bool :=
  c.xlen = .x64 && (r = .badVaddr || r = .epc || r = .errorEpc)

/-- The general registers an instruction uses as source operands (70_reset_and_hazards.md R296). The refused pref, ll and sc
are given none: they read nothing. -/
def sources : Instr → List RegNum
  | .mtc0 rt _ | .dmtc0 rt _ => [rt]
  | .sll rt _ _ => [rt]
  | .jr rs => [rs]
  | .addu rs rt _ | .and rs rt _ | .or rs rt _ => [rs, rt]
  | .lw base _ _ => [base]
  | .sw base rt _ => [base, rt]
  | .cache base _ _ => [base]
  | .mfc0 _ _ | .dmfc0 _ _ | .tlbr | .tlbwi | .tlbwr | .tlbp | .rfe | .eret | .nop | .ssnop | .syscall _ | .brk _ | .sync _
  | .ll _ _ _ | .pref _ _ _ | .sc _ _ _ => []

end Sys2Proof.Machine
end

