-- ==== Sys2Proof/Machine/Translate.lean ====
section
/-! DEFINITION. Address translation, the watchpoint, and the data-access and fetch procedures (20_memory.md R101 to R127,
60_exceptions.md R268). -/

namespace Sys2Proof.Machine

/-- The cache attribute `Translate` returns (R103, R120). Caches are not modelled; no rule uses it. -/
inductive CacheAttr where
  | uncached
  /-- kseg0 of the R3000 style. -/
  | cached
  /-- kseg0 of the R4000 style: Config.K0. -/
  | perK0 (k0 : BitVec 3)
  /-- A mapped page: the `c` field of its entry. -/
  | page (c : BitVec 3)
deriving DecidableEq, Repr

/-- AdES for a store, AdEL for a load or fetch (R101, R109). -/
def addressError (kind : AccessKind) (va : Word) : Exc :=
  match kind with
  | .store => .ades va
  | .fetch | .load => .adel va

/-- TLBS for a store, TLBL for a load or fetch (R116). -/
def tlbMiss (kind : AccessKind) (va : Word) (refill : Bool) : Exc :=
  match kind with
  | .store => .tlbs va refill
  | .fetch | .load => .tlbl va refill

/-- Whether a rule of the oracle's table speaks of an access. -/
def TlbRule.covers (r : TlbRule) (kind : AccessKind) (a : Word32) : Bool :=
  r.base.toNat ≤ a.toNat && a.toNat < r.base.toNat + r.size && (r.kind == none || r.kind == some kind)

/-- `TlbOracle` (R116): the first rule of the table that speaks of the access; without one, and always once SR.TS is set, no
entry matches (log 8). -/
def State.oracle (s : State) (kind : AccessKind) (a : Word32) : TlbAnswer :=
  if srTs s.cp0.sr then .miss true
  else
    match s.tlb.find? (fun r => r.covers kind a) with
    | some { base := base, answer := .hit pa c writable, .. } => .hit (pa + (a.toNat - base.toNat)) c writable
    | some { answer := .miss refill, .. } => .miss refill
    | some { answer := .doubleMatch, .. } => .doubleMatch
    | none => .miss true

/-- A mapped address (R115 last line, R116). -/
def State.translateMapped (s : State) (kind : AccessKind) (va : Word) : Except Stop (Nat × CacheAttr) :=
  if s.cfg.hasTlb then
    match s.oracle kind (lo32 va) with
    | .hit pa c writable =>
      if kind = .store ∧ writable = false then .error (.raise (.mod va) .none) else .ok (pa, .page c)
    | .miss refill => .error (.raise (tlbMiss kind va refill) .none)
    | .doubleMatch =>
      if s.cfg.implementsTs then .error (.raise (tlbMiss kind va true) .tlbShutdown)
      else .error (.refuse .doubleMatchPrevented)
  else .error (.refuse .noTlb)

/-- The addresses supervisor mode may use: kuseg and 0xC000_0000..0xDFFF_FFFF (R103, R115, D39). -/
def supervisorMay (a : Word32) : Bool := inKuseg a || (0xC0000000 ≤ a && a ≤ 0xDFFFFFFF)

/-- `Translate(va, kind)` (R115). -/
def State.translate (s : State) (m : Mode) (kind : AccessKind) (va : Word) : Except Stop (Nat × CacheAttr) :=
  let a := lo32 va
  let seg := s.cfg.segments
  if s.cfg.xlen = .x64 ∧ va ≠ a.signExtend 64 then .error (.refuse (.segment64 va))
  else if m = .user ∧ inKuseg a = false then .error (.raise (addressError kind va) .none)
  else if m = .supervisor ∧ supervisorMay a = false then .error (.raise (addressError kind va) .none)
  else if s.cfg.style = .r4000 ∧ srErl s.cp0.sr ∧ inKuseg a then .ok ((a.extractLsb' 0 31).toNat, .uncached)
  else if seg.kseg0 ≤ a ∧ a < seg.kseg1 then
    .ok ((a - seg.kseg0).toNat,
      match s.cfg.style with
      | .r3000 => .cached
      | .r4000 => .perK0 (s.cp0.config.extractLsb' 0 3))
  else if seg.kseg1 ≤ a ∧ a < seg.kseg2 then .ok ((a - seg.kseg1).toNat, .uncached)
  else s.translateMapped kind va

/-- The watched physical address, `WatchHi[3:0] || WatchLo[31:3] || 000` (R268). -/
def State.watchAddress (s : State) : Nat :=
  (s.cp0.watchHi.extractLsb' 0 4 ++ s.cp0.watchLo.extractLsb' 3 29 ++ 0#3).toNat

/-- `WatchMatch(pa, kind)` (R268): bits PABITS-1:3 are compared; fetches never match. -/
def State.watchMatch (s : State) (pa : Nat) (kind : AccessKind) : Bool :=
  s.cfg.style = .r4000
    && (match kind with
      | .load => s.cp0.watchLo.getLsbD 1
      | .store => s.cp0.watchLo.getLsbD 0
      | .fetch => false)
    && pa % 2 ^ s.cfg.paBits / 8 == s.watchAddress % 2 ^ s.cfg.paBits / 8
    && !(s.cfg.watchMaskedByExl && (srExl s.cp0.sr || srErl s.cp0.sr))

/-- `DataAccess(va, n, kind)` (R126): the physical address of a load or store of `n` bytes. -/
def State.dataAccess (s : State) (m : Mode) (kind : AccessKind) (n : Nat) (va : Word) : Except Stop Nat :=
  if va.toNat % n ≠ 0 then .error (.raise (addressError kind va) .none)
  else if s.cfg.style = .r3000 ∧ (srIsc s.cp0.sr ∨ srSwc s.cp0.sr) then .error (.refuse .cacheIsolated)
  else
    match s.translate m kind va with
    | .error x => .error x
    | .ok (pa, _) =>
      if s.watchMatch pa kind then .error (.raise .watch .none)
      else if kind = .load ∧ s.dbe then .error (.raise .dbe .loadBusError)
      else .ok pa

/-- Whether a physical address is in the plain-memory set (R112). -/
def isPlain (c : Config) (pa : Nat) : Bool :=
  c.plain.any (fun r => decide (r.base ≤ pa) && decide (pa < r.base + r.size))

/-- Why the bytes `pa` to `pa + 3` cannot be read or written: one is beyond the physical address space (log 32), or one is
outside the plain-memory set (R112). -/
def wordProblem (c : Config) (pa : Nat) : Option Stop :=
  if 2 ^ c.paBits < pa + 4 then some (.fault (.noSuchPhysicalAddress pa))
  else if isPlain c pa && isPlain c (pa + 1) && isPlain c (pa + 2) && isPlain c (pa + 3) then none
  else some (.refuse (.notPlainMemory pa))

/-- What a fetch gives. -/
inductive Fetched where
  | word (w : Word32)
  | stop (x : Stop)
deriving DecidableEq, Repr

/-- `Fetch()` (R127), with the plain-memory rule (R112) and the rule on stored bytes (R124); the word is assembled in the order
`BIGENDIAN`, whatever SR.RE holds (R108, log 16). -/
def State.fetchIn (s : State) (m : Mode) : Fetched :=
  if s.pc.toNat % 4 ≠ 0 then .stop (.raise (.adel s.pc) .none)
  else
    match s.translate m .fetch s.pc with
    | .error x => .stop x
    | .ok (pa, _) =>
      if s.ibe then .stop (.raise .ibe .fetchBusError)
      else
        match wordProblem s.cfg pa with
        | some x => .stop x
        | none =>
          if s.written.any (fun a => decide (pa ≤ a) && decide (a < pa + 4)) then .stop (.refuse (.fetchOfStoredByte pa))
          else .word (s.readWord s.cfg.bigEndian pa)

/-- The fetch in the current mode; KSU = 3 is refused (10_state.md R66). -/
def State.fetchNow (s : State) : Fetched :=
  match s.mode with
  | some m => s.fetchIn m
  | none => .stop (.refuse .reservedMode)

/-- Whether the fetch gives in view `v` what it gives in `s`, the entry of an exception it raises with it (R294). -/
def sameFetch (s v : State) : Bool :=
  v.fetchNow = s.fetchNow &&
    match s.fetchNow with
    | .word _ => true
    | .stop x => x.alike s v

/-- The fetch under the hazard rule: inside a window it must be the same under the old and the new values (R294). -/
def State.fetch (s : State) : Fetched :=
  if s.oldViews.all (sameFetch s) then s.fetchNow else .stop (.refuse .cp0Hazard)

end Sys2Proof.Machine
end

