-- ==== Sys2Proof/Machine/Cp0Move.lean ====
section
/-! DEFINITION. Moves to and from CP0 registers: MFC0, MTC0, DMFC0, DMTC0 (40_cp0_move.md). -/

namespace Sys2Proof.Machine

/-- All 64 bits. -/
def allBits : Word := BitVec.allOnes 64

/-- A write of EPC or ErrorEPC (R170, R4000 style): all of it when the transfer is as wide as the register; a 32-bit write of
a 64-bit register leaves the high half free (D33). -/
def wideWrite (s : State) (r : Cp0Reg) (v : Word) (double : Bool) : Cp0Write :=
  let value : Word :=
    match s.cfg.xlen with
    | .x32 => zext64 (lo32 v)
    | .x64 => if double then v else Config.draw s.draws .highHalf 32 ++ lo32 v
  { reg := r, mask := allBits, value := value, window := true }

/-- A write of Config (10_state.md R92, D32): accepted when the value differs from the register in no field but the writable
ones and the reserved bit 12, whose written value is discarded (R31, log 22). -/
def configWrite (s : State) (v : Word32) : Except Refusal Cp0Write :=
  let differs := s.cp0.config ^^^ v
  if s.cfg.beWritable ∧ differs.getLsbD 15 then .error .configByteOrderChange
  else if differs &&& ~~~(configWritable s.cfg ||| 0x00001000) ≠ 0 then .error .configFieldNotWritable
  else .ok { reg := .config, mask := zext64 (configWritable s.cfg), value := zext64 v, window := true }

/-- `CP0Write(n, v, w)` for a register that is there (R170). A write of a 32-bit register stores `v[31:0]`; a write of PRId or
BadVaddr changes nothing (D24). -/
def cp0Write (s : State) (r : Cp0Reg) (v : Word) (double : Bool) : Except Refusal Cp0Write :=
  let low := zext64 (lo32 v)
  match r with
  | .badVaddr => .ok { reg := .badVaddr, mask := 0, value := 0 }
  | .prid => .ok { reg := .prid, mask := 0, value := 0 }
  | .count =>
    .ok { reg := .count, mask := allBits, value := low, window := true,
          timer := if lo32 v = s.cp0.compare then .mayRaise else .keep }
  | .compare => .ok { reg := .compare, mask := allBits, value := low, timer := .clear, window := true }
  | .sr => .ok { reg := .sr, mask := ~~~(zext64 (srKept s.cfg.style)), value := low &&& zext64 (srWritable s.cfg.style), window := true }
  | .cause => .ok { reg := .cause, mask := 0x300, value := low, window := true }
  | .epc =>
    match s.cfg.style with
    | .r3000 => .error .epcWriteOnR3000
    | .r4000 => .ok (wideWrite s .epc v double)
  | .errorEpc => .ok (wideWrite s .errorEpc v double)
  | .config => configWrite s (lo32 v)
  | .watchLo => .ok { reg := .watchLo, mask := allBits, value := zext64 (watchLoValue (lo32 v)), window := true }
  | .watchHi => .ok { reg := .watchHi, mask := allBits, value := zext64 (watchHiValue s.cfg (lo32 v)), window := true }

/-- A move from a CP0 register, once it is allowed (R171, R173); with `rt = 0` the value is discarded (10_state.md R21). -/
def moveFrom (rt rd : RegNum) (double : Bool) (s : State) : Effect :=
  match cp0Lookup s.cfg rd with
  | .error r => .refuse r
  | .ok r =>
    let v := s.cp0Read r
    .done
      { gpr := if rt = 0 then none else some (rt, if double && cp0IsDouble s.cfg r then v else s.cfg.sext (lo32 v))
        loaded := if double || rt == 0 then none else some rt }

/-- A move to a CP0 register, once it is allowed (R172, R174). -/
def moveTo (rt rd : RegNum) (double : Bool) (s : State) : Effect :=
  match cp0Lookup s.cfg rd with
  | .error r => .refuse r
  | .ok r =>
    match cp0Write s r (s.readGpr rt) double with
    | .error x => .refuse x
    | .ok w => .done { cp0 := some w }

/-- The checks of the doubleword moves (R173, R174): RI with `XLEN = 32`; then CpU and RI, either of them where both apply
(D34). -/
def doubleChecked (m : Mode) (s : State) (body : Effect) : Effect :=
  if s.cfg.xlen = .x32 then .raise .ri
  else
    match s.cp0Usable m, s.dw64Allowed m with
    | true, true => body
    | true, false => .raise .ri
    | false, true => .raise (.cpu 0)
    | false, false => if Config.draw s.draws .unusableOrReserved 1 = 1 then .raise .ri else .raise (.cpu 0)

/-- MFC0 (R171). -/
def effMfc0 (rt rd : RegNum) (m : Mode) (s : State) : Effect :=
  if s.cp0Usable m then moveFrom rt rd false s else .raise (.cpu 0)

/-- MTC0 (R172). -/
def effMtc0 (rt rd : RegNum) (m : Mode) (s : State) : Effect :=
  if s.cp0Usable m then moveTo rt rd false s else .raise (.cpu 0)

/-- DMFC0 (R173). -/
def effDmfc0 (rt rd : RegNum) (m : Mode) (s : State) : Effect := doubleChecked m s (moveFrom rt rd true s)

/-- DMTC0 (R174). -/
def effDmtc0 (rt rd : RegNum) (m : Mode) (s : State) : Effect := doubleChecked m s (moveTo rt rd true s)

/-- MFC0 (R171). -/
def execMfc0 (rt rd : RegNum) (s : State) : Host.Outcome State Fault Refusal :=
  commit (sources (.mfc0 rt rd)) (effMfc0 rt rd) s

/-- MTC0 (R172). -/
def execMtc0 (rt rd : RegNum) (s : State) : Host.Outcome State Fault Refusal :=
  commit (sources (.mtc0 rt rd)) (effMtc0 rt rd) s

/-- DMFC0 (R173). -/
def execDmfc0 (rt rd : RegNum) (s : State) : Host.Outcome State Fault Refusal :=
  commit (sources (.dmfc0 rt rd)) (effDmfc0 rt rd) s

/-- DMTC0 (R174). -/
def execDmtc0 (rt rd : RegNum) (s : State) : Host.Outcome State Fault Refusal :=
  commit (sources (.dmtc0 rt rd)) (effDmtc0 rt rd) s

end Sys2Proof.Machine
end

