-- ==== Sys2Proof/Machine/Deferred.lean ====
section
/-! DEFINITION. Instructions the sources name and do not specify: CACHE, TLBP, TLBR, TLBWI, TLBWR, PREF, LL, SC
(44_support_and_deferred.md part 2), and the words of coprocessors 1 to 3 (30_encoding.md R148). -/

namespace Sys2Proof.Machine

/-- CACHE (R208). -/
def effCache (_base : RegNum) (_op : BitVec 5) (_offset : BitVec 16) (m : Mode) (s : State) : Effect :=
  match s.cfg.style with
  | .r3000 => .refuse .cacheOnR3000
  | .r4000 => if s.cp0Usable m then .refuse .cacheNotSpecified else .raise (.cpu 0)

/-- What the four TLB instructions share: the usable check, then the refusal (R209 to R212). -/
def tlbInstruction (m : Mode) (s : State) : Effect :=
  if s.cp0Usable m then .refuse .tlbNotSpecified else .raise (.cpu 0)

/-- TLBP (R209). -/
def effTlbp (m : Mode) (s : State) : Effect := tlbInstruction m s

/-- TLBR (R210). -/
def effTlbr (m : Mode) (s : State) : Effect := tlbInstruction m s

/-- TLBWI (R211). -/
def effTlbwi (m : Mode) (s : State) : Effect := tlbInstruction m s

/-- TLBWR (R212). -/
def effTlbwr (m : Mode) (s : State) : Effect := tlbInstruction m s

/-- PREF (R213). -/
def effPref (_base : RegNum) (_hint : BitVec 5) (_offset : BitVec 16) (_ : Mode) (_ : State) : Effect :=
  .refuse .prefNotSpecified

/-- LL (R214). -/
def effLl (_base _rt : RegNum) (_offset : BitVec 16) (_ : Mode) (_ : State) : Effect := .refuse .llNotSpecified

/-- SC (R215). -/
def effSc (_base _rt : RegNum) (_offset : BitVec 16) (_ : Mode) (_ : State) : Effect := .refuse .scNotSpecified

/-- A word of coprocessor `z`, 1 to 3: CpU when CUz = 0, refused when CUz = 1 (R148, R231, 10_state.md R49, R50). -/
def effCoprocessor (z : BitVec 2) (_ : Mode) (s : State) : Effect :=
  if srCu s.cp0.sr z = false then .raise (.cpu z)
  else if (z = 1 ∧ s.cfg.hasFpu) ∨ (z = 2 ∧ s.cfg.hasCp2) ∨ (z = 3 ∧ s.cfg.hasCp3) then .refuse (.coprocessorNotSpecified z)
  else .refuse (.coprocessorAbsent z)

/-- CACHE (R208). -/
def execCache (base : RegNum) (op : BitVec 5) (offset : BitVec 16) (s : State) : Host.Outcome State Fault Refusal :=
  commit (sources (.cache base op offset)) (effCache base op offset) s

/-- TLBP (R209). -/
def execTlbp (s : State) : Host.Outcome State Fault Refusal := commit (sources .tlbp) effTlbp s

/-- TLBR (R210). -/
def execTlbr (s : State) : Host.Outcome State Fault Refusal := commit (sources .tlbr) effTlbr s

/-- TLBWI (R211). -/
def execTlbwi (s : State) : Host.Outcome State Fault Refusal := commit (sources .tlbwi) effTlbwi s

/-- TLBWR (R212). -/
def execTlbwr (s : State) : Host.Outcome State Fault Refusal := commit (sources .tlbwr) effTlbwr s

/-- PREF (R213). -/
def execPref (base : RegNum) (hint : BitVec 5) (offset : BitVec 16) (s : State) : Host.Outcome State Fault Refusal :=
  commit (sources (.pref base hint offset)) (effPref base hint offset) s

/-- LL (R214). -/
def execLl (base rt : RegNum) (offset : BitVec 16) (s : State) : Host.Outcome State Fault Refusal :=
  commit (sources (.ll base rt offset)) (effLl base rt offset) s

/-- SC (R215). -/
def execSc (base rt : RegNum) (offset : BitVec 16) (s : State) : Host.Outcome State Fault Refusal :=
  commit (sources (.sc base rt offset)) (effSc base rt offset) s

/-- A word of coprocessor `z` (R148).

DESIGN CHOICE (log 36): the spec gives these words no operands, so they are given no source registers, and one that follows the
load of a register it might name gets CpU or its own refusal, not the one of the load delay (R296). -/
def execCoprocessor (z : BitVec 2) (s : State) : Host.Outcome State Fault Refusal := commit [] (effCoprocessor z) s

end Sys2Proof.Machine
end

