-- ==== Sys2Proof/Machine/ExceptionReturn.lean ====
section
/-! DEFINITION. Returning from an exception: RFE, ERET, JR (41_exception_return.md). The changes of SR and pc are `popKuIe` and
`exceptionReturn` of Ops.lean. -/

namespace Sys2Proof.Machine

/-- RFE (R180): RI on the R4000 style, or CpU there where CP0 is not usable either, whichever (D34). -/
def effRfe (m : Mode) (s : State) : Effect :=
  match s.cfg.style, s.cp0Usable m with
  | .r4000, true => .raise .ri
  | .r4000, false => if Config.draw s.draws .unusableOrReserved 1 = 1 then .raise .ri else .raise (.cpu 0)
  | .r3000, false => .raise (.cpu 0)
  | .r3000, true => .done (popKuIe s)

/-- ERET (R181): RI on the R3000 style; refused in a delay slot. -/
def effEret (m : Mode) (s : State) : Effect :=
  match s.cfg.style with
  | .r3000 => .raise .ri
  | .r4000 =>
    if s.cp0Usable m = false then .raise (.cpu 0)
    else if s.inDelay then .refuse .eretInDelaySlot
    else .done (exceptionReturn s)

/-- JR (R182): refused in a delay slot (10_state.md R25). -/
def effJr (rs : RegNum) (_ : Mode) (s : State) : Effect :=
  if s.inDelay then .refuse .branchInDelaySlot else .done { flow := .delayed (s.readGpr rs) }

/-- RFE (R180). -/
def execRfe (s : State) : Host.Outcome State Fault Refusal := commit (sources .rfe) effRfe s

/-- ERET (R181). -/
def execEret (s : State) : Host.Outcome State Fault Refusal := commit (sources .eret) effEret s

/-- JR (R182). -/
def execJr (rs : RegNum) (s : State) : Host.Outcome State Fault Refusal := commit (sources (.jr rs)) (effJr rs) s

end Sys2Proof.Machine
end

