-- ==== Sys2Proof/Machine/NopSync.lean ====
section
/-! DEFINITION. No-operations and the memory barrier: SLL, NOP, SSNOP, SYNC (43_nop_sync.md). -/

namespace Sys2Proof.Machine

/-- SLL (R195): the low word shifted left, sign-extended. -/
def effSll (rt rd sa : RegNum) (_ : Mode) (s : State) : Effect :=
  .done { gpr := some (rd, s.cfg.sext (lo32 (s.readGpr rt) <<< sa.toNat)) }

/-- NOP (R196): changes nothing but `pc`. -/
def effNop (_ : Mode) (_ : State) : Effect := .done {}

/-- SSNOP (R197): changes nothing but `pc`. -/
def effSsnop (_ : Mode) (_ : State) : Effect := .done {}

/-- SYNC (R198): RI on the R3000 style; every stype is the full barrier (D13), which one CPU in program order cannot see (20_memory.md
R121, R122). -/
def effSync (_stype : BitVec 5) (_ : Mode) (s : State) : Effect :=
  match s.cfg.style with
  | .r3000 => .raise .ri
  | .r4000 => .done {}

/-- SLL (R195). -/
def execSll (rt rd sa : RegNum) (s : State) : Host.Outcome State Fault Refusal :=
  commit (sources (.sll rt rd sa)) (effSll rt rd sa) s

/-- NOP (R196). -/
def execNop (s : State) : Host.Outcome State Fault Refusal := commit (sources .nop) effNop s

/-- SSNOP (R197). -/
def execSsnop (s : State) : Host.Outcome State Fault Refusal := commit (sources .ssnop) effSsnop s

/-- SYNC (R198). -/
def execSync (stype : BitVec 5) (s : State) : Host.Outcome State Fault Refusal :=
  commit (sources (.sync stype)) (effSync stype) s

end Sys2Proof.Machine
end

