-- ==== Sys2Proof/Machine/Support.lean ====
section
/-! DEFINITION. Support instructions: AND, OR, ADDU, LW, SW (44_support_and_deferred.md part 1). -/

namespace Sys2Proof.Machine

/-- AND (R201). -/
def effAnd (rs rt rd : RegNum) (_ : Mode) (s : State) : Effect :=
  .done { gpr := some (rd, s.readGpr rs &&& s.readGpr rt) }

/-- OR (R202). -/
def effOr (rs rt rd : RegNum) (_ : Mode) (s : State) : Effect :=
  .done { gpr := some (rd, s.readGpr rs ||| s.readGpr rt) }

/-- With `XLEN = 64`, whether a value is the sign extension of its low word (R203). -/
def isWordOperand (c : Config) (v : Word) : Bool :=
  match c.xlen with
  | .x32 => true
  | .x64 => v == (lo32 v).signExtend 64

/-- ADDU (R203): the 32-bit sum, sign-extended; never Ov. -/
def effAddu (rs rt rd : RegNum) (_ : Mode) (s : State) : Effect :=
  if isWordOperand s.cfg (s.readGpr rs) && isWordOperand s.cfg (s.readGpr rt) then
    .done { gpr := some (rd, s.cfg.sext (lo32 (s.readGpr rs) + lo32 (s.readGpr rt))) }
  else .refuse .adduOperandNotWord

/-- LW (R204); with `rt = 0` the access is made and the data discarded. -/
def effLw (base rt : RegNum) (offset : BitVec 16) (m : Mode) (s : State) : Effect :=
  match s.dataAccess m .load 4 (s.effectiveAddress base offset) with
  | .error x => .stop x
  | .ok pa =>
    match wordProblem s.cfg pa with
    | some x => .stop x
    | none =>
      .done
        { gpr := if rt = 0 then none else some (rt, s.cfg.sext (s.readWord (s.effectiveBig m) pa))
          loaded := if rt == 0 then none else some rt }

/-- SW (R205). -/
def effSw (base rt : RegNum) (offset : BitVec 16) (m : Mode) (s : State) : Effect :=
  match s.dataAccess m .store 4 (s.effectiveAddress base offset) with
  | .error x => .stop x
  | .ok pa =>
    match wordProblem s.cfg pa with
    | some x => .stop x
    | none => .done { store := some (pa, wordBytes (s.effectiveBig m) (lo32 (s.readGpr rt))) }

/-- AND (R201). -/
def execAnd (rs rt rd : RegNum) (s : State) : Host.Outcome State Fault Refusal :=
  commit (sources (.and rs rt rd)) (effAnd rs rt rd) s

/-- OR (R202). -/
def execOr (rs rt rd : RegNum) (s : State) : Host.Outcome State Fault Refusal :=
  commit (sources (.or rs rt rd)) (effOr rs rt rd) s

/-- ADDU (R203). -/
def execAddu (rs rt rd : RegNum) (s : State) : Host.Outcome State Fault Refusal :=
  commit (sources (.addu rs rt rd)) (effAddu rs rt rd) s

/-- LW (R204). -/
def execLw (base rt : RegNum) (offset : BitVec 16) (s : State) : Host.Outcome State Fault Refusal :=
  commit (sources (.lw base rt offset)) (effLw base rt offset) s

/-- SW (R205). -/
def execSw (base rt : RegNum) (offset : BitVec 16) (s : State) : Host.Outcome State Fault Refusal :=
  commit (sources (.sw base rt offset)) (effSw base rt offset) s

end Sys2Proof.Machine
end

