-- ==== Sys2Proof/Machine/Trap.lean ====
section
/-! DEFINITION. Instructions that always raise an exception: SYSCALL, BREAK (42_trap_instructions.md). -/

namespace Sys2Proof.Machine

/-- SYSCALL (R190): in every mode; the code is ignored. -/
def effSyscall (_code : BitVec 20) (_ : Mode) (_ : State) : Effect := .raise .syscall

/-- BREAK (R191): in every mode; the code is ignored. -/
def effBreak (_code : BitVec 20) (_ : Mode) (_ : State) : Effect := .raise .bp

/-- SYSCALL (R190). -/
def execSyscall (code : BitVec 20) (s : State) : Host.Outcome State Fault Refusal :=
  commit (sources (.syscall code)) (effSyscall code) s

/-- BREAK (R191). -/
def execBreak (code : BitVec 20) (s : State) : Host.Outcome State Fault Refusal :=
  commit (sources (.brk code)) (effBreak code) s

end Sys2Proof.Machine
end

