-- ==== Sys2Proof/Machine/Effect.lean ====
section
/-! DEFINITION. The effect of an instruction as data, and the interrupt decision that looks at it (60_exceptions.md R251). -/

namespace Sys2Proof.Machine

/-- The effect of an instruction in a mode, before it takes place. `exec i s` is `commit (sources i) (effect i) s`. -/
def effect : Instr → Mode → State → Effect
  | .mfc0 rt rd => effMfc0 rt rd
  | .dmfc0 rt rd => effDmfc0 rt rd
  | .mtc0 rt rd => effMtc0 rt rd
  | .dmtc0 rt rd => effDmtc0 rt rd
  | .tlbr => effTlbr
  | .tlbwi => effTlbwi
  | .tlbwr => effTlbwr
  | .tlbp => effTlbp
  | .rfe => effRfe
  | .eret => effEret
  | .sll rt rd sa => effSll rt rd sa
  | .nop => effNop
  | .ssnop => effSsnop
  | .jr rs => effJr rs
  | .syscall code => effSyscall code
  | .brk code => effBreak code
  | .sync stype => effSync stype
  | .addu rs rt rd => effAddu rs rt rd
  | .and rs rt rd => effAnd rs rt rd
  | .or rs rt rd => effOr rs rt rd
  | .lw base rt offset => effLw base rt offset
  | .sw base rt offset => effSw base rt offset
  | .cache base op offset => effCache base op offset
  | .ll base rt offset => effLl base rt offset
  | .pref base hint offset => effPref base hint offset
  | .sc base rt offset => effSc base rt offset

/-- Whether an effect is a synchronous exception. -/
def Effect.raises : Effect → Bool
  | .stop (.raise _ _) => true
  | .done _ | .stop (.refuse _) | .stop (.fault _) => false

/-- Whether the instruction at `pc` would itself raise a synchronous exception, at its fetch or after it (R251 (a)). -/
def State.instructionRaises (s : State) : Bool :=
  match s.fetch with
  | .stop x => (Effect.stop x).raises
  | .word w =>
    match decode w with
    | .instr i => (resolve (sources i) (effect i) s).raises
    | .coprocessor z => (resolve [] (effCoprocessor z) s).raises
    | .unknown => false

/-- The interrupt condition at a boundary: inside a hazard window it may be evaluated on the old or the new values (R251 (b),
R294). -/
def State.interruptCondition (s : State) : Bool :=
  if s.oldViews.all (fun v => v.intPending = s.intPending) then s.intPending
  else Config.draw s.draws .interruptView 1 = 1

/-- Whether the CPU step takes the interrupt (R251, D15): at the first boundary where the condition holds; against a
synchronous exception of the instruction at that boundary, either may be taken. -/
def State.takesInterrupt (s : State) : Bool :=
  s.interruptCondition && (!s.instructionRaises || Config.draw s.draws .interruptOrException 1 = 1)

end Sys2Proof.Machine
end

