-- ==== Sys2Proof/Machine/Dispatch.lean ====
section
/-! DEFINITION. The dispatch: one arm per constructor of Instr, each one call of its meaning. -/

namespace Sys2Proof.Machine

def exec (i : Instr) (s : State) : Host.Outcome State Fault Refusal :=
  match i with
  | .mfc0 rt rd => Sys2Proof.Machine.execMfc0 rt rd s
  | .dmfc0 rt rd => Sys2Proof.Machine.execDmfc0 rt rd s
  | .mtc0 rt rd => Sys2Proof.Machine.execMtc0 rt rd s
  | .dmtc0 rt rd => Sys2Proof.Machine.execDmtc0 rt rd s
  | .tlbr => Sys2Proof.Machine.execTlbr s
  | .tlbwi => Sys2Proof.Machine.execTlbwi s
  | .tlbwr => Sys2Proof.Machine.execTlbwr s
  | .tlbp => Sys2Proof.Machine.execTlbp s
  | .rfe => Sys2Proof.Machine.execRfe s
  | .eret => Sys2Proof.Machine.execEret s
  | .sll rt rd sa => Sys2Proof.Machine.execSll rt rd sa s
  | .nop => Sys2Proof.Machine.execNop s
  | .ssnop => Sys2Proof.Machine.execSsnop s
  | .jr rs => Sys2Proof.Machine.execJr rs s
  | .syscall code => Sys2Proof.Machine.execSyscall code s
  | .brk code => Sys2Proof.Machine.execBreak code s
  | .sync stype => Sys2Proof.Machine.execSync stype s
  | .addu rs rt rd => Sys2Proof.Machine.execAddu rs rt rd s
  | .and rs rt rd => Sys2Proof.Machine.execAnd rs rt rd s
  | .or rs rt rd => Sys2Proof.Machine.execOr rs rt rd s
  | .lw base rt offset => Sys2Proof.Machine.execLw base rt offset s
  | .sw base rt offset => Sys2Proof.Machine.execSw base rt offset s
  | .cache base op offset => Sys2Proof.Machine.execCache base op offset s
  | .ll base rt offset => Sys2Proof.Machine.execLl base rt offset s
  | .pref base hint offset => Sys2Proof.Machine.execPref base hint offset s
  | .sc base rt offset => Sys2Proof.Machine.execSc base rt offset s

end Sys2Proof.Machine
end

