-- ==== Sys2Proof/Machine/Environment.lean ====
section
/-! DEFINITION. The moves of the other agents: the timer's tick (60_exceptions.md R265), the environment's inputs (R250,
20_memory.md R116, R119), and the resets (70_reset_and_hazards.md R280 to R283). -/

namespace Sys2Proof.Machine

/-- The timer request a tick makes: Count, once incremented, equals Compare (R265). -/
def State.tickHits (s : State) : Bool := s.cp0.count + 1 == s.cp0.compare

/-- The views of the open windows of Count, every other register as it is: among R294's consumers the timer's comparison stands
for Count alone. -/
def State.countViews (s : State) : List State := views (s.hazards.filter (fun h => h.reg = .count)) s

/-- Whether a tick raises the timer request (R265); the comparison is with Compare as it is, and inside a window of Count it may
use the old or the new Count (R294). -/
def State.tickRaises (s : State) : Bool :=
  if s.countViews.all (fun v => v.tickHits = s.tickHits) then s.tickHits
  else Config.draw s.draws .timerView 1 = 1

/-- A tick in the old view of a window: an old Count counts on; an old Compare may be hit, which the old view shows in IP[7] while
the window lasts (R294, log 14). -/
def tickHazard (s : State) (h : Hazard) : Hazard :=
  match h.reg with
  | .count => { h with old := zext64 (lo32 h.old + 1) }
  | .compare => { h with oldTimer := h.oldTimer || (s.cp0.count + 1 == lo32 h.old) }
  | .badVaddr | .sr | .cause | .epc | .prid | .config | .watchLo | .watchHi | .errorEpc => h

/-- `TimerTick` (R265). -/
def timerTick (s : State) : State :=
  { s with
    cp0 := { s.cp0 with count := s.cp0.count + 1, timerPending := s.cp0.timerPending || s.tickRaises }
    hazards := s.hazards.map (tickHazard s)
    draws := s.draws + 1 }

/-- The environment sets the interrupt inputs; input 5 stays 0 when the timer is wired to IP7 (R250, D16, A-INT5). -/
def setInputs (levels : BitVec 6) (s : State) : State :=
  { s with extInt := if s.cfg.style = .r4000 ∧ s.cfg.timerIrqWired then levels &&& 0x1F else levels }

/-- General registers after hard reset: unspecified (R97), register 0 apart. -/
def hardResetGprs (s : State) : Vector Word 32 :=
  Vector.ofFn (fun r => if r = 0 then s.gprs[0] else s.cfg.norm (Config.draw s.draws (.hardResetGpr r.val) 64))

/-- Memory after hard reset: the bytes the launch placed and the run has not stored to keep their values; every other byte is
free, because no reset initialises memory (R284, 10_state.md R97). -/
def hardResetMemory (s : State) : Memory := s.mem.filter (fun c => !s.written.contains c.1)

/-- `HardReset` (R280): every piece of state takes its value of 10_state.md R97, the unspecified ones free values; the interrupt
inputs, the oracle (R284: no reset initialises the TLB) and the bus are the environment's.

DESIGN CHOICE (log 26): the reset ends a load delay, of which R296 says only that an exception entry removes it. -/
def hardReset (s : State) : State :=
  { s with
    gprs := hardResetGprs s
    pc := s.cfg.sext s.cfg.vectors.reset
    npc := s.cfg.norm (s.cfg.sext s.cfg.vectors.reset + 4)
    inDelay := false
    cp0 :=
      { sr := srAfterHardReset s.cfg (Config.draw s.draws .hardResetSr 32)
        cause := causeAfterHardReset (Config.draw s.draws .hardResetCause 32)
        epc := s.cfg.norm (Config.draw s.draws .hardResetEpc 64)
        badVaddr := s.cfg.norm (Config.draw s.draws .hardResetBadVaddr 64)
        errorEpc := s.cfg.norm (Config.draw s.draws .hardResetErrorEpc 64)
        count := Config.draw s.draws .hardResetCount 32
        compare := Config.draw s.draws .hardResetCompare 32
        timerPending := Config.draw s.draws .hardResetTimer 1 = 1
        config := configAfterHardReset s.cfg (Config.draw s.draws .hardResetConfig 32)
        watchLo := watchLoValue (Config.draw s.draws .hardResetWatchLo 32)
        watchHi := watchHiValue s.cfg (Config.draw s.draws .hardResetWatchHi 32)
        llAddr := Config.draw s.draws .hardResetLlAddr 64
        llBit := Config.draw s.draws .hardResetLlBit 1 = 1 }
    mem := hardResetMemory s
    memEpoch := s.memEpoch + 1
    hazards := []
    loadReg := none
    draws := s.draws + 1 }

/-- SR after soft reset: SR, BEV and ERL set, TS kept or cleared, the rest kept (R281). -/
def srAfterSoftReset (s : State) : Word32 :=
  let sr := if Config.draw s.draws .softResetTs 1 = 1 then s.cp0.sr else s.cp0.sr &&& 0xFFDFFFFF
  (if srTs s.cp0.sr then sr else s.cp0.sr) ||| 0x00500004

/-- `SoftReset` (R281), which is also the NMI step (R282): ErrorEPC gets the restart address; every other register, every
general register and memory keep their values. -/
def softReset (s : State) : State :=
  { s with
    cp0 := { s.cp0 with errorEpc := s.restartPc, sr := srAfterSoftReset s }
    pc := s.cfg.sext s.cfg.vectors.reset
    npc := s.cfg.norm (s.cfg.sext s.cfg.vectors.reset + 4)
    inDelay := false
    hazards := []
    loadReg := none
    draws := s.draws + 1 }

/-- A move of an agent other than the CPU. The timer is there only in the R4000 style (R265), soft reset and NMI too (R283). -/
def otherMove (mv : Move) (s : State) : Host.Outcome State Fault Refusal :=
  match mv with
  | .cpu => .next s
  | .tick =>
    match s.cfg.style with
    | .r3000 => .refused .noTimer
    | .r4000 => .next (timerTick s)
  | .setExtInt levels => .next (setInputs levels s)
  | .setBusError onFetch onLoad => .next { s with ibe := onFetch, dbe := onLoad }
  | .setTlb rules => .next { s with tlb := rules }
  | .hardReset => .next (hardReset s)
  | .softReset | .nmi =>
    match s.cfg.style with
    | .r3000 => .refused .noSoftReset
    | .r4000 => .next (softReset s)

end Sys2Proof.Machine
end

