-- ==== Sys2Proof/Machine/Cpu.lean ====
section
/-! DEFINITION. The CPU's step and the turns of the agents (00_scope.md R10, 20_memory.md R127, 60_exceptions.md R251). -/

namespace Sys2Proof.Machine

/-- What the CPU does with a fetched word: the instruction of its row, the usable check of a coprocessor word (R148), or the
refusal of a word the spec does not list (30_encoding.md R149). -/
def runWord (w : Word32) (s : State) : Host.Outcome State Fault Refusal :=
  match decode w with
  | .instr i => exec i s
  | .coprocessor z => execCoprocessor z s
  | .unknown => .refused (.outsideSpec w)

/-- One step of the CPU: an interrupt is entered, or the instruction at `pc` is fetched and run (R127, R251). -/
def cpuStep (s : State) : Host.Outcome State Fault Refusal :=
  if s.takesInterrupt then .next (enter .int .none s)
  else
    match s.fetch with
    | .stop x => finish (.stop x) s
    | .word w => runWord w s

/-- One step of the agent whose turn it is (R10): the schedule names it, and the CPU moves when the schedule is empty (log 7). -/
def agentStep (s : State) : Host.Outcome State Fault Refusal :=
  match s.schedule with
  | [] => cpuStep s
  | .cpu :: rest => cpuStep { s with schedule := rest }
  | mv :: rest => otherMove mv { s with schedule := rest }

/-- The physical address of the next fetch. -/
def State.fetchAddress (s : State) : Option Nat :=
  match s.mode with
  | none => none
  | some m =>
    match s.translate m .fetch s.pc with
    | .ok (pa, _) => some pa
    | .error _ => none

/-- Places a word, loaded from outside, where the next fetch reads it: its four bytes count as initial memory (not stored by
the run, R124), no bus error answers the fetch, and the CPU moves next. -/
def placeWord (s : State) (w : Word32) : State :=
  match s.fetchAddress with
  | none => s
  | some pa =>
    { s with
      mem := Memory.putAll s.mem pa (wordBytes s.cfg.bigEndian w)
      written := s.written.filter (fun a => !(decide (pa ≤ a) && decide (a < pa + 4)))
      ibe := false
      schedule := match s.schedule with
        | [] => []
        | .cpu :: rest => .cpu :: rest
        | rest => .cpu :: rest }

end Sys2Proof.Machine
end

