-- ==== Sys2Proof/Machine/Step.lean ====
section
/-! DEFINITION. The step of the machine, and the placing of an instruction where the next step fetches. -/

namespace Sys2Proof.Machine

/-- One step of the machine: one step of the agent whose turn it is (00_scope.md R10). -/
def step (s : State) : Host.Outcome State Fault Refusal := agentStep s

/-- The instruction of bits `w` (every bit from `nbits` on is 0) where the next step fetches (log 37). -/
def State.withFetchWord (s : State) (nbits w : Nat) : State := placeWord s (BitVec.ofNat 32 (w % 2 ^ nbits))

end Sys2Proof.Machine
end

