-- ==== Sys2Proof/Machine/ConfigRegister.lean ====
section
/-! DEFINITION. The fields of the Config register and what the spec says their values mean (10_state.md R85 to R91), and the
processor identities of R41. They describe the hardware to software; no step reads them (R88, R90, R301). -/

namespace Sys2Proof.Machine

/-- CM, bit 31: master/checker mode (R86). -/
def configCm (v : Word32) : Bool := v.getLsbD 31
/-- EC, bits 30:28: clock ratio (R86). -/
def configEc (v : Word32) : BitVec 3 := v.extractLsb' 28 3
/-- EP, bits 27:24: write-back data pattern (R87). -/
def configEp (v : Word32) : BitVec 4 := v.extractLsb' 24 4
/-- SB, bits 23:22: secondary cache line size (R88). -/
def configSb (v : Word32) : BitVec 2 := v.extractLsb' 22 2
/-- SS, bit 21: split secondary cache (R88). -/
def configSs (v : Word32) : Bool := v.getLsbD 21
/-- SW, bit 20: 128-bit secondary cache port (R88). -/
def configSw (v : Word32) : Bool := v.getLsbD 20
/-- EW, bits 19:18: system interface width (R88). -/
def configEw (v : Word32) : BitVec 2 := v.extractLsb' 18 2
/-- SC, bit 17: secondary cache; its polarity is in doubt (R88, 90_conflicts.md C8). -/
def configSc (v : Word32) : Bool := v.getLsbD 17
/-- SM, bit 16 (R89). -/
def configSm (v : Word32) : Bool := v.getLsbD 16
/-- BE, bit 15: 1 big-endian (R89). -/
def configBe (v : Word32) : Bool := v.getLsbD 15
/-- EM, bit 14: 1 ECC, 0 per-byte parity (R89). -/
def configEm (v : Word32) : Bool := v.getLsbD 14
/-- EB, bit 13: must be 0 (R89). -/
def configEb (v : Word32) : Bool := v.getLsbD 13
/-- IC, bits 11:9 (R90). -/
def configIc (v : Word32) : BitVec 3 := v.extractLsb' 9 3
/-- DC, bits 8:6 (R90). -/
def configDc (v : Word32) : BitVec 3 := v.extractLsb' 6 3
/-- IB, bit 5 (R90). -/
def configIb (v : Word32) : Bool := v.getLsbD 5
/-- DB, bit 4 (R90). -/
def configDb (v : Word32) : Bool := v.getLsbD 4
/-- CU, bit 3 (R91). -/
def configCu (v : Word32) : Bool := v.getLsbD 3
/-- K0, bits 2:0: cache behaviour of kseg0, 3 cached, 2 uncached (R91). -/
def configK0 (v : Word32) : BitVec 3 := v.extractLsb' 0 3

/-- On the R4000 a field EC = n means a clock ratio of n + 2 (R86). -/
def clockRatio (ec : BitVec 3) : Nat := ec.toNat + 2

/-- The data pattern of a write-back: how many data clocks and then how many idle clocks, repeated (R87). -/
def epPattern : BitVec 4 → Nat × Nat
  | 0 => (1, 0) | 1 => (2, 1) | 2 => (2, 2) | 3 => (1, 1)
  | 4 => (2, 3) | 5 => (2, 4) | 6 => (1, 2) | 7 => (2, 5)
  | 8 => (1, 3) | 9 => (2, 6) | 10 => (1, 4) | 11 => (2, 7)
  | 12 => (1, 5) | 13 => (2, 8) | 14 => (1, 6) | _ => (2, 9)

/-- Secondary cache line size in 32-bit words, R4000 encoding (R88). -/
def secondaryLineWords (sb : BitVec 2) : Nat := 4 * 2 ^ sb.toNat

/-- System interface width in bits: 0 is 64, 1 is 32; the other values are not given (R88). -/
def interfaceBits (ew : BitVec 2) : Option Nat :=
  if ew = 0 then some 64 else if ew = 1 then some 32 else none

/-- Primary cache size in bytes, `2^(12+n)` (R90). -/
def primaryCacheBytes (n : BitVec 3) : Nat := 2 ^ (12 + n.toNat)

/-- Primary cache line size in 32-bit words (R90). -/
def primaryLineWords (b : Bool) : Nat := if b then 8 else 4

/-- The PRId Imp values of R41. -/
def knownImp : List (String × BitVec 8) :=
  [("R2000", 1), ("R3000", 2), ("R6000", 3), ("R4000", 4), ("LSI", 5), ("R6000A", 6), ("R3041", 7), ("R10000", 9),
   ("Vr4200", 10), ("Vr4300", 11), ("R8000", 16), ("R4600", 32), ("R4700", 33), ("R3900", 34), ("R5000", 35), ("RM5230", 40)]

end Sys2Proof.Machine
end

