-- ==== Sys2Proof/Safety.lean ====
section
/-! DEFINITION. The terms in which statements speak of the machine: the well-formed states, when an instruction may execute, what
it leaves unchanged, what an exception entry does. They are written from the rules, not from the meanings. -/

namespace Sys2Proof.Machine

/-! ### The invariant -/

/-- What a configuration must satisfy: `CP0_STYLE = R3000` implies `XLEN = 32` (00_scope.md R6), and the launch image is in
canonical form (log 5). -/
structure WfConfig (c : Config) : Prop where
  r3000Is32 : c.style = .r3000 → c.xlen = .x32
  image : Memory.wf c.image = true

/-- The well-formed states. -/
structure Wf (s : State) : Prop where
  cfg : WfConfig s.cfg
  /-- Slot 0 of the register file is 0 (10_state.md R21). -/
  gprZero : s.gprs[0] = 0
  /-- Every XLEN-bit register has no bit above XLEN (R20, R24, R32). -/
  gprs : ∀ (r : Nat) (h : r < 32), s.cfg.norm s.gprs[r] = s.gprs[r]
  pc : s.cfg.norm s.pc = s.pc
  npc : s.cfg.norm s.npc = s.npc
  epc : s.cfg.norm s.cp0.epc = s.cp0.epc
  badVaddr : s.cfg.norm s.cp0.badVaddr = s.cp0.badVaddr
  errorEpc : s.cfg.norm s.cp0.errorEpc = s.cp0.errorEpc
  /-- Outside a delay slot the next instruction is the one at `pc + 4` (R25). -/
  sequential : s.inDelay = false → s.npc = s.cfg.norm (s.pc + 4)
  /-- The "0" fields of SR read 0 (R31, R47, R48). -/
  srZeroFields : s.cp0.sr &&& ~~~(srWritable s.cfg.style ||| srKept s.cfg.style) = 0
  /-- With `IMPLEMENTS_TS = false` the bit TS reads 0 (R55). -/
  ts : s.cfg.implementsTs = false → srTs s.cp0.sr = false
  /-- The stored Cause has only BD, CE, IP[1:0] and ExcCode (R75, R78). -/
  causeFields : s.cp0.cause &&& ~~~0xB000037C = 0
  /-- Config.BE is the byte order (R89), EB and the reserved bit 12 read 0 (R85, R89). -/
  configByteOrder : configBe s.cp0.config = s.cfg.bigEndian
  configZeroFields : s.cp0.config &&& 0x00003000 = 0
  /-- The hardware-set fields of Config hold `CONFIG_RESET` (R92, R97). -/
  configHardware : (s.cp0.config ^^^ s.cfg.configReset) &&& ~~~(configWritable s.cfg ||| 0x0000B000) = 0
  /-- Bit 2 of WatchLo reads 0 (R94). -/
  watchLo : s.cp0.watchLo &&& 4 = 0
  /-- WatchHi has PAddr1 only, and reads 0 with `PABITS <= 32` (R95). -/
  watchHi : watchHiValue s.cfg s.cp0.watchHi = s.cp0.watchHi
  /-- Memory is in canonical form (log 5). -/
  mem : Memory.wf s.mem = true
  written : addressesWf s.written = true
  /-- Input 5 is not asserted when the timer is wired to IP7 (60_exceptions.md R250, log 39). -/
  input5 : s.cfg.style = .r4000 → s.cfg.timerIrqWired = true → s.extInt.getLsbD 5 = false
  /-- An open hazard window covers 1 to `CP0_HAZARD_DISTANCE` more instructions (70_reset_and_hazards.md R294). -/
  hazards : ∀ h ∈ s.hazards, 0 < h.left ∧ h.left ≤ s.cfg.hazardDistance
  /-- A loaded register is remembered with `LOAD_DELAY = 1` only, and it is never register 0 (R296). -/
  loadReg : ∀ r, s.loadReg = some r → s.cfg.loadDelay = true ∧ r ≠ 0

/-! ### When an instruction may execute -/

/-- The instruction may execute in mode `m`: the mode is legal (10_state.md R66), it does not read the register just loaded
(70_reset_and_hazards.md R296), and in every open hazard window its whole effect, with the entry of an exception it raises, is
the same whether it sees the old or the new values (R294). -/
structure Runs (i : Instr) (m : Mode) (s : State) : Prop where
  mode : s.mode = some m
  loads : s.readsLoaded (sources i) = false
  windows : ∀ v ∈ s.oldViews, sameIn (effect i) s v = true

/-- The next instruction in memory order is not past the top of the address space (10_state.md R24); in a delay slot the next
instruction is the jump's target. -/
def StaysInSpace (s : State) : Prop := s.inDelay = true ∨ 4 ≤ (s.cfg.norm (s.pc + 4)).toNat

/-! ### What stays as it was -/

/-- Every general register reads the same. -/
def SameGprs (s t : State) : Prop := ∀ r, t.readGpr r = s.readGpr r

/-- Every byte of memory reads the same, and nothing was stored. -/
def SameMemory (s t : State) : Prop := (∀ a, t.readByte a = s.readByte a) ∧ t.written = s.written

/-- The configuration, the inputs, the oracle, the bus errors held ready and the schedule are as before. -/
structure SameWorld (s t : State) : Prop where
  cfg : t.cfg = s.cfg
  extInt : t.extInt = s.extInt
  ibe : t.ibe = s.ibe
  dbe : t.dbe = s.dbe
  tlb : t.tlb = s.tlb
  schedule : t.schedule = s.schedule

/-- Control goes on to the next instruction (10_state.md R25). -/
structure Advances (s t : State) : Prop where
  pc : t.pc = s.npc
  npc : t.npc = s.cfg.norm (s.npc + 4)
  inDelay : t.inDelay = false

/-- The instruction writes general register `rd` and nothing else: `x[rd] <- v`, register 0 reading 0 (10_state.md R21). -/
structure WritesGpr (rd : RegNum) (v : Word) (s t : State) : Prop where
  result : t.readGpr rd = if rd = 0 then 0 else v
  others : ∀ r, r ≠ rd → t.readGpr r = s.readGpr r
  cp0 : t.cp0 = s.cp0
  memory : SameMemory s t
  world : SameWorld s t
  advances : Advances s t

/-- The instruction leaves the CP0 file `f` and changes nothing else but the program counter. -/
structure LeavesCp0 (f : Cp0File) (s t : State) : Prop where
  cp0 : t.cp0 = f
  gprs : SameGprs s t
  memory : SameMemory s t
  world : SameWorld s t

/-! ### Memory accesses -/

/-- `va` of a load or store (30_encoding.md R147). -/
def accessAddress (s : State) (base : RegNum) (offset : BitVec 16) : Word :=
  s.cfg.norm (s.readGpr base + offset.signExtend 64)

/-- The word access at `va` goes through to physical address `pa`: every check of `DataAccess` passes (20_memory.md R126), and
the four bytes are there and are plain memory (R112). -/
structure Accessible (m : Mode) (kind : AccessKind) (va : Word) (pa : Nat) (s : State) : Prop where
  aligned : va.toNat % 4 = 0
  notIsolated : s.cfg.style = .r3000 → srIsc s.cp0.sr = false ∧ srSwc s.cp0.sr = false
  translated : ∃ attr, s.translate m kind va = .ok (pa, attr)
  unwatched : s.watchMatch pa kind = false
  noBusError : kind = .load → s.dbe = false
  inSpace : pa + 4 ≤ 2 ^ s.cfg.paBits
  plain : ∀ i, i < 4 → isPlain s.cfg (pa + i) = true

/-! ### Exception entry -/

/-- `t` is `s` after the entry of an exception of code `code` (60_exceptions.md R238, R240, R241), but for the entry point and
what the exception records in BadVaddr and Cause.CE. -/
structure Enters (code : BitVec 5) (s t : State) : Prop where
  excCode : causeExcCode t.cp0.cause = code
  /-- IP[1:0] is not touched (R252). -/
  softwareIp : t.cp0.cause.extractLsb' 8 2 = s.cp0.cause.extractLsb' 8 2
  /-- R4000 style with EXL = 1: EPC and BD keep their values (R241). -/
  kept : s.cfg.style = .r4000 → srExl s.cp0.sr = true →
    t.cp0.epc = s.cp0.epc ∧ causeBd t.cp0.cause = causeBd s.cp0.cause
  /-- Otherwise EPC is the instruction, or its branch with BD = 1 (R238). -/
  saved : s.cfg.style = .r3000 ∨ srExl s.cp0.sr = false →
    t.cp0.epc = (if s.inDelay then s.cfg.norm (s.pc - 4) else s.pc) ∧ causeBd t.cp0.cause = s.inDelay
  /-- R3000 style: `SR[5:0] <- SR[3:0] || KU_KERNEL || 0` (R240). -/
  srR3000 : s.cfg.style = .r3000 →
    srKuIe t.cp0.sr = s.cp0.sr.extractLsb' 0 4 ++ s.cfg.kuKernel ++ 0#1 ∧ t.cp0.sr >>> 6 = s.cp0.sr >>> 6
  /-- R4000 style: `SR.EXL <- 1` (R241). -/
  srR4000 : s.cfg.style = .r4000 → t.cp0.sr = s.cp0.sr ||| 2
  /-- No other CP0 register changes. -/
  otherCp0 : t.cp0 =
    { s.cp0 with sr := t.cp0.sr, cause := t.cp0.cause, epc := t.cp0.epc, badVaddr := t.cp0.badVaddr }
  /-- No general register and no memory changes (10_state.md R23). -/
  gprs : SameGprs s t
  memory : SameMemory s t
  cfg : t.cfg = s.cfg
  inputs : t.extInt = s.extInt ∧ t.tlb = s.tlb ∧ t.schedule = s.schedule
  ibe : code ≠ 6 → t.ibe = s.ibe
  dbe : code ≠ 7 → t.dbe = s.dbe
  /-- No delay slot. -/
  npc : t.npc = s.cfg.norm (t.pc + 4)
  inDelay : t.inDelay = false
  /-- Entry ends every hazard window and the load delay (R294, R296). -/
  windows : t.hazards = []
  loads : t.loadReg = none

/-- The entry goes to the general entry point, in the column of SR.BEV (R245). -/
def ToGeneral (s t : State) : Prop :=
  t.pc = s.cfg.sext (if srBev s.cp0.sr then s.cfg.vectors.general.bev1 else s.cfg.vectors.general.bev0)

/-- An exception of code `code` that records nothing, through the general entry point. -/
def EntersGeneral (code : BitVec 5) (s t : State) : Prop := Enters code s t ∧ ToGeneral s t

/-- An address exception through the general entry point: BadVaddr holds `va` (10_state.md R82). -/
def EntersWithAddress (code : BitVec 5) (va : Word) (s t : State) : Prop :=
  Enters code s t ∧ ToGeneral s t ∧ t.cp0.badVaddr = s.cfg.norm va

/-- CpU of coprocessor `z`: Cause.CE holds `z` (60_exceptions.md R231). -/
def EntersCpU (z : BitVec 2) (s t : State) : Prop := EntersGeneral 11 s t ∧ causeCe t.cp0.cause = z

/-- The entry point of a refill-type miss at program address `a` in mode `m`, in both columns of SR.BEV (R245, R246); `x` is
VEC_XTLB_REFILL. -/
def refillEntry (m : Mode) (x : VectorPair) (a : Word32) (s : State) : VectorPair :=
  match s.cfg.style with
  | .r3000 => if a ≤ 0x7FFFFFFF then s.cfg.vectors.tlbRefill else s.cfg.vectors.general
  | .r4000 =>
    if srExl s.cp0.sr then s.cfg.vectors.general
    else if s.cfg.xlen = .x64 ∧
        (match m with
        | .kernel => srKx s.cp0.sr
        | .supervisor => srSx s.cp0.sr
        | .user => srUx s.cp0.sr) = true then x
    else s.cfg.vectors.tlbRefill

/-! ### Tables of the spec -/

/-- The rows of spec/opcode_table.json as (mask, match), the alias rows NOP and SSNOP apart. -/
def opcodeRows : List (Word32 × Word32) :=
  [(0xFFE007FF, 0x40000000), (0xFFE007FF, 0x40200000), (0xFFE007FF, 0x40800000), (0xFFE007FF, 0x40A00000),
   (0xFFFFFFFF, 0x42000001), (0xFFFFFFFF, 0x42000002), (0xFFFFFFFF, 0x42000006), (0xFFFFFFFF, 0x42000008),
   (0xFFFFFFFF, 0x42000010), (0xFFFFFFFF, 0x42000018), (0xFFE0003F, 0x00000000), (0xFC1FFFFF, 0x00000008),
   (0xFC00003F, 0x0000000C), (0xFC00003F, 0x0000000D), (0xFFFFF83F, 0x0000000F), (0xFC0007FF, 0x00000021),
   (0xFC0007FF, 0x00000024), (0xFC0007FF, 0x00000025), (0xFC000000, 0x8C000000), (0xFC000000, 0xAC000000),
   (0xFC000000, 0xBC000000), (0xFC000000, 0xC0000000), (0xFC000000, 0xCC000000), (0xFC000000, 0xE0000000)]

/-- The CP0 registers that only the R4000 style has. -/
def cp0ValuesR4000 (s : State) : List (RegNum × Word × Bool) :=
  match s.cfg.style with
  | .r3000 => []
  | .r4000 =>
    [(9, zext64 s.cp0.count, false), (11, zext64 s.cp0.compare, false), (16, zext64 s.cp0.config, false),
     (18, zext64 s.cp0.watchLo, false), (19, zext64 s.cp0.watchHi, false), (30, s.cp0.errorEpc, true)]

/-- The CP0 registers that can be read on this CPU and their values: number, value, and whether the register is XLEN bits wide
(10_state.md R30, 40_cp0_move.md R170). -/
def cp0Values (s : State) : List (RegNum × Word × Bool) :=
  ([(8, s.cp0.badVaddr, true), (12, zext64 s.cp0.sr, false), (13, zext64 s.liveCause, false), (14, s.cp0.epc, true),
   (15, zext64 (s.cfg.pridReserved ++ s.cfg.pridImp ++ s.cfg.pridRev), false)] : List (RegNum × Word × Bool)) ++ cp0ValuesR4000 s

/-- Why every access to a CP0 register number is refused, for the numbers that are (10_state.md R33, R34, R35, R93). -/
def cp0RefusedNumbers (c : Config) : List (RegNum × Refusal) :=
  let absent (n : RegNum) : RegNum × Refusal := (n, .registerNotSpecified n)
  let mmu (n : RegNum) : RegNum × Refusal := (n, .mmuRegister n)
  let cacheError (n : RegNum) : RegNum × Refusal := (n, .cacheErrorRegister n)
  let never : List RegNum := [7, 20, 21, 22, 23, 24, 25, 31]
  let tlb : List RegNum := [0, 1, 2, 4, 5, 10]
  let tlbR4000 : List RegNum := [3, 6]
  let cacheR4000 : List RegNum := [26, 27, 28, 29]
  let otherR4000 : List RegNum := [9, 11, 16, 17, 18, 19, 30]
  never.map absent ++ tlb.map (if c.hasTlb then mmu else absent) ++
    match c.style with
    | .r4000 => tlbR4000.map (if c.hasTlb then mmu else absent) ++ (17, .llAddrRegister) :: cacheR4000.map cacheError
    | .r3000 => tlbR4000.map absent ++ cacheR4000.map absent ++ otherR4000.map absent

/-- The exception entry points (60_exceptions.md R245). -/
def entryPoints (c : Config) : List Word32 :=
  let pair (v : VectorPair) : List Word32 := [v.bev0, v.bev1]
  pair c.vectors.general ++ pair c.vectors.tlbRefill ++ (c.vectors.xtlbRefill.map pair).getD []

/-! ### Words in memory, turns -/

/-- The byte at `pa + i` of a 4-byte value (20_memory.md R106). -/
def byteOf (big : Bool) (w : Word32) (i : Nat) : Byte :=
  if big then w.extractLsb' (8 * (3 - i)) 8 else w.extractLsb' (8 * i) 8

/-- `effective_big` (R107). -/
def bigAccess (m : Mode) (s : State) : Bool := xor s.cfg.bigEndian (srRe s.cp0.sr && decide (m = .user))

/-- The CPU moves next, and finds the machine as `t`: the schedule is empty, or it names the CPU (log 7). -/
def CpuTurn (s t : State) : Prop :=
  (s.schedule = [] ∧ t = s) ∨ ∃ rest, s.schedule = .cpu :: rest ∧ t = { s with schedule := rest }

/-- The CPU fetches: it does not take an interrupt, and in every open hazard window the fetch is the same (R294). -/
structure Fetches (m : Mode) (s : State) : Prop where
  mode : s.mode = some m
  noInterrupt : s.takesInterrupt = false
  windows : ∀ v ∈ s.oldViews, sameFetch s v = true

/-- A mapped program address: allowed in the mode, in no unmapped segment, not in the ERL window (R115). -/
structure Mapped (m : Mode) (va : Word) (s : State) : Prop where
  canonical : s.cfg.xlen = .x64 → va = (lo32 va).signExtend 64
  user : m = .user → inKuseg (lo32 va) = true
  supervisor : m = .supervisor → supervisorMay (lo32 va) = true
  noErlWindow : ¬ (s.cfg.style = .r4000 ∧ srErl s.cp0.sr = true ∧ inKuseg (lo32 va) = true)
  notKseg0 : ¬ (s.cfg.segments.kseg0 ≤ lo32 va ∧ lo32 va < s.cfg.segments.kseg1)
  notKseg1 : ¬ (s.cfg.segments.kseg1 ≤ lo32 va ∧ lo32 va < s.cfg.segments.kseg2)

/-- A load or store instruction of a word. -/
inductive WordAccess where
  | load (base rt : RegNum) (offset : BitVec 16)
  | store (base rt : RegNum) (offset : BitVec 16)
deriving DecidableEq, Repr

/-- The instruction of an access. -/
def WordAccess.instr : WordAccess → Instr
  | .load base rt offset => .lw base rt offset
  | .store base rt offset => .sw base rt offset

/-- What the access is for. -/
def WordAccess.kind : WordAccess → AccessKind
  | .load _ _ _ => .load
  | .store _ _ _ => .store

/-- The program address of the access. -/
def WordAccess.address : WordAccess → State → Word
  | .load base _ offset, s => accessAddress s base offset
  | .store base _ offset, s => accessAddress s base offset

/-- The access passes the checks before translation: aligned, caches not isolated (R126). -/
structure Starts (a : WordAccess) (s : State) : Prop where
  aligned : (a.address s).toNat % 4 = 0
  notIsolated : s.cfg.style = .r3000 → srIsc s.cp0.sr = false ∧ srSwc s.cp0.sr = false

end Sys2Proof.Machine
end

