-- ==== Sys2Proof/Certificates/Slice0/Obligations.lean ====
section
/-! DEFINITION. The statements for the provers, each from the numbered rules of spec/. -/

open Sys2Proof Sys2Proof.Machine

/-- For every well-formed instruction, with every operand at every value of its field, decode (encode i) is i. [R141, R143,
R144, R145, R146] -/
def Obligations.DecodeOfEncode : Prop :=
  ∀ i : Instr, i.wellFormed = true → decode (encode i) = .instr i

/-- If a word decodes to i then encode i is that word and i is well-formed: no bit is dropped, and a non-zero must-be-zero
field is no instruction. [R141, R149, R155] -/
def Obligations.EncodeOfDecode : Prop :=
  ∀ (w : Word32) (i : Instr), decode w = .instr i → encode i = w ∧ i.wellFormed = true

/-- A word decodes to some instruction if and only if word & mask = match for one of the 24 core rows of
spec/opcode_table.json (the alias rows NOP and SSNOP are words of SLL). [R149, R155] -/
def Obligations.DecodesExactlyTheRows : Prop :=
  ∀ w : Word32, (∃ i, decode w = .instr i) ↔ ∃ row ∈ opcodeRows, w &&& row.1 = row.2

/-- Ten words that the rules print as examples decode to the instructions and operands the rules give. [R171, R172, R173,
R174, R180, R181, R182, R195, R203, R204] -/
def Obligations.SpecWordsDecode : Prop :=
  decode 0x40086000 = .instr (.mfc0 8 12) ∧ decode 0x40886000 = .instr (.mtc0 8 12) ∧
  decode 0x40287000 = .instr (.dmfc0 8 14) ∧ decode 0x40A87000 = .instr (.dmtc0 8 14) ∧
  decode 0x42000010 = .instr .rfe ∧ decode 0x42000018 = .instr .eret ∧ decode 0x03400008 = .instr (.jr 26) ∧
  decode 0x00084900 = .instr (.sll 8 9 4) ∧ decode 0x035BD021 = .instr (.addu 26 27 26) ∧
  decode 0x8F490002 = .instr (.lw 26 9 2)

/-- At the CPU turn, when no interrupt is taken and the four bytes at the translated program counter are readable and decode
(in the order BIGENDIAN) to i, the step is exec of i on the state at that turn. In user mode with SR.RE = 1 the order
stays BIGENDIAN: the choice of log 16 where R108 lets a model refuse. [R127, R108, R112, R124, R251] -/
def Obligations.StepRunsInstruction : Prop :=
  ∀ (s t : State) (m : Mode) (i : Instr) (pa : Nat) (attr : CacheAttr),
    CpuTurn s t → Fetches m t → t.pc.toNat % 4 = 0 → t.translate m .fetch t.pc = .ok (pa, attr) → t.ibe = false →
    pa + 4 ≤ 2 ^ t.cfg.paBits → (∀ k, k < 4 → isPlain t.cfg (pa + k) = true) →
    (∀ a ∈ t.written, a < pa ∨ pa + 4 ≤ a) →
    decodeBytes t.cfg.bigEndian [t.readByte pa, t.readByte (pa + 1), t.readByte (pa + 2), t.readByte (pa + 3)] = .instr i →
    step s = exec i t

/-- At the CPU turn without an interrupt: a fetched word that matches no row of the table and belongs to no coprocessor is
refused as outside the spec; a fetch that covers a byte stored by this run, or a byte outside the plain-memory set, is
refused; so is one whose translation is refused, by the same name (a 64-bit segment, no TLB, or a double match that the
TLB prevents, which is the choice of log 8); one beyond PABITS faults (log 32). [R149, R124, R112, R114, R116, R127, R299] -/
def Obligations.FetchRefused : Prop :=
  ∀ (s t : State) (m : Mode), CpuTurn s t → Fetches m t →
    (∀ w, t.fetch = .word w → (∀ row ∈ opcodeRows, w &&& row.1 ≠ row.2) → (w >>> 28 = 4 → w.extractLsb' 26 2 = 0) →
      step s = .refused (.outsideSpec w)) ∧
    (∀ pa attr a, t.pc.toNat % 4 = 0 → t.translate m .fetch t.pc = .ok (pa, attr) → t.ibe = false →
      pa + 4 ≤ 2 ^ t.cfg.paBits → (∀ k, k < 4 → isPlain t.cfg (pa + k) = true) →
      a ∈ t.written → pa ≤ a → a < pa + 4 → step s = .refused (.fetchOfStoredByte pa)) ∧
    (∀ r, t.pc.toNat % 4 = 0 → t.translate m .fetch t.pc = .error (.refuse r) → step s = .refused r) ∧
    (∀ pa attr, t.pc.toNat % 4 = 0 → t.translate m .fetch t.pc = .ok (pa, attr) → t.ibe = false →
      (2 ^ t.cfg.paBits < pa + 4 → step s = .fault (.noSuchPhysicalAddress pa)) ∧
      (∀ k, pa + 4 ≤ 2 ^ t.cfg.paBits → k < 4 → isPlain t.cfg (pa + k) = false → step s = .refused (.notPlainMemory pa)))

/-- A fetched word with bits 31:28 = 0100 and coprocessor number z = bits 27:26 other than 0 enters CpU with Cause.CE = z when
SR.CUz = 0, and is refused, by a name that says whether coprocessor z exists, when SR.CUz = 1. That the load delay does
not refuse it is the choice of log 36. [R148, R231, R49, R50] -/
def Obligations.CoprocessorUsableCheck : Prop :=
  ∀ (s t : State) (m : Mode) (w : Word32) (z : BitVec 2),
    CpuTurn s t → t.mode = some m → t.takesInterrupt = false → t.fetch = .word w →
    w >>> 28 = 4 → z = w.extractLsb' 26 2 → z ≠ 0 →
    (∀ v ∈ t.oldViews, sameIn (effCoprocessor z) t v = true) →
    (srCu t.cp0.sr z = false → ∃ u, step s = .next u ∧ EntersCpU z t u) ∧
    (srCu t.cp0.sr z = true →
      step s = .refused
        (if (z = 1 ∧ t.cfg.hasFpu) ∨ (z = 2 ∧ t.cfg.hasCp2) ∨ (z = 3 ∧ t.cfg.hasCp3) then .coprocessorNotSpecified z
         else .coprocessorAbsent z))

/-- At the CPU turn without an interrupt: a pc that is no multiple of 4 enters AdEL with BadVaddr = pc; a pc outside what user
or supervisor mode may use does too; a mapped pc whose TLB entry is invalid enters TLBL with BadVaddr = pc; a bus error
the environment holds for the fetch enters IBE and is used up. That IBE comes before the refusals of R112 and of an
address beyond PABITS is the choice of log 33. (Refill-type misses and double matches of the fetch: TlbRefillEntry,
TlbShutdown.) [R101, R110, R116, R119, R127, R223, R225, R227, R238] -/
def Obligations.FetchFaults : Prop :=
  ∀ (s t : State) (m : Mode), CpuTurn s t → Fetches m t →
    (t.pc.toNat % 4 ≠ 0 → ∃ u, step s = .next u ∧ EntersWithAddress 4 t.pc t u) ∧
    (t.pc.toNat % 4 = 0 → (t.cfg.xlen = .x64 → t.pc = (lo32 t.pc).signExtend 64) →
      (m = .user ∧ 0x7FFFFFFF < lo32 t.pc) ∨
        (m = .supervisor ∧ 0x7FFFFFFF < lo32 t.pc ∧ (lo32 t.pc < 0xC0000000 ∨ 0xDFFFFFFF < lo32 t.pc)) →
      ∃ u, step s = .next u ∧ EntersWithAddress 4 t.pc t u) ∧
    (∀ pa attr, t.pc.toNat % 4 = 0 → t.translate m .fetch t.pc = .ok (pa, attr) → t.ibe = true →
      ∃ u, step s = .next u ∧ EntersGeneral 6 t u ∧ u.ibe = false) ∧
    (t.pc.toNat % 4 = 0 → Mapped m t.pc t → t.cfg.hasTlb = true → t.oracle .fetch (lo32 t.pc) = .miss false →
      ∃ u, step s = .next u ∧ EntersWithAddress 2 t.pc t u)

/-- For every state: Cause.IP[k+2] as read is interrupt input k for k = 0..4; IP[7] is the timer request on an R4000-style CPU
with the timer wired, else input 5; IP[1:0] are the stored bits; the other bits of Cause read as stored. [R250, R78] -/
def Obligations.InterruptLevels : Prop :=
  ∀ s : State,
    (∀ k, k < 5 → (causeIp s.liveCause).getLsbD (k + 2) = s.extInt.getLsbD k) ∧
    (causeIp s.liveCause).getLsbD 7 =
      (if s.cfg.style = .r4000 ∧ s.cfg.timerIrqWired = true then s.cp0.timerPending else s.extInt.getLsbD 5) ∧
    (∀ k, k < 2 → (causeIp s.liveCause).getLsbD k = s.cp0.cause.getLsbD (8 + k)) ∧
    s.liveCause &&& ~~~0x0000FF00 = s.cp0.cause &&& ~~~0x0000FF00

/-- At the CPU turn with no hazard window open, when the global enable of the style holds, some Cause.IP bit is enabled by its
SR.IM bit, and the instruction at pc raises no synchronous exception, the step is the entry with code 0 through the
general entry point, and the new mode is kernel. That it is the first such boundary is the choice of D15 (log 13); that it
is entered also with KSU = 3 and before a word that would be refused is the reading of log 44, where R66 and R261 say
refuse. Left out, because R251 admits either outcome: open hazard windows, and an instruction that itself raises an
exception. [R221, R240, R241, R251, R253] -/
def Obligations.InterruptTaken : Prop :=
  ∀ s t : State, CpuTurn s t → t.hazards = [] →
    (t.cfg.style = .r3000 → srIec t.cp0.sr = true) →
    (t.cfg.style = .r4000 → srIe t.cp0.sr = true ∧ srExl t.cp0.sr = false ∧ srErl t.cp0.sr = false) →
    causeIp t.liveCause &&& srIm t.cp0.sr ≠ 0 → t.instructionRaises = false →
    ∃ u, step s = .next u ∧ EntersGeneral 0 t u ∧ u.mode = some .kernel

/-- With no hazard window open the CPU takes no interrupt when every requesting bit of Cause.IP is masked by SR.IM, when IEc =
0 (R3000 style), or when IE = 0, EXL = 1 or ERL = 1 (R4000 style). [R251, R53, R57, R69] -/
def Obligations.InterruptBlocked : Prop :=
  ∀ s : State, s.hazards = [] →
    causeIp s.liveCause &&& srIm s.cp0.sr = 0 ∨
      (s.cfg.style = .r3000 ∧ srIec s.cp0.sr = false) ∨
      (s.cfg.style = .r4000 ∧ (srIe s.cp0.sr = false ∨ srExl s.cp0.sr = true ∨ srErl s.cp0.sr = true)) →
    s.takesInterrupt = false

/-- Wherever AND, OR or SLL may execute and pc + 4 stays in the address space, it answers a next state in which rd holds the
bitwise and, the bitwise or, or the sign-extended low word shifted left (register 0 keeps reading 0), and no other
register, CP0 register, byte of memory or input changes; pc moves to the next instruction. [R201, R202, R195] -/
def Obligations.RegisterResult : Prop :=
  ∀ (rs rt rd sa : RegNum) (m : Mode) (s : State), StaysInSpace s →
    (Runs (.and rs rt rd) m s →
      ∃ t, exec (.and rs rt rd) s = .next t ∧ WritesGpr rd (s.cfg.norm (s.readGpr rs &&& s.readGpr rt)) s t) ∧
    (Runs (.or rs rt rd) m s →
      ∃ t, exec (.or rs rt rd) s = .next t ∧ WritesGpr rd (s.cfg.norm (s.readGpr rs ||| s.readGpr rt)) s t) ∧
    (Runs (.sll rt rd sa) m s →
      ∃ t, exec (.sll rt rd sa) s = .next t ∧ WritesGpr rd (s.cfg.sext (lo32 (s.readGpr rt) <<< sa.toNat)) s t)

/-- ADDU writes the 32-bit sum of the low words, sign-extended, to rd and changes nothing else, never raising Ov; with XLEN =
64 an operand that is no sign-extended word is refused. [R203] -/
def Obligations.AdduResult : Prop :=
  ∀ (rs rt rd : RegNum) (m : Mode) (s : State), Runs (.addu rs rt rd) m s →
    ((s.cfg.xlen = .x64 → s.readGpr rs = (lo32 (s.readGpr rs)).signExtend 64 ∧
        s.readGpr rt = (lo32 (s.readGpr rt)).signExtend 64) → StaysInSpace s →
      ∃ t, exec (.addu rs rt rd) s = .next t ∧
        WritesGpr rd (s.cfg.sext (lo32 (s.readGpr rs) + lo32 (s.readGpr rt))) s t) ∧
    (s.cfg.xlen = .x64 → s.readGpr rs ≠ (lo32 (s.readGpr rs)).signExtend 64 ∨
        s.readGpr rt ≠ (lo32 (s.readGpr rt)).signExtend 64 →
      exec (.addu rs rt rd) s = .refused .adduOperandNotWord)

/-- Wherever NOP, SSNOP, or SYNC with any stype on an R4000-style CPU may execute, it answers a next state with every
register, CP0 register, byte of memory and input as before, and pc at the next instruction. SYNC (R198) is the choice of
D13 for a non-zero stype (log 34). [R196, R197] -/
def Obligations.NoOperationResult : Prop :=
  ∀ (i : Instr) (stype : BitVec 5) (m : Mode) (s : State),
    i = .nop ∨ i = .ssnop ∨ (i = .sync stype ∧ s.cfg.style = .r4000) → Runs i m s → StaysInSpace s →
    ∃ t, exec i s = .next t ∧ LeavesCp0 s.cp0 s t ∧ Advances s t

/-- Where every check of the access passes, LW answers a next state in which rt holds the sign-extended word whose bytes, in
the effective byte order, are the four bytes at the physical address; nothing else changes. With LOAD_DELAY = 1 the
machine remembers rt as just loaded. [R204, R106, R107] -/
def Obligations.LwResult : Prop :=
  ∀ (base rt : RegNum) (offset : BitVec 16) (m : Mode) (pa : Nat) (s : State),
    Runs (.lw base rt offset) m s → StaysInSpace s → Accessible m .load (accessAddress s base offset) pa s →
    ∃ t w, exec (.lw base rt offset) s = .next t ∧
      (∀ k, k < 4 → s.readByte (pa + k) = byteOf (bigAccess m s) w k) ∧ WritesGpr rt (s.cfg.sext w) s t ∧
      t.loadReg = if s.cfg.loadDelay = true ∧ rt ≠ 0 then some rt else none

/-- Where every check of the access passes, SW answers a next state in which the four bytes at the physical address are those
of the low word of rt in the effective byte order; every byte outside them reads as before; no register changes; the four
addresses count as stored. [R205, R106, R107] -/
def Obligations.SwResult : Prop :=
  ∀ (base rt : RegNum) (offset : BitVec 16) (m : Mode) (pa : Nat) (s : State),
    Runs (.sw base rt offset) m s → StaysInSpace s → Accessible m .store (accessAddress s base offset) pa s →
    ∃ t, exec (.sw base rt offset) s = .next t ∧
      (∀ k, k < 4 → t.readByte (pa + k) = byteOf (bigAccess m s) (lo32 (s.readGpr rt)) k) ∧
      (∀ a, a < pa ∨ pa + 4 ≤ a → t.readByte a = s.readByte a) ∧
      (∀ a, a ∈ t.written ↔ a ∈ s.written ∨ (pa ≤ a ∧ a < pa + 4)) ∧
      SameGprs s t ∧ t.cp0 = s.cp0 ∧ SameWorld s t ∧ Advances s t

/-- After a SW to an address that the load may also access, a LW of the same base and offset executed next answers a next
state in which its register holds the sign-extended low word of the stored register. [R121, R204, R205] -/
def Obligations.LoadAfterStore : Prop :=
  ∀ (base rt rd : RegNum) (offset : BitVec 16) (m : Mode) (pa : Nat) (s t : State),
    Runs (.sw base rt offset) m s → StaysInSpace s →
    Accessible m .store (accessAddress s base offset) pa s → Accessible m .load (accessAddress s base offset) pa s →
    exec (.sw base rt offset) s = .next t → Runs (.lw base rd offset) m t → StaysInSpace t →
    ∃ u, exec (.lw base rd offset) t = .next u ∧
      u.readGpr rd = if rd = 0 then 0 else s.cfg.sext (lo32 (s.readGpr rt))

/-- A LW or SW at an address that is no multiple of 4 enters AdEL or AdES with BadVaddr = the address; so does an aligned one
in user mode outside kuseg, or in supervisor mode outside kuseg and 0xC0000000..0xDFFFFFFF, whatever the TLB holds. No
register or memory changes. [R101, R109, R115, R118, R225, R226] -/
def Obligations.AccessAddressError : Prop :=
  ∀ (a : WordAccess) (m : Mode) (s : State), Runs a.instr m s →
    ((a.address s).toNat % 4 ≠ 0 →
      ∃ t, exec a.instr s = .next t ∧ EntersWithAddress (if a.kind = .store then 5 else 4) (a.address s) s t) ∧
    (Starts a s → (s.cfg.xlen = .x64 → a.address s = (lo32 (a.address s)).signExtend 64) →
      (m = .user ∧ 0x7FFFFFFF < lo32 (a.address s)) ∨
        (m = .supervisor ∧ 0x7FFFFFFF < lo32 (a.address s) ∧
          (lo32 (a.address s) < 0xC0000000 ∨ 0xDFFFFFFF < lo32 (a.address s))) →
      ∃ t, exec a.instr s = .next t ∧ EntersWithAddress (if a.kind = .store then 5 else 4) (a.address s) s t)

/-- On an R4000-style CPU an aligned LW (WatchLo.R = 1) or SW (WatchLo.W = 1) whose physical address agrees with the watched
address in bits PABITS-1:3 enters Watch, unless watch is masked and EXL or ERL is set; an unwatched LW for which the
environment holds a bus error enters DBE and uses it up. That both come before the refusal of R112 and the fault of an
address beyond PABITS is the choice of log 33. [R237, R268, R228, R126] -/
def Obligations.WatchAndBusError : Prop :=
  ∀ (a : WordAccess) (m : Mode) (pa : Nat) (attr : CacheAttr) (s : State), Runs a.instr m s → Starts a s →
    s.translate m a.kind (a.address s) = .ok (pa, attr) →
    (s.cfg.style = .r4000 → s.cp0.watchLo.getLsbD (if a.kind = .store then 0 else 1) = true →
      pa % 2 ^ s.cfg.paBits / 8 =
        (s.cp0.watchHi.extractLsb' 0 4 ++ s.cp0.watchLo.extractLsb' 3 29 ++ 0#3).toNat % 2 ^ s.cfg.paBits / 8 →
      ¬ (s.cfg.watchMaskedByExl = true ∧ (srExl s.cp0.sr = true ∨ srErl s.cp0.sr = true)) →
      ∃ t, exec a.instr s = .next t ∧ EntersGeneral 23 s t) ∧
    (a.kind = .load → s.watchMatch pa .load = false → s.dbe = true →
      ∃ t, exec a.instr s = .next t ∧ EntersGeneral 7 s t ∧ t.dbe = false)

/-- On a CPU with a TLB a mapped address that the oracle answers with a hit (writable, for a store) translates to the physical
address and attribute of the answer. For a LW or SW at a mapped address: when the oracle answers an invalid match the
access enters TLBL or TLBS through the general entry point; when a store hits an entry that is not writable it enters Mod.
BadVaddr is the address. [R115, R116, R222, R223, R224, R82] -/
def Obligations.MappedAccessFaults : Prop :=
  (∀ (m : Mode) (kind : AccessKind) (va : Word) (s : State) (pa : Nat) (c : BitVec 3) (writable : Bool), Mapped m va s →
    s.cfg.hasTlb = true → s.oracle kind (lo32 va) = .hit pa c writable → (kind = .store → writable = true) →
    s.translate m kind va = .ok (pa, .page c)) ∧
  (∀ (a : WordAccess) (m : Mode) (s : State), Runs a.instr m s → Starts a s → Mapped m (a.address s) s →
    s.cfg.hasTlb = true →
    (s.oracle a.kind (lo32 (a.address s)) = .miss false →
      ∃ t, exec a.instr s = .next t ∧ EntersWithAddress (if a.kind = .store then 3 else 2) (a.address s) s t) ∧
    (∀ pa c, a.kind = .store → s.oracle .store (lo32 (a.address s)) = .hit pa c false →
      ∃ t, exec a.instr s = .next t ∧ EntersWithAddress 1 (a.address s) s t))

/-- For a LW or SW at a mapped address, and for a fetch at a mapped pc, that the oracle answers with a refill-type miss,
BadVaddr is the address and the entry point (refillEntry): R3000 style VEC_TLB_REFILL for a kuseg address and VEC_GENERAL
otherwise; R4000 style VEC_GENERAL with EXL = 1, else VEC_XTLB_REFILL with XLEN = 64 and the KX, SX or UX bit of the mode
set, else VEC_TLB_REFILL; each in the column of SR.BEV. [R223, R224, R245, R246, R116, R127] -/
def Obligations.TlbRefillEntry : Prop :=
  (∀ (a : WordAccess) (m : Mode) (s : State) (x : VectorPair), Runs a.instr m s → Starts a s → Mapped m (a.address s) s →
    s.cfg.hasTlb = true → s.oracle a.kind (lo32 (a.address s)) = .miss true →
    (s.cfg.style = .r4000 → s.cfg.vectors.xtlbRefill = some x) →
    ∃ t, exec a.instr s = .next t ∧ Enters (if a.kind = .store then 3 else 2) s t ∧
      t.cp0.badVaddr = s.cfg.norm (a.address s) ∧ t.pc = s.entry (refillEntry m x (lo32 (a.address s)) s)) ∧
  (∀ (m : Mode) (s t : State) (x : VectorPair), CpuTurn s t → Fetches m t → t.pc.toNat % 4 = 0 → Mapped m t.pc t →
    t.cfg.hasTlb = true → t.oracle .fetch (lo32 t.pc) = .miss true →
    (t.cfg.style = .r4000 → t.cfg.vectors.xtlbRefill = some x) →
    ∃ u, step s = .next u ∧ Enters 2 t u ∧ u.cp0.badVaddr = t.cfg.norm t.pc ∧
      u.pc = t.entry (refillEntry m x (lo32 t.pc) t))

/-- For a LW or SW at a mapped address, and for a fetch at a mapped pc, that the oracle answers with a double match on a CPU
that implements TS, the access enters TLBL or TLBS with SR.TS set; and in every state with SR.TS = 1 the oracle answers a
miss for every address. That the double match itself raises the miss is the choice of log 8. [R55, R116, R127] -/
def Obligations.TlbShutdown : Prop :=
  (∀ (a : WordAccess) (m : Mode) (s : State), Runs a.instr m s → Starts a s → Mapped m (a.address s) s →
    s.cfg.hasTlb = true → s.cfg.implementsTs = true → s.oracle a.kind (lo32 (a.address s)) = .doubleMatch →
    ∃ t, exec a.instr s = .next t ∧ srTs t.cp0.sr = true ∧
      Enters (if a.kind = .store then 3 else 2) { s with cp0 := { s.cp0 with sr := s.cp0.sr ||| 0x00200000 } } t ∧
      t.cp0.badVaddr = s.cfg.norm (a.address s)) ∧
  (∀ (m : Mode) (s t : State), CpuTurn s t → Fetches m t → t.pc.toNat % 4 = 0 → Mapped m t.pc t →
    t.cfg.hasTlb = true → t.cfg.implementsTs = true → t.oracle .fetch (lo32 t.pc) = .doubleMatch →
    ∃ u, step s = .next u ∧ srTs u.cp0.sr = true ∧
      Enters 2 { t with cp0 := { t.cp0 with sr := t.cp0.sr ||| 0x00200000 } } u ∧
      u.cp0.badVaddr = t.cfg.norm t.pc) ∧
  (∀ (s : State) (kind : AccessKind) (a : Word32), srTs s.cp0.sr = true → s.oracle kind a = .miss true)

/-- A LW or SW is refused by name: aligned with SR.IsC or SR.SwC set (R3000 style); at an address that is no sign-extended
word with XLEN = 64; at a mapped address with HAS_TLB = false; at a mapped address the oracle answers with a double match
on a CPU without TS (log 8); at a translated, unwatched address with a byte outside the plain-memory set. It faults at one
beyond PABITS (log 32). [R56, R112, R114, R116] -/
def Obligations.RefusedAccesses : Prop :=
  ∀ (a : WordAccess) (m : Mode) (s : State), Runs a.instr m s → (a.address s).toNat % 4 = 0 →
    (s.cfg.style = .r3000 → srIsc s.cp0.sr = true ∨ srSwc s.cp0.sr = true → exec a.instr s = .refused .cacheIsolated) ∧
    (s.cfg.style = .r4000 → s.cfg.xlen = .x64 → a.address s ≠ (lo32 (a.address s)).signExtend 64 →
      exec a.instr s = .refused (.segment64 (a.address s))) ∧
    (Starts a s → Mapped m (a.address s) s → s.cfg.hasTlb = false → exec a.instr s = .refused .noTlb) ∧
    (∀ pa attr k, Starts a s → s.translate m a.kind (a.address s) = .ok (pa, attr) → s.watchMatch pa a.kind = false →
      (a.kind = .load → s.dbe = false) → pa + 4 ≤ 2 ^ s.cfg.paBits → k < 4 → isPlain s.cfg (pa + k) = false →
      exec a.instr s = .refused (.notPlainMemory pa)) ∧
    (Starts a s → Mapped m (a.address s) s → s.cfg.hasTlb = true → s.cfg.implementsTs = false →
      s.oracle a.kind (lo32 (a.address s)) = .doubleMatch → exec a.instr s = .refused .doubleMatchPrevented) ∧
    (∀ pa attr, Starts a s → s.translate m a.kind (a.address s) = .ok (pa, attr) → s.watchMatch pa a.kind = false →
      (a.kind = .load → s.dbe = false) → 2 ^ s.cfg.paBits < pa + 4 →
      exec a.instr s = .fault (.noSuchPhysicalAddress pa))

/-- For every state and kind of access: an address that translates in user mode is at most 0x7FFFFFFF in its low word, and one
that translates in supervisor mode is there or in 0xC0000000..0xDFFFFFFF; with XLEN = 64 it is a sign-extended word.
[R101, R103, R115] -/
def Obligations.UserAddressesStayInKuseg : Prop :=
  ∀ (s : State) (m : Mode) (kind : AccessKind) (va : Word) (pa : Nat) (attr : CacheAttr),
    s.translate m kind va = .ok (pa, attr) →
    (m = .user → lo32 va ≤ 0x7FFFFFFF) ∧
    (m = .supervisor → lo32 va ≤ 0x7FFFFFFF ∨ (0xC0000000 ≤ lo32 va ∧ lo32 va ≤ 0xDFFFFFFF)) ∧
    (s.cfg.xlen = .x64 → va = (lo32 va).signExtend 64)

/-- With the default segment boundaries, for an address that is a sign-extended word: in kernel mode kseg0 gives the address
minus 0x80000000 and kseg1, uncached, the address minus 0xA0000000; with SR.ERL = 1 on the R4000 style an address of kuseg
gives itself, uncached, in every mode. [R103, R104, R115, R67] -/
def Obligations.UnmappedSegments : Prop :=
  ∀ (s : State) (m : Mode) (kind : AccessKind) (va : Word), s.cfg.segments = Segments.standard →
    (s.cfg.xlen = .x64 → va = (lo32 va).signExtend 64) →
    (m = .kernel → 0x80000000 ≤ lo32 va → lo32 va < 0xA0000000 →
      ∃ attr, s.translate m kind va = .ok ((lo32 va - 0x80000000).toNat, attr)) ∧
    (m = .kernel → 0xA0000000 ≤ lo32 va → lo32 va < 0xC0000000 →
      s.translate m kind va = .ok ((lo32 va - 0xA0000000).toNat, .uncached)) ∧
    (s.cfg.style = .r4000 → srErl s.cp0.sr = true → lo32 va ≤ 0x7FFFFFFF →
      s.translate m kind va = .ok ((lo32 va).toNat, .uncached))

/-- For every CP0 register the CPU has and the spec describes, where CP0 is usable MFC0 answers a next state in which rt holds
the sign-extended low 32 bits of its value (Cause with the live interrupt inputs); nothing else changes. With LOAD_DELAY =
1 the machine remembers rt as just loaded. [R171] -/
def Obligations.Mfc0Result : Prop :=
  ∀ (rt n : RegNum) (v : Word) (wide : Bool) (m : Mode) (s : State), (n, v, wide) ∈ cp0Values s →
    Runs (.mfc0 rt n) m s → StaysInSpace s → m = .kernel ∨ srCu s.cp0.sr 0 = true →
    ∃ t, exec (.mfc0 rt n) s = .next t ∧ WritesGpr rt (s.cfg.sext (lo32 v)) s t ∧
      t.loadReg = if s.cfg.loadDelay = true ∧ rt ≠ 0 then some rt else none

/-- With XLEN = 64, where CP0 is usable and 64-bit instructions are allowed, DMFC0 answers a next state in which rt holds all
64 bits of BadVaddr, EPC or ErrorEPC, or the sign-extended 32 bits of any other readable register (log 17); nothing else
changes. [R170, R173, R174] -/
def Obligations.Dmfc0Result : Prop :=
  ∀ (rt n : RegNum) (v : Word) (wide : Bool) (m : Mode) (s : State), (n, v, wide) ∈ cp0Values s →
    Runs (.dmfc0 rt n) m s → StaysInSpace s → s.cfg.xlen = .x64 →
    m = .kernel ∨ srCu s.cp0.sr 0 = true → s.dw64Allowed m = true →
    ∃ t, exec (.dmfc0 rt n) s = .next t ∧ WritesGpr rt (if wide then v else (lo32 v).signExtend 64) s t

/-- Where CP0 is usable, MTC0 to register 12 leaves SR = (v & 0xF247FF3F) | (SR & 0x00380000) on the R3000 style and (v &
0xFE57FFFF) | (SR & 0x00200000) on the R4000 style, v the low word of rt; nothing else changes. [R73, R31, R172] -/
def Obligations.Mtc0Status : Prop :=
  ∀ (rt : RegNum) (m : Mode) (s : State), Runs (.mtc0 rt 12) m s → StaysInSpace s →
    m = .kernel ∨ srCu s.cp0.sr 0 = true →
    ∃ t, exec (.mtc0 rt 12) s = .next t ∧ Advances s t ∧
      LeavesCp0
        { s.cp0 with
          sr := match s.cfg.style with
            | .r3000 => (lo32 (s.readGpr rt) &&& 0xF247FF3F) ||| (s.cp0.sr &&& 0x00380000)
            | .r4000 => (lo32 (s.readGpr rt) &&& 0xFE57FFFF) ||| (s.cp0.sr &&& 0x00200000) } s t

/-- Where CP0 is usable, MTC0 to register 13 leaves Cause = (Cause & ~0x300) | (v & 0x300), v the low word of rt; nothing else
changes. [R80] -/
def Obligations.Mtc0Cause : Prop :=
  ∀ (rt : RegNum) (m : Mode) (s : State), Runs (.mtc0 rt 13) m s → StaysInSpace s →
    m = .kernel ∨ srCu s.cp0.sr 0 = true →
    ∃ t, exec (.mtc0 rt 13) s = .next t ∧ Advances s t ∧
      LeavesCp0 { s.cp0 with cause := (s.cp0.cause &&& ~~~0x300) ||| (lo32 (s.readGpr rt) &&& 0x300) } s t

/-- On the R4000 style, where CP0 is usable: MTC0 to Compare leaves Compare = v and the timer request clear; MTC0 to Count
leaves Count = v and the request as it was, or, when v equals Compare, or-ed with a bit that nothing fixes (log 19).
Nothing else changes. [R170, R83, R84, R266] -/
def Obligations.Mtc0Timer : Prop :=
  ∀ (rt : RegNum) (m : Mode) (s : State), s.cfg.style = .r4000 → StaysInSpace s →
    m = .kernel ∨ srCu s.cp0.sr 0 = true →
    (Runs (.mtc0 rt 11) m s → ∃ t, exec (.mtc0 rt 11) s = .next t ∧ Advances s t ∧
      LeavesCp0 { s.cp0 with compare := lo32 (s.readGpr rt), timerPending := false } s t) ∧
    (Runs (.mtc0 rt 9) m s → ∃ t b, exec (.mtc0 rt 9) s = .next t ∧ Advances s t ∧
      LeavesCp0
        { s.cp0 with
          count := lo32 (s.readGpr rt)
          timerPending := s.cp0.timerPending || (b && lo32 (s.readGpr rt) == s.cp0.compare) } s t)

/-- On the R4000 style, where CP0 is usable, MTC0 to EPC or ErrorEPC leaves the register with low word v: all of it with XLEN
= 32, with a high half that nothing fixes with XLEN = 64 (log 18). On the R3000 style MTC0 to EPC is refused. [R170, R35,
R81] -/
def Obligations.Mtc0ReturnAddress : Prop :=
  ∀ (rt : RegNum) (m : Mode) (s : State), m = .kernel ∨ srCu s.cp0.sr 0 = true →
    (s.cfg.style = .r4000 → StaysInSpace s → Runs (.mtc0 rt 14) m s →
      ∃ t x, exec (.mtc0 rt 14) s = .next t ∧ Advances s t ∧ LeavesCp0 { s.cp0 with epc := x } s t ∧
        lo32 x = lo32 (s.readGpr rt) ∧ s.cfg.norm x = x) ∧
    (s.cfg.style = .r4000 → StaysInSpace s → Runs (.mtc0 rt 30) m s →
      ∃ t x, exec (.mtc0 rt 30) s = .next t ∧ Advances s t ∧ LeavesCp0 { s.cp0 with errorEpc := x } s t ∧
        lo32 x = lo32 (s.readGpr rt) ∧ s.cfg.norm x = x) ∧
    (s.cfg.style = .r3000 → Runs (.mtc0 rt 14) m s → exec (.mtc0 rt 14) s = .refused .epcWriteOnR3000)

/-- On the R4000 style, where CP0 is usable, MTC0 to register 16 with a value that differs from Config in no field but the
writable ones (K0; SC, EP as configured) and the reserved bit 12 (log 22) updates those fields only; a value that changes
BE where BE is writable, or any other field, is refused. [R92, R85, R31] -/
def Obligations.Mtc0Config : Prop :=
  ∀ (rt : RegNum) (m : Mode) (s : State), s.cfg.style = .r4000 → Runs (.mtc0 rt 16) m s →
    m = .kernel ∨ srCu s.cp0.sr 0 = true →
    let v := lo32 (s.readGpr rt)
    let writable : Word32 :=
      0x7 ||| (if s.cfg.scWritable then 0x00020000 else 0) ||| (if s.cfg.epWritable then 0x0F000000 else 0)
    let changed : Word32 := (s.cp0.config ^^^ v) &&& ~~~(writable ||| 0x00001000)
    (changed = 0 → StaysInSpace s → ∃ t, exec (.mtc0 rt 16) s = .next t ∧ Advances s t ∧
      LeavesCp0 { s.cp0 with config := (s.cp0.config &&& ~~~writable) ||| (v &&& writable) } s t) ∧
    (changed ≠ 0 → exec (.mtc0 rt 16) s = .refused
      (if s.cfg.beWritable = true ∧ changed.getLsbD 15 = true then .configByteOrderChange else .configFieldNotWritable))

/-- Where CP0 is usable: on the R4000 style MTC0 to WatchLo leaves v with bit 2 zero, and MTC0 to WatchHi leaves bits 3:0 of v
with PABITS over 32 and 0 with PABITS at most 32; nothing else changes. On both styles MTC0 to register 8 or 15 answers a
next state in which nothing but pc has changed. [R94, R95, R40, R82, R170] -/
def Obligations.Mtc0WatchAndReadOnly : Prop :=
  (∀ (rt : RegNum) (m : Mode) (s : State), s.cfg.style = .r4000 → StaysInSpace s →
    m = .kernel ∨ srCu s.cp0.sr 0 = true →
    (Runs (.mtc0 rt 18) m s → ∃ t, exec (.mtc0 rt 18) s = .next t ∧ Advances s t ∧
      LeavesCp0 { s.cp0 with watchLo := lo32 (s.readGpr rt) &&& 0xFFFFFFFB } s t) ∧
    (Runs (.mtc0 rt 19) m s → ∃ t, exec (.mtc0 rt 19) s = .next t ∧ Advances s t ∧
      LeavesCp0 { s.cp0 with watchHi := if 32 < s.cfg.paBits then lo32 (s.readGpr rt) &&& 0xF else 0 } s t)) ∧
  (∀ (rt n : RegNum) (m : Mode) (s : State), n = 8 ∨ n = 15 → Runs (.mtc0 rt n) m s → StaysInSpace s →
    m = .kernel ∨ srCu s.cp0.sr 0 = true →
    ∃ t, exec (.mtc0 rt n) s = .next t ∧ Advances s t ∧ LeavesCp0 s.cp0 s t)

/-- With XLEN = 64 on the R4000 style, where CP0 is usable and 64-bit instructions are allowed: DMTC0 to EPC or ErrorEPC
leaves all 64 bits of rt there and changes nothing else; DMTC0 to a 32-bit register or to BadVaddr does what MTC0 to it
does. [R170, R174] -/
def Obligations.Dmtc0Result : Prop :=
  ∀ (rt n : RegNum) (m : Mode) (s : State), s.cfg.style = .r4000 → s.cfg.xlen = .x64 →
    m = .kernel ∨ srCu s.cp0.sr 0 = true → s.dw64Allowed m = true → Runs (.dmtc0 rt n) m s →
    (n = 14 → StaysInSpace s → ∃ t, exec (.dmtc0 rt n) s = .next t ∧ Advances s t ∧
      LeavesCp0 { s.cp0 with epc := s.readGpr rt } s t) ∧
    (n = 30 → StaysInSpace s → ∃ t, exec (.dmtc0 rt n) s = .next t ∧ Advances s t ∧
      LeavesCp0 { s.cp0 with errorEpc := s.readGpr rt } s t) ∧
    (n ∈ [8, 9, 11, 12, 13, 15, 16, 18, 19] → Runs (.mtc0 rt n) m s → exec (.dmtc0 rt n) s = exec (.mtc0 rt n) s)

/-- Where CP0 is usable, MFC0 and MTC0 of a number with no register on this CPU, of an MMU register, of a cache or error
register, or of LLAddr are refused by the name of the case; so are DMFC0 and DMTC0 with XLEN = 64 where 64-bit
instructions are allowed. [R33, R34, R35, R93, R170] -/
def Obligations.Cp0NumberRefused : Prop :=
  ∀ (rt n : RegNum) (r : Refusal) (m : Mode) (i : Instr) (s : State), (n, r) ∈ cp0RefusedNumbers s.cfg →
    Runs i m s → m = .kernel ∨ srCu s.cp0.sr 0 = true →
    i = .mfc0 rt n ∨ i = .mtc0 rt n ∨
      (s.cfg.xlen = .x64 ∧ s.dw64Allowed m = true ∧ (i = .dmfc0 rt n ∨ i = .dmtc0 rt n)) →
    exec i s = .refused r

/-- In user or supervisor mode with SR.CU0 = 0, MFC0, MTC0, TLBR, TLBWI, TLBWR, TLBP, on the R3000 style RFE, on the R4000
style ERET and CACHE, and with XLEN = 64 and 64-bit instructions allowed DMFC0 and DMTC0 enter CpU with Cause.CE = 0 and
change nothing else. (ERET on the R3000 style, RFE on the R4000 style, and DMFC0 and DMTC0 with XLEN = 32 or where 64-bit
instructions are not allowed: UndefinedInstructionTraps, DoublewordMoveTraps; CACHE on the R3000 style:
RefusedInstructions.) [R51, R231, R263, R208, R209, R210, R211, R212] -/
def Obligations.Cp0Unusable : Prop :=
  ∀ (rt rd base : RegNum) (op : BitVec 5) (offset : BitVec 16) (m : Mode) (i : Instr) (s : State),
    Runs i m s → m ≠ .kernel → srCu s.cp0.sr 0 = false →
    i ∈ [.mfc0 rt rd, .mtc0 rt rd, .tlbr, .tlbwi, .tlbwr, .tlbp] ∨ (s.cfg.style = .r3000 ∧ i = .rfe) ∨
      (s.cfg.style = .r4000 ∧ i ∈ [.eret, .cache base op offset]) ∨
      (s.cfg.xlen = .x64 ∧ s.dw64Allowed m = true ∧ i ∈ [.dmfc0 rt rd, .dmtc0 rt rd]) →
    ∃ t, exec i s = .next t ∧ EntersCpU 0 s t

/-- DMFC0 and DMTC0 enter RI with XLEN = 32; with XLEN = 64 they enter RI where CP0 is usable and 64-bit instructions are not
allowed (user mode with UX = 0, supervisor mode with SX = 0), and RI or CpU with CE = 0, nothing fixing which (log 12),
where neither holds. [R173, R174, R149, R65] -/
def Obligations.DoublewordMoveTraps : Prop :=
  ∀ (rt rd : RegNum) (m : Mode) (i : Instr) (s : State), i ∈ [.dmfc0 rt rd, .dmtc0 rt rd] → Runs i m s →
    (s.cfg.xlen = .x32 → ∃ t, exec i s = .next t ∧ EntersGeneral 10 s t) ∧
    (s.cfg.xlen = .x64 → (m = .user ∧ srUx s.cp0.sr = false) ∨ (m = .supervisor ∧ srSx s.cp0.sr = false) →
      ∃ t, exec i s = .next t ∧
        (EntersGeneral 10 s t ∨ (srCu s.cp0.sr 0 = false ∧ EntersCpU 0 s t)))

/-- On the R3000 style ERET and SYNC enter RI in every mode. On the R4000 style RFE enters RI where CP0 is usable, and RI or
CpU with CE = 0, nothing fixing which (log 12), where it is not. [R149, R230, R180, R181, R198] -/
def Obligations.UndefinedInstructionTraps : Prop :=
  ∀ (stype : BitVec 5) (m : Mode) (i : Instr) (s : State), Runs i m s →
    (s.cfg.style = .r3000 → i ∈ [.eret, .sync stype] → ∃ t, exec i s = .next t ∧ EntersGeneral 10 s t) ∧
    (s.cfg.style = .r4000 → i = .rfe →
      ∃ t, exec i s = .next t ∧
        (EntersGeneral 10 s t ∨ (m ≠ .kernel ∧ srCu s.cp0.sr 0 = false ∧ EntersCpU 0 s t)))

/-- On the R3000 style, where CP0 is usable, RFE leaves SR with bits 3:0 equal to the old bits 5:2 and every other bit as it
was; nothing else changes and control goes on to the next instruction. (On the R4000 style and where CP0 is not usable:
UndefinedInstructionTraps and Cp0Unusable.) [R180] -/
def Obligations.RfeResult : Prop :=
  ∀ (m : Mode) (s : State), s.cfg.style = .r3000 → Runs .rfe m s → StaysInSpace s →
    m = .kernel ∨ srCu s.cp0.sr 0 = true →
    ∃ t, exec .rfe s = .next t ∧ Advances s t ∧
      LeavesCp0 { s.cp0 with sr := (s.cp0.sr &&& 0xFFFFFFF0) ||| ((s.cp0.sr >>> 2) &&& 0xF) } s t

/-- On the R4000 style, where CP0 is usable and outside a delay slot, ERET clears ERL and goes to ErrorEPC when ERL = 1, else
clears EXL and goes to EPC; the load-linked monitor is broken; there is no delay slot; nothing else changes. In a delay
slot it is refused. [R181] -/
def Obligations.EretResult : Prop :=
  ∀ (m : Mode) (s : State), s.cfg.style = .r4000 → Runs .eret m s → m = .kernel ∨ srCu s.cp0.sr 0 = true →
    (s.inDelay = false → ∃ t, exec .eret s = .next t ∧ t.npc = s.cfg.norm (t.pc + 4) ∧ t.inDelay = false ∧
      (srErl s.cp0.sr = true → t.pc = s.cp0.errorEpc ∧
        LeavesCp0 { s.cp0 with sr := s.cp0.sr &&& ~~~4, llBit := false } s t) ∧
      (srErl s.cp0.sr = false → t.pc = s.cp0.epc ∧
        LeavesCp0 { s.cp0 with sr := s.cp0.sr &&& ~~~2, llBit := false } s t)) ∧
    (s.inDelay = true → exec .eret s = .refused .eretInDelaySlot)

/-- Outside a delay slot JR answers a next state at the following instruction, marked as in a delay slot, with x[rs] as the
address after it; no register, CP0 register or byte of memory changes. In a delay slot it is refused. [R182] -/
def Obligations.JrResult : Prop :=
  ∀ (rs : RegNum) (m : Mode) (s : State), Runs (.jr rs) m s →
    (s.inDelay = false → StaysInSpace s → ∃ t, exec (.jr rs) s = .next t ∧ t.pc = s.npc ∧ t.npc = s.readGpr rs ∧
      t.inDelay = true ∧ LeavesCp0 s.cp0 s t) ∧
    (s.inDelay = true → exec (.jr rs) s = .refused .branchInDelaySlot)

/-- Wherever SYSCALL or BREAK may execute, with any code and in every mode, it answers the entry of code 8 or 9 through the
general entry point: EPC, BD, SR as the style says (with EXL = 1 EPC and BD keep their values), no general register,
memory or other CP0 register changed; the new mode is kernel. That EPC and BD are kept with EXL = 1 is D17, the choice of
log 21. [R190, R191, R229, R238, R240, R241, R245] -/
def Obligations.TrapResult : Prop :=
  ∀ (code : BitVec 20) (m : Mode) (s : State),
    (Runs (.syscall code) m s → ∃ t, exec (.syscall code) s = .next t ∧ EntersGeneral 8 s t ∧ t.mode = some .kernel) ∧
    (Runs (.brk code) m s → ∃ t, exec (.brk code) s = .next t ∧ EntersGeneral 9 s t ∧ t.mode = some .kernel)

/-- On the R3000 style, after the entry of any exception or interrupt whose entry point is not at the top of the address
space, an RFE executed next answers a next state in which SR[3:0] is what it was before; the entry of a SYSCALL or BREAK
is one. [R58, R240, R247, R180] -/
def Obligations.RfeUndoesEntry : Prop :=
  (∀ (e : Exc) (note : Note) (s : State), s.cfg.style = .r3000 → StaysInSpace (enter e note s) →
    ∃ u, exec .rfe (enter e note s) = .next u ∧ u.cp0.sr.extractLsb' 0 4 = s.cp0.sr.extractLsb' 0 4) ∧
  (∀ (i : Instr) (code : BitVec 20) (m : Mode) (s t : State), s.cfg.style = .r3000 →
    i = .syscall code ∨ i = .brk code → Runs i m s → exec i s = .next t → StaysInSpace t →
    ∃ u, exec .rfe t = .next u ∧ u.cp0.sr.extractLsb' 0 4 = s.cp0.sr.extractLsb' 0 4)

/-- On the R4000 style with EXL = 0 and ERL = 0, after the entry of any exception or interrupt an ERET executed next answers a
next state with SR as it was before (TS set, where the entry was a TLB shutdown) and pc at the instruction that was not
completed, or at its branch in a delay slot; no general register has changed. The entry of a SYSCALL or BREAK is one.
[R241, R244, R238, R181, R190, R55] -/
def Obligations.EretUndoesEntry : Prop :=
  (∀ (e : Exc) (note : Note) (s : State), s.cfg.style = .r4000 → srExl s.cp0.sr = false → srErl s.cp0.sr = false →
    ∃ u, exec .eret (enter e note s) = .next u ∧
      u.cp0.sr = (if note = .tlbShutdown then s.cp0.sr ||| 0x00200000 else s.cp0.sr) ∧
      u.pc = (if s.inDelay then s.cfg.norm (s.pc - 4) else s.pc) ∧ SameGprs s u) ∧
  (∀ (i : Instr) (code : BitVec 20) (m : Mode) (s t : State), s.cfg.style = .r4000 →
    srExl s.cp0.sr = false → srErl s.cp0.sr = false → s.inDelay = false →
    i = .syscall code ∨ i = .brk code → Runs i m s → exec i s = .next t →
    ∃ u, exec .eret t = .next u ∧ u.cp0.sr = s.cp0.sr ∧ u.pc = s.pc ∧ SameGprs s u)

/-- In a well-formed state outside a delay slot (EXL = 0 on the R4000 style), after a JR that completes, the entry of any
exception or interrupt in its delay slot leaves EPC at the JR and Cause.BD = 1; the exception of a SYSCALL or BREAK there
is one. [R76, R238, R182] -/
def Obligations.DelaySlotTrap : Prop :=
  ∀ (rs : RegNum) (m : Mode) (s t : State), Wf s → s.inDelay = false →
    (s.cfg.style = .r4000 → srExl s.cp0.sr = false) → Runs (.jr rs) m s → exec (.jr rs) s = .next t →
    (∀ (e : Exc) (note : Note), (enter e note t).cp0.epc = s.pc ∧ causeBd (enter e note t).cp0.cause = true) ∧
    (∀ (i : Instr) (code : BitVec 20), i = .syscall code ∨ i = .brk code → Runs i m t →
      ∃ u, exec i t = .next u ∧ u.cp0.epc = s.pc ∧ causeBd u.cp0.cause = true)

/-- Wherever they may execute, PREF, LL and SC are refused by name, with every operand, and in no state at all do they answer
a next state; TLBR, TLBWI, TLBWR and TLBP are refused where CP0 is usable; CACHE is refused on the R3000 style and, where
CP0 is usable, on the R4000 style. [R208, R209, R210, R211, R212, R213, R214, R215] -/
def Obligations.RefusedInstructions : Prop :=
  ∀ (base rt op : RegNum) (offset : BitVec 16) (m : Mode) (i : Instr) (s : State),
    (i ∈ [.pref base op offset, .ll base rt offset, .sc base rt offset] → ∀ t, exec i s ≠ .next t) ∧
    (Runs i m s →
      (i = .pref base op offset → exec i s = .refused .prefNotSpecified) ∧
      (i = .ll base rt offset → exec i s = .refused .llNotSpecified) ∧
      (i = .sc base rt offset → exec i s = .refused .scNotSpecified) ∧
      (i ∈ [.tlbr, .tlbwi, .tlbwr, .tlbp] → m = .kernel ∨ srCu s.cp0.sr 0 = true →
        exec i s = .refused .tlbNotSpecified) ∧
      (i = .cache base op offset → s.cfg.style = .r3000 → exec i s = .refused .cacheOnR3000) ∧
      (i = .cache base op offset → s.cfg.style = .r4000 → m = .kernel ∨ srCu s.cp0.sr 0 = true →
        exec i s = .refused .cacheNotSpecified))

/-- When the schedule names the timer on an R4000-style CPU, the step leaves Count + 1 and the request set if it was, or else
exactly if Count + 1 equals Compare, where no open window of Count has an old value that would answer otherwise (an open
window of Compare changes nothing); no other register, memory or pc changes. On the R3000 style there is no timer and the
turn is refused (log 42). [R265] -/
def Obligations.TimerTick : Prop :=
  ∀ (s : State) (rest : List Move), s.schedule = .tick :: rest →
    (s.cfg.style = .r4000 → ∃ t p, step s = .next t ∧
      t.cp0 = { s.cp0 with count := s.cp0.count + 1, timerPending := p } ∧
      ((∀ h ∈ s.hazards, h.reg = .count → (lo32 h.old + 1 = s.cp0.compare ↔ s.cp0.count + 1 = s.cp0.compare)) →
        p = (s.cp0.timerPending || s.cp0.count + 1 == s.cp0.compare)) ∧
      (s.cp0.timerPending = true → p = true) ∧
      t.gprs = s.gprs ∧ t.mem = s.mem ∧ t.memEpoch = s.memEpoch ∧ t.written = s.written ∧ t.pc = s.pc ∧
      t.npc = s.npc ∧ t.inDelay = s.inDelay ∧ t.cfg = s.cfg ∧ t.extInt = s.extInt ∧ t.schedule = rest) ∧
    (s.cfg.style = .r3000 → step s = .refused .noTimer)

/-- If the timer request is set, then after any step that gives a next state, of any agent, it is still set, unless the step
was a hard reset or the CPU fetched and ran MTC0 or DMTC0 of register 11; and no instruction but these two, executed in
any state, clears it. The entry of any exception or interrupt, ERET, a tick and reading Count do not. [R266, R84] -/
def Obligations.TimerRequestStays : Prop :=
  (∀ (s t : State), step s = .next t → s.cp0.timerPending = true →
    t.cp0.timerPending = true ∨ (∃ rest, s.schedule = .hardReset :: rest) ∨
      ∃ u w rt, CpuTurn s u ∧ u.fetch = .word w ∧ (decode w = .instr (.mtc0 rt 11) ∨ decode w = .instr (.dmtc0 rt 11))) ∧
  (∀ (i : Instr) (s t : State), exec i s = .next t → s.cp0.timerPending = true →
    t.cp0.timerPending = true ∨ ∃ rt, i = .mtc0 rt 11 ∨ i = .dmtc0 rt 11)

/-- When the schedule names them, the step sets the six interrupt inputs (input 5 stays 0 where the timer is wired to IP7: log
39), or whether the next fetch and the next load get a bus error (log 9), or what the translation oracle answers (log 8),
and changes nothing else. [R250, R119, R116, R10] -/
def Obligations.EnvironmentMoves : Prop :=
  ∀ (s : State) (rest : List Move),
    (∀ levels, s.schedule = .setExtInt levels :: rest → ∃ t, step s = .next t ∧
      t = { s with schedule := rest, extInt := t.extInt } ∧ (∀ k, k < 5 → t.extInt.getLsbD k = levels.getLsbD k) ∧
      t.extInt.getLsbD 5 =
        (if s.cfg.style = .r4000 ∧ s.cfg.timerIrqWired = true then false else levels.getLsbD 5)) ∧
    (∀ onFetch onLoad, s.schedule = .setBusError onFetch onLoad :: rest →
      step s = .next { s with schedule := rest, ibe := onFetch, dbe := onLoad }) ∧
    (∀ rules, s.schedule = .setTlb rules :: rest → step s = .next { s with schedule := rest, tlb := rules })

/-- When the schedule names the hard reset, whatever the state, the step leaves pc at VEC_RESET, BEV = 1; on the R4000 style
ERL = 1, SR = RP = 0; on the R3000 style KUc = KU_KERNEL, IEc = SwC = 0; TS = 0 but on an R3051-family CPU without TLB;
the hardware-set fields of Config at CONFIG_RESET; kernel mode; and no interrupt is taken next. Memory is not initialised:
a placed byte that the run has not stored to keeps its value, every other byte reads as a free one (logs 5 and 26), and
the TLB answers are as before. Other fields are free. [R280, R284, R97] -/
def Obligations.HardReset : Prop :=
  ∀ (s : State) (rest : List Move), s.schedule = .hardReset :: rest → ∃ t, step s = .next t ∧
    t.cfg = s.cfg ∧ t.pc = s.cfg.sext s.cfg.vectors.reset ∧ t.npc = s.cfg.norm (t.pc + 4) ∧ t.inDelay = false ∧
    srBev t.cp0.sr = true ∧
    srTs t.cp0.sr = (s.cfg.implementsTs && s.cfg.r3051Family && !s.cfg.hasTlb) ∧
    (s.cfg.style = .r4000 → srErl t.cp0.sr = true ∧ srSoftReset t.cp0.sr = false ∧ srRp t.cp0.sr = false) ∧
    (s.cfg.style = .r3000 → srKuc t.cp0.sr = s.cfg.kuKernel ∧ srIec t.cp0.sr = false ∧ srSwc t.cp0.sr = false) ∧
    (t.cp0.config ^^^ s.cfg.configReset) &&& ~~~(configWritable s.cfg ||| 0x0000B000) = 0 ∧
    configBe t.cp0.config = s.cfg.bigEndian ∧
    t.tlb = s.tlb ∧ t.written = s.written ∧
    (∀ a b, a ∉ s.written → Memory.find? s.mem a = some b → t.readByte a = b) ∧
    (∀ a, a ∈ s.written ∨ Memory.find? s.mem a = none → t.readByte a = Config.unwrittenByte t.memEpoch a) ∧ t.mode = some .kernel ∧ t.takesInterrupt = false

/-- When the schedule names a soft reset or an NMI on an R4000-style CPU, the step leaves ErrorEPC at the instruction not
completed (its branch in a delay slot), SR.SR = BEV = ERL = 1, TS kept or 0, pc at VEC_RESET, every other register, every
general register and memory as before, Cause included (log 25). On the R3000 style, which R283 gives the hard reset only,
a schedule that names one is refused: that the turn is refused is the choice of log 42. [R281, R282, R283] -/
def Obligations.SoftReset : Prop :=
  ∀ (s : State) (mv : Move) (rest : List Move), s.schedule = mv :: rest → mv = .softReset ∨ mv = .nmi →
    (s.cfg.style = .r4000 → ∃ t sr, step s = .next t ∧
      (sr = s.cp0.sr ∨ sr = s.cp0.sr &&& ~~~0x00200000) ∧
      t.cp0 =
        { s.cp0 with
          sr := sr ||| 0x00500004
          errorEpc := if s.inDelay then s.cfg.norm (s.pc - 4) else s.pc } ∧
      t.pc = s.cfg.sext s.cfg.vectors.reset ∧ t.npc = s.cfg.norm (t.pc + 4) ∧ t.inDelay = false ∧
      t.gprs = s.gprs ∧ t.mem = s.mem ∧ t.memEpoch = s.memEpoch ∧ t.written = s.written ∧ t.cfg = s.cfg) ∧
    (s.cfg.style = .r3000 → step s = .refused .noSoftReset)

/-- For every configuration the initial state has pc = VEC_RESET, npc = VEC_RESET + 4, no delay slot, BEV = 1, TS = 0 (1 on an
R3051-family CPU without TLB), ERL = 1 and SR = RP = 0 (R4000 style) or KUc = KU_KERNEL and IEc = SwC = 0 (R3000 style),
the hardware-set fields of Config at CONFIG_RESET, with BE as BIGENDIAN says; PRId reads as its three parameters; it runs
in kernel mode; State.reset is that of the configuration named in log 1. [R97, R40, R89, R280] -/
def Obligations.ResetValues : Prop :=
  State.reset = State.initial Config.r4000 ∧
  ∀ c : Config,
    (State.initial c).pc = c.sext c.vectors.reset ∧
    (State.initial c).npc = c.norm (c.sext c.vectors.reset + 4) ∧ (State.initial c).inDelay = false ∧
    srBev (State.initial c).cp0.sr = true ∧
    srTs (State.initial c).cp0.sr = (c.implementsTs && c.r3051Family && !c.hasTlb) ∧
    ((State.initial c).cp0.config ^^^ c.configReset) &&& ~~~(configWritable c ||| 0x0000B000) = 0 ∧
    configBe (State.initial c).cp0.config = c.bigEndian ∧
    (State.initial c).cp0Read .prid = zext64 (c.pridReserved ++ c.pridImp ++ c.pridRev) ∧
    (c.style = .r4000 → srErl (State.initial c).cp0.sr = true ∧ srSoftReset (State.initial c).cp0.sr = false ∧
      srRp (State.initial c).cp0.sr = false) ∧
    (c.style = .r3000 → srKuc (State.initial c).cp0.sr = c.kuKernel ∧ srIec (State.initial c).cp0.sr = false ∧
      srSwc (State.initial c).cp0.sr = false) ∧
    (State.initial c).mode = some .kernel

/-- The old view of one open window is the state with that register (and, for Compare, the timer request) at its old value; no
window, no old view. With no load delay in the way, if in some old view the whole effect of the instruction differs, or it
raises an exception whose entry keeps EPC and BD, chooses the entry point (BEV apart) or pushes KU/IE pairs otherwise, it
is refused as a CP0 hazard; else it does what its effect says. The same for the fetch. An instruction that would complete
with its next instruction at pc + 4 past the top is refused. What is compared of an entry is the reading of log 14. [R294,
R24] -/
def Obligations.HazardRefuses : Prop :=
  (∀ s : State, s.hazards = [] → s.oldViews = []) ∧
  (∀ (s : State) (h : Hazard), s.hazards = [h] → s.oldViews =
    [{ s with
      cp0 := match h.reg with
        | .sr => { s.cp0 with sr := lo32 h.old }
        | .cause => { s.cp0 with cause := lo32 h.old }
        | .epc => { s.cp0 with epc := s.cfg.norm h.old }
        | .errorEpc => { s.cp0 with errorEpc := s.cfg.norm h.old }
        | .count => { s.cp0 with count := lo32 h.old }
        | .compare => { s.cp0 with compare := lo32 h.old, timerPending := h.oldTimer }
        | .config => { s.cp0 with config := lo32 h.old }
        | .watchLo => { s.cp0 with watchLo := lo32 h.old }
        | .watchHi => { s.cp0 with watchHi := lo32 h.old }
        | .badVaddr | .prid => s.cp0 }]) ∧
  (∀ (i : Instr) (s : State), s.readsLoaded (sources i) = false →
    ((∃ v ∈ s.oldViews, inMode (effect i) v ≠ inMode (effect i) s ∨
        ∃ e note, inMode (effect i) s = .stop (.raise e note) ∧
          (v.nested ≠ s.nested ∨ v.vectorPair e ≠ s.vectorPair e ∨
            (s.cfg.style = .r3000 ∧ v.cp0.sr.extractLsb' 0 4 ≠ s.cp0.sr.extractLsb' 0 4))) → exec i s = .refused .cp0Hazard) ∧
    ((∀ v ∈ s.oldViews, inMode (effect i) v = inMode (effect i) s ∧
        ∀ e note, inMode (effect i) s = .stop (.raise e note) →
          v.nested = s.nested ∧ v.vectorPair e = s.vectorPair e ∧
            (s.cfg.style = .r3000 → v.cp0.sr.extractLsb' 0 4 = s.cp0.sr.extractLsb' 0 4)) → exec i s = finish (inMode (effect i) s) s) ∧
    (∀ m u, Runs i m s → effect i m s = .done u → (∀ target, u.flow ≠ .jump target) → ¬ StaysInSpace s →
      exec i s = .refused .pcWrap)) ∧
  (∀ s t : State, CpuTurn s t → t.takesInterrupt = false →
    (∃ v ∈ t.oldViews, v.fetchNow ≠ t.fetchNow ∨
      ∃ e note, t.fetchNow = .stop (.raise e note) ∧ (v.nested ≠ t.nested ∨ v.vectorPair e ≠ t.vectorPair e ∨
        (t.cfg.style = .r3000 ∧ v.cp0.sr.extractLsb' 0 4 ≠ t.cp0.sr.extractLsb' 0 4))) →
    step s = .refused .cp0Hazard)

/-- An MTC0 or DMTC0 that writes a register leaves its window in front, with the old value, the old timer request and
CP0_HAZARD_DISTANCE instructions, and none with distance 0. After any instruction that answers a next state without
entering an exception, MTC0 and DMTC0 too, the open windows are at most one new one (of MTC0 or DMTC0) and then, in order,
exactly those that had two or more instructions left, each with one fewer and the same old value, but that RFE and ERET
put the bits of SR they write into the old value of SR too (log 14). An entry ends them all (Enters). [R294] -/
def Obligations.HazardWindow : Prop :=
  (∀ (i : Instr) (rt n : RegNum) (r : Cp0Reg) (m : Mode) (s t : State),
    i = .mtc0 rt n ∨ (i = .dmtc0 rt n ∧ s.cfg.xlen = .x64 ∧ s.dw64Allowed m = true) → Runs i m s →
    m = .kernel ∨ srCu s.cp0.sr 0 = true → cp0Lookup s.cfg n = .ok r → r ≠ .badVaddr → r ≠ .prid →
    exec i s = .next t →
    ∃ kept, t.hazards =
      (if s.cfg.hazardDistance = 0 then kept
       else { reg := r, old := s.cp0Get r, oldTimer := s.cp0.timerPending, left := s.cfg.hazardDistance } :: kept) ∧
      kept.length = (s.hazards.filter (fun g => decide (2 ≤ g.left))).length) ∧
  (∀ (i : Instr) (s t : State), exec i s = .next t → (∃ e note, t = enter e note s) ∨
    ∃ new kept, t.hazards = new ++ kept ∧ (new = [] ∨ ∃ rt n h, (i = .mtc0 rt n ∨ i = .dmtc0 rt n) ∧ new = [h]) ∧
      List.Forall₂
        (fun g h => h.reg = g.reg ∧ h.left + 1 = g.left ∧ h.oldTimer = g.oldTimer ∧
          h.old =
            if g.reg = .sr ∧ i = .rfe then putBits g.old 0xF (zext64 ((s.cp0.sr >>> 2) &&& 0xF))
            else if g.reg = .sr ∧ i = .eret then putBits g.old (if srErl s.cp0.sr then 0x4 else 0x2) 0
            else g.old)
        (s.hazards.filter (fun g => decide (2 ≤ g.left))) kept)

/-- MTC0, DMTC0 and SLL read rt, JR reads rs, ADDU, AND and OR read rs and rt, LW and CACHE read base, SW reads base and rt,
and no other instruction reads a general register (the refused PREF, LL and SC: log 36). With LOAD_DELAY = 1 an
instruction that reads the register just loaded is refused, before any exception it would raise (log 15); a register is
remembered as just loaded only after LW or MFC0 with that destination, not register 0; without LOAD_DELAY none is. [R296] -/
def Obligations.LoadDelay : Prop :=
  (∀ (rs rt rd base sa op : RegNum) (offset : BitVec 16) (code : BitVec 20),
    (∀ i ∈ ([.mtc0 rt rd, .dmtc0 rt rd, .sll rt rd sa] : List Instr), sources i = [rt]) ∧ sources (.jr rs) = [rs] ∧
    (∀ i ∈ ([.addu rs rt rd, .and rs rt rd, .or rs rt rd] : List Instr), sources i = [rs, rt]) ∧
    (∀ i ∈ ([.lw base rt offset, .cache base op offset] : List Instr), sources i = [base]) ∧
    sources (.sw base rt offset) = [base, rt] ∧
    (∀ i ∈ ([.mfc0 rt rd, .dmfc0 rt rd, .tlbr, .tlbwi, .tlbwr, .tlbp, .rfe, .eret, .nop, .ssnop, .syscall code, .brk code,
        .sync op, .ll base rt offset, .pref base op offset, .sc base rt offset] : List Instr), sources i = [])) ∧
  (∀ (i : Instr) (r : RegNum) (s : State), s.cfg.loadDelay = true → s.loadReg = some r → r ≠ 0 → r ∈ sources i →
    exec i s = .refused .loadDelay) ∧
  (∀ (i : Instr) (r : RegNum) (s t : State), exec i s = .next t → t.loadReg = some r →
    s.cfg.loadDelay = true ∧ r ≠ 0 ∧
      ((∃ base offset, i = .lw base r offset) ∨ ∃ rd, i = .mfc0 r rd))

/-- For every state in user mode with SR.CU0 = 0, if the CPU step gives a next state then either every CP0 register is as
before and the mode is still user, or the machine is in kernel mode with pc at one of the exception entry points and no
delay slot. [R264, R263, R248, R51] -/
def Obligations.UserCannotChangeCp0 : Prop :=
  ∀ s t : State, s.mode = some .user → srCu s.cp0.sr 0 = false → cpuStep s = .next t →
    (t.cp0 = s.cp0 ∧ t.mode = some .user) ∨
    (t.mode = some .kernel ∧ t.inDelay = false ∧ ∃ p ∈ entryPoints s.cfg, t.pc = s.cfg.sext p)

/-- On the R3000 style, if Cause.ExcCode is at most 12 before a step of the CPU that gives a next state, it is at most 12
after it. [R220, R239] -/
def Obligations.R3000CodesStayLow : Prop :=
  ∀ s t : State, s.cfg.style = .r3000 → causeExcCode s.cp0.cause ≤ 12 → cpuStep s = .next t →
    causeExcCode t.cp0.cause ≤ 12

/-- R3000 style: kernel exactly when KUc = KU_KERNEL, else user. R4000 style: kernel when EXL = 1 or ERL = 1, else by KSU (0
kernel, 1 supervisor, 2 user). With KSU = 3, EXL = 0 and ERL = 0, outside hazard windows and the load delay, every
instruction is refused. [R260, R261, R66] -/
def Obligations.ModeRules : Prop :=
  (∀ s : State, s.cfg.style = .r3000 →
    s.mode = some (if srKuc s.cp0.sr = s.cfg.kuKernel then .kernel else .user)) ∧
  (∀ s : State, s.cfg.style = .r4000 → srExl s.cp0.sr = true ∨ srErl s.cp0.sr = true → s.mode = some .kernel) ∧
  (∀ s : State, s.cfg.style = .r4000 → srExl s.cp0.sr = false → srErl s.cp0.sr = false →
    (srKsu s.cp0.sr = 0 → s.mode = some .kernel) ∧ (srKsu s.cp0.sr = 1 → s.mode = some .supervisor) ∧
    (srKsu s.cp0.sr = 2 → s.mode = some .user) ∧
    (srKsu s.cp0.sr = 3 → ∀ i : Instr, s.hazards = [] → s.readsLoaded (sources i) = false →
      exec i s = .refused .reservedMode))

/-- State.reset satisfies the invariant Wf, and so does the initial state of every configuration that satisfies WfConfig.
[R97, R6] -/
def Obligations.ResetWf : Prop :=
  Wf State.reset ∧ ∀ c : Config, WfConfig c → Wf (State.initial c)

/-- For every well-formed state, if the step of any agent gives a next state, that state is well-formed: register 0 is 0,
XLEN-bit registers have no higher bits, outside a delay slot npc = pc + 4, the zero fields of SR, Cause, Config, WatchLo
and WatchHi read 0, Config keeps its hardware-set fields, memory keeps its canonical form; and the configuration is
unchanged. [R21, R25, R31, R55, R75, R92, R94, R95, R250, R294, R296] -/
def Obligations.StepKeepsWf : Prop :=
  ∀ s t : State, Wf s → step s = .next t → Wf t ∧ t.cfg = s.cfg
end

