-- ==== Sys2Proof/Laws/Decode.lean ====
section
/-! SUPPORT. The fields of the words that the formats of R141 build, and the word of its own four bytes. -/

namespace Sys2Proof

section Fields

variable (rs rt rd sa sub base : BitVec 5) (op funct : BitVec 6) (offset : BitVec 16) (code : BitVec 20)

@[simp] theorem fieldOp_formatR : fieldOp (formatR rs rt rd sa funct) = 0 := by
  ext i hi; simp only [fieldOp, formatR, BitVec.getElem_extractLsb', BitVec.getLsbD_append]; grind

@[simp] theorem fieldRs_formatR : fieldRs (formatR rs rt rd sa funct) = rs := by
  ext i hi; simp only [fieldRs, formatR, BitVec.getElem_extractLsb', BitVec.getLsbD_append]; grind

@[simp] theorem fieldRt_formatR : fieldRt (formatR rs rt rd sa funct) = rt := by
  ext i hi; simp only [fieldRt, formatR, BitVec.getElem_extractLsb', BitVec.getLsbD_append]; grind

@[simp] theorem fieldRd_formatR : fieldRd (formatR rs rt rd sa funct) = rd := by
  ext i hi; simp only [fieldRd, formatR, BitVec.getElem_extractLsb', BitVec.getLsbD_append]; grind

@[simp] theorem fieldSa_formatR : fieldSa (formatR rs rt rd sa funct) = sa := by
  ext i hi; simp only [fieldSa, formatR, BitVec.getElem_extractLsb', BitVec.getLsbD_append]; grind

@[simp] theorem fieldFunct_formatR : fieldFunct (formatR rs rt rd sa funct) = funct := by
  ext i hi; simp only [fieldFunct, formatR, BitVec.getElem_extractLsb', BitVec.getLsbD_append]; grind

@[simp] theorem fieldOp_formatI : fieldOp (formatI op base rt offset) = op := by
  ext i hi; simp only [fieldOp, formatI, BitVec.getElem_extractLsb', BitVec.getLsbD_append]; grind

@[simp] theorem fieldRs_formatI : fieldRs (formatI op base rt offset) = base := by
  ext i hi; simp only [fieldRs, formatI, BitVec.getElem_extractLsb', BitVec.getLsbD_append]; grind

@[simp] theorem fieldRt_formatI : fieldRt (formatI op base rt offset) = rt := by
  ext i hi; simp only [fieldRt, formatI, BitVec.getElem_extractLsb', BitVec.getLsbD_append]; grind

@[simp] theorem fieldOffset_formatI : fieldOffset (formatI op base rt offset) = offset := by
  ext i hi; simp only [fieldOffset, formatI, BitVec.getElem_extractLsb', BitVec.getLsbD_append]; grind

@[simp] theorem fieldOp_formatC0M : fieldOp (formatC0M sub rt rd) = 0b010000 := by
  ext i hi; simp only [fieldOp, formatC0M, BitVec.getElem_extractLsb', BitVec.getLsbD_append]; grind

@[simp] theorem fieldRs_formatC0M : fieldRs (formatC0M sub rt rd) = sub := by
  ext i hi; simp only [fieldRs, formatC0M, BitVec.getElem_extractLsb', BitVec.getLsbD_append]; grind

@[simp] theorem fieldRt_formatC0M : fieldRt (formatC0M sub rt rd) = rt := by
  ext i hi; simp only [fieldRt, formatC0M, BitVec.getElem_extractLsb', BitVec.getLsbD_append]; grind

@[simp] theorem fieldRd_formatC0M : fieldRd (formatC0M sub rt rd) = rd := by
  ext i hi; simp only [fieldRd, formatC0M, BitVec.getElem_extractLsb', BitVec.getLsbD_append]; grind

@[simp] theorem fieldLow11_formatC0M : fieldLow11 (formatC0M sub rt rd) = 0 := by
  ext i hi; simp only [fieldLow11, formatC0M, BitVec.getElem_extractLsb', BitVec.getLsbD_append]; grind

@[simp] theorem fieldOp_formatC0F : fieldOp (formatC0F funct) = 0b010000 := by
  ext i hi; simp only [fieldOp, formatC0F, BitVec.getElem_extractLsb', BitVec.getLsbD_append]; grind

@[simp] theorem fieldCo_formatC0F : fieldCo (formatC0F funct) = 0x80000 := by
  ext i hi
  simp only [fieldCo, formatC0F, BitVec.getElem_extractLsb', BitVec.getLsbD_append]
  interval_cases i <;> simp

@[simp] theorem fieldFunct_formatC0F : fieldFunct (formatC0F funct) = funct := by
  ext i hi; simp only [fieldFunct, formatC0F, BitVec.getElem_extractLsb', BitVec.getLsbD_append]; grind

@[simp] theorem fieldOp_formatCode : fieldOp (formatCode code funct) = 0 := by
  ext i hi; simp only [fieldOp, formatCode, BitVec.getElem_extractLsb', BitVec.getLsbD_append]; grind

@[simp] theorem fieldCode_formatCode : fieldCode (formatCode code funct) = code := by
  ext i hi; simp only [fieldCode, formatCode, BitVec.getElem_extractLsb', BitVec.getLsbD_append]; grind

@[simp] theorem fieldFunct_formatCode : fieldFunct (formatCode code funct) = funct := by
  ext i hi; simp only [fieldFunct, formatCode, BitVec.getElem_extractLsb', BitVec.getLsbD_append]; grind

end Fields

/-! ### A word from its fields -/

/-- A word whose bits 25:6 are those of format C0F has `10000` in bits 25:21. -/
theorem fieldRs_of_fieldCo {w : Word32} (h : fieldCo w = 0x80000) : fieldRs w = 0b10000 := by
  have e : fieldRs w = (fieldCo w).extractLsb' 15 5 := by
    ext i hi; simp only [fieldRs, fieldCo, BitVec.getElem_extractLsb', BitVec.getLsbD_extractLsb']; grind
  rw [e, h]; decide

theorem formatR_fields {w : Word32} (h : fieldOp w = 0) :
    formatR (fieldRs w) (fieldRt w) (fieldRd w) (fieldSa w) (fieldFunct w) = w := by
  unfold formatR
  rw [show (0#6) = fieldOp w from h.symm]
  apply BitVec.eq_of_getLsbD_eq
  intro i hi
  simp only [fieldOp, fieldRs, fieldRt, fieldRd, fieldSa, fieldFunct, BitVec.getLsbD_append, BitVec.getLsbD_extractLsb']
  grind

theorem formatI_fields (w : Word32) : formatI (fieldOp w) (fieldRs w) (fieldRt w) (fieldOffset w) = w := by
  unfold formatI
  apply BitVec.eq_of_getLsbD_eq
  intro i hi
  simp only [fieldOp, fieldRs, fieldRt, fieldOffset, BitVec.getLsbD_append, BitVec.getLsbD_extractLsb']
  grind

theorem formatC0M_fields {w : Word32} (h : fieldOp w = 0b010000) (z : fieldLow11 w = 0) :
    formatC0M (fieldRs w) (fieldRt w) (fieldRd w) = w := by
  unfold formatC0M
  rw [show (0b010000#6) = fieldOp w from h.symm, show (0#11) = fieldLow11 w from z.symm]
  apply BitVec.eq_of_getLsbD_eq
  intro i hi
  simp only [fieldOp, fieldRs, fieldRt, fieldRd, fieldLow11, BitVec.getLsbD_append, BitVec.getLsbD_extractLsb']
  grind

theorem formatC0F_fields {w : Word32} (h : fieldOp w = 0b010000) (z : fieldCo w = 0x80000) :
    formatC0F (fieldFunct w) = w := by
  have e : formatC0F (fieldFunct w) = 0b010000#6 ++ 0x80000#20 ++ fieldFunct w := by
    apply BitVec.eq_of_getLsbD_eq
    intro i hi
    simp only [formatC0F, BitVec.getLsbD_append]
    interval_cases i <;> simp
  rw [e, show (0b010000#6) = fieldOp w from h.symm, show (0x80000#20) = fieldCo w from z.symm]
  apply BitVec.eq_of_getLsbD_eq
  intro i hi
  simp only [fieldOp, fieldCo, fieldFunct, BitVec.getLsbD_append, BitVec.getLsbD_extractLsb']
  grind

theorem formatCode_fields {w : Word32} (h : fieldOp w = 0) : formatCode (fieldCode w) (fieldFunct w) = w := by
  unfold formatCode
  rw [show (0#6) = fieldOp w from h.symm]
  apply BitVec.eq_of_getLsbD_eq
  intro i hi
  simp only [fieldOp, fieldCode, fieldFunct, BitVec.getLsbD_append, BitVec.getLsbD_extractLsb']
  grind

/-- A field that a row's mask covers whole is the field of the row's match. -/
theorem extract_of_masked {w mask value : Word32} {a b : Nat} (h : w &&& mask = value)
    (full : mask.extractLsb' a b = BitVec.allOnes b) : w.extractLsb' a b = value.extractLsb' a b := by
  have e : (w &&& mask).extractLsb' a b = w.extractLsb' a b &&& mask.extractLsb' a b := by ext i hi; simp
  rw [← h, e, full, BitVec.and_allOnes]

/-! ### The word of its bytes (20_memory.md R106) -/

@[simp] theorem wordBytes_length (big : Bool) (w : Word32) : (wordBytes big w).length = 4 := by
  cases big <;> rfl

theorem assembleWord_extract (w : Word32) :
    assembleWord true (w.extractLsb' 24 8) (w.extractLsb' 16 8) (w.extractLsb' 8 8) (w.extractLsb' 0 8) = w := by
  apply BitVec.eq_of_getLsbD_eq
  intro i hi
  simp only [assembleWord, if_true, BitVec.getLsbD_append, BitVec.getLsbD_extractLsb']
  grind

/-- Laying a word out in a byte order and reading it back in the same order gives the word. -/
@[simp] theorem decodeBytes_wordBytes (big : Bool) (w : Word32) : decodeBytes big (wordBytes big w) = decode w := by
  cases big
  · simpa [decodeBytes, wordBytes, assembleWord] using congrArg decode (assembleWord_extract w)
  · simpa [decodeBytes, wordBytes] using congrArg decode (assembleWord_extract w)

end Sys2Proof
end

