-- ==== Sys2Proof/Laws/Memory.lean ====
section
/-! SUPPORT. The laws of memory as a list: reading after a write, and the canonical form. -/

namespace Sys2Proof.Machine

/-! ### The listed bytes -/

@[simp] theorem find?_put_same (m : Memory) (x : Nat) (b : Byte) : Memory.find? (Memory.put m x b) x = some b := by
  induction m with
  | nil => simp [Memory.put, Memory.find?]
  | cons c m ih =>
    obtain ⟨a, d⟩ := c
    simp only [Memory.put]
    split
    · simp [Memory.find?]
    · split
      · simp [Memory.find?]
      · rw [Memory.find?, if_neg (by omega), ih]

theorem find?_put_other (m : Memory) {x y : Nat} (b : Byte) (h : y ≠ x) :
    Memory.find? (Memory.put m x b) y = Memory.find? m y := by
  induction m with
  | nil => simp [Memory.put, Memory.find?, Ne.symm h]
  | cons c m ih =>
    obtain ⟨a, d⟩ := c
    simp only [Memory.put]
    split
    · rw [Memory.find?, if_neg (Ne.symm h)]
    · split
      · next e => simp [Memory.find?, ← e, Ne.symm h]
      · simp only [Memory.find?, ih]

/-- A write of several bytes leaves every other address alone. -/
theorem find?_putAll_outside (m : Memory) (x : Nat) (bs : List Byte) {y : Nat} (h : y < x ∨ x + bs.length ≤ y) :
    Memory.find? (Memory.putAll m x bs) y = Memory.find? m y := by
  induction bs generalizing m x with
  | nil => rfl
  | cons b bs ih =>
    simp only [List.length_cons] at h
    rw [Memory.putAll, ih _ _ (by omega), find?_put_other _ _ (by omega)]

/-- A write of several bytes is read back byte by byte. -/
theorem find?_putAll_inside (m : Memory) (x : Nat) (bs : List Byte) {i : Nat} (h : i < bs.length) :
    Memory.find? (Memory.putAll m x bs) (x + i) = some bs[i] := by
  induction bs generalizing m x i with
  | nil => simp at h
  | cons b bs ih =>
    rw [Memory.putAll]
    cases i with
    | zero => simp [find?_putAll_outside _ _ _ (Or.inl (Nat.lt_succ_self x))]
    | succ i =>
      rw [show x + (i + 1) = x + 1 + i by omega, ih _ _ (by simpa using h)]
      simp

/-! ### The canonical form -/

theorem memory_wf_tail {c : Host.Cell} {m : Memory} (h : Memory.wf (c :: m) = true) : Memory.wf m = true := by
  cases m with
  | nil => rfl
  | cons d m => simp [Memory.wf] at h; exact h.2

theorem memory_wf_cons {c : Host.Cell} {m : Memory} (h : Memory.wf m = true)
    (l : ∀ d ∈ m.head?, c.1 < d.1) : Memory.wf (c :: m) = true := by
  cases m with
  | nil => rfl
  | cons d m => simp [Memory.wf, h, l d (by simp)]

theorem memory_head?_put (m : Memory) (x : Nat) (b : Byte) :
    ∀ d ∈ (Memory.put m x b).head?, d.1 = x ∨ ∃ c ∈ m.head?, c.1 = d.1 := by
  cases m with
  | nil => simp [Memory.put]
  | cons c m =>
    obtain ⟨a, e⟩ := c
    simp only [Memory.put]
    split
    · simp
    · split <;> simp

/-- Every write of a byte keeps the canonical form. -/
theorem memory_wf_put {m : Memory} (x : Nat) (b : Byte) (h : Memory.wf m = true) :
    Memory.wf (Memory.put m x b) = true := by
  induction m with
  | nil => rfl
  | cons c m ih =>
    obtain ⟨a, e⟩ := c
    simp only [Memory.put]
    split
    · next l => exact memory_wf_cons h (by simpa using l)
    · split
      · next q => subst q; cases m with
        | nil => rfl
        | cons d m => simpa [Memory.wf] using h
      · next l q =>
        refine memory_wf_cons (ih (memory_wf_tail h)) fun d hd => ?_
        rcases memory_head?_put m x b d hd with e1 | ⟨c, hc, e2⟩
        · show a < d.1; omega
        · cases m with
          | nil => simp at hc
          | cons d' m =>
            simp [Memory.wf] at h
            simp at hc; subst hc
            show a < d.1
            omega

theorem memory_wf_putAll {m : Memory} (x : Nat) (bs : List Byte) (h : Memory.wf m = true) :
    Memory.wf (Memory.putAll m x bs) = true := by
  induction bs generalizing m x with
  | nil => exact h
  | cons b bs ih => exact ih _ (memory_wf_put x b h)

theorem memory_wf_iff {m : Memory} : Memory.wf m = true ↔ m.Pairwise (fun c d => c.1 < d.1) := by
  induction m with
  | nil => simp [Memory.wf]
  | cons c m ih =>
    cases m with
    | nil => simp [Memory.wf]
    | cons d m =>
      rw [Memory.wf, Bool.and_eq_true, decide_eq_true_eq, ih, List.pairwise_cons (a := c)]
      refine ⟨fun ⟨first, rest⟩ => ⟨fun e he => ?_, rest⟩, fun h => ⟨h.1 d (by simp), h.2⟩⟩
      cases he with
      | head => exact first
      | tail _ he => exact lt_trans first ((List.pairwise_cons.1 rest).1 e he)

/-- Dropping bytes keeps the canonical form. -/
theorem memory_wf_filter {m : Memory} (p : Host.Cell → Bool) (h : Memory.wf m = true) : Memory.wf (m.filter p) = true :=
  memory_wf_iff.2 ((memory_wf_iff.1 h).filter p)

/-- Dropping the bytes of some addresses: the others read as before. -/
theorem find?_filter (m : Memory) (p : Nat → Bool) (x : Nat) :
    Memory.find? (m.filter (fun c => p c.1)) x = if p x then Memory.find? m x else none := by
  induction m with
  | nil => simp [Memory.find?]
  | cons c m ih =>
    obtain ⟨a, b⟩ := c
    rw [List.filter_cons]
    cases hp : p a <;> by_cases e : a = x
    · subst e; simp [ih, hp]
    · simp [ih, Memory.find?, e]
    · subst e; simp [Memory.find?, hp]
    · simp [ih, Memory.find?, e]

/-! ### Sets of addresses -/

@[simp] theorem mem_addAddress {as : List Nat} {x a : Nat} : a ∈ addAddress as x ↔ a = x ∨ a ∈ as := by
  induction as with
  | nil => simp [addAddress]
  | cons b as ih =>
    simp only [addAddress]
    split
    · simp
    · split
      · next e => subst e; simp
      · simp only [List.mem_cons, ih]; tauto

theorem mem_addAddresses {as : List Nat} {x n a : Nat} :
    a ∈ addAddresses as x n ↔ (x ≤ a ∧ a < x + n) ∨ a ∈ as := by
  induction n generalizing as x with
  | zero => simp [addAddresses]
  | succ n ih =>
    rw [addAddresses, ih, mem_addAddress, ← or_assoc]
    apply or_congr_left
    omega

theorem addressesWf_iff {as : List Nat} : addressesWf as = true ↔ as.Pairwise (· < ·) := by
  induction as with
  | nil => simp [addressesWf]
  | cons a l ih =>
    cases l with
    | nil => simp [addressesWf]
    | cons b l =>
      rw [addressesWf, Bool.and_eq_true, decide_eq_true_eq, ih, List.pairwise_cons (a := a)]
      constructor
      · rintro ⟨h1, h2⟩
        refine ⟨fun c hc => ?_, h2⟩
        rcases List.mem_cons.1 hc with rfl | hc
        · exact h1
        · exact lt_trans h1 ((List.pairwise_cons.1 h2).1 c hc)
      · exact fun h => ⟨h.1 b (by simp), h.2⟩

theorem addressesWf_addAddress {as : List Nat} (x : Nat) (h : addressesWf as = true) :
    addressesWf (addAddress as x) = true := by
  rw [addressesWf_iff] at h ⊢
  induction as with
  | nil => simp [addAddress]
  | cons a as ih =>
    have ⟨h1, h2⟩ := List.pairwise_cons.1 h
    simp only [addAddress]
    split
    · next l =>
      refine List.pairwise_cons.2 ⟨fun c hc => ?_, h⟩
      rcases List.mem_cons.1 hc with rfl | hc
      · exact l
      · exact lt_trans l (h1 c hc)
    · split
      · exact h
      · refine List.pairwise_cons.2 ⟨fun c hc => ?_, ih h2⟩
        rcases mem_addAddress.1 hc with rfl | hc
        · omega
        · exact h1 c hc

theorem addressesWf_addAddresses {as : List Nat} (x n : Nat) (h : addressesWf as = true) :
    addressesWf (addAddresses as x n) = true := by
  induction n generalizing as x with
  | zero => exact h
  | succ n ih => exact ih _ (addressesWf_addAddress x h)

theorem addressesWf_filter {as : List Nat} (p : Nat → Bool) (h : addressesWf as = true) :
    addressesWf (as.filter p) = true := by
  rw [addressesWf_iff] at h ⊢
  exact h.filter p

/-! ### Reading bytes and words -/

theorem readByte_of_find? {s : State} {a : Nat} {b : Byte} (h : Memory.find? s.mem a = some b) : s.readByte a = b := by
  simp [State.readByte, h]

/-- Reads look at the listed bytes and at the epoch only. -/
theorem readByte_congr {s t : State} {a : Nat} (h : Memory.find? t.mem a = Memory.find? s.mem a)
    (e : t.memEpoch = s.memEpoch) : t.readByte a = s.readByte a := by
  simp [State.readByte, h, e]

/-- A word written in a byte order is read back in that order. -/
theorem readWord_putAll {t : State} (m : Memory) (big : Bool) (pa : Nat) (w : Word32)
    (h : t.mem = Memory.putAll m pa (wordBytes big w)) : t.readWord big pa = w := by
  have r : ∀ i (hi : i < (wordBytes big w).length), t.readByte (pa + i) = (wordBytes big w)[i] := fun i hi =>
    readByte_of_find? (by rw [h]; exact find?_putAll_inside m pa _ hi)
  have r0 := r 0 (by simp)
  have r1 := r 1 (by simp)
  have r2 := r 2 (by simp)
  have r3 := r 3 (by simp)
  simp only [Nat.add_zero] at r0
  rw [State.readWord, r0, r1, r2, r3]
  cases big
  · simpa [wordBytes, assembleWord] using assembleWord_extract w
  · simpa [wordBytes] using assembleWord_extract w

end Sys2Proof.Machine
end

