-- ==== Sys2Proof/Laws/State.lean ====
section
/-! SUPPORT. What the operations over the whole state leave in each field: one lemma per field, each true by unfolding, so
that no later proof unfolds a record update. -/

namespace Sys2Proof.Machine

/-! ### Completing an instruction: `State.retire` -/

section Retire
variable (s : State) (u : Update)

@[simp] theorem retire_cfg : (s.retire u).cfg = s.cfg := rfl
@[simp] theorem retire_memEpoch : (s.retire u).memEpoch = s.memEpoch := rfl
@[simp] theorem retire_extInt : (s.retire u).extInt = s.extInt := rfl
@[simp] theorem retire_ibe : (s.retire u).ibe = s.ibe := rfl
@[simp] theorem retire_dbe : (s.retire u).dbe = s.dbe := rfl
@[simp] theorem retire_tlb : (s.retire u).tlb = s.tlb := rfl
@[simp] theorem retire_schedule : (s.retire u).schedule = s.schedule := rfl
@[simp] theorem retire_draws : (s.retire u).draws = s.draws + 1 := rfl
@[simp] theorem retire_loadReg : (s.retire u).loadReg = if s.cfg.loadDelay then u.loaded else none := rfl
@[simp] theorem retire_hazards :
    (s.retire u).hazards = openHazard s u.cp0 ++ s.hazards.filterMap (ageHazard u.cp0) := rfl

theorem retire_gprs_none (h : u.gpr = none) : (s.retire u).gprs = s.gprs := by simp [State.retire, h]
theorem retire_gprs_some {r : RegNum} {v : Word} (h : u.gpr = some (r, v)) :
    (s.retire u).gprs = putGpr s.cfg s.gprs r v := by simp [State.retire, h]
theorem retire_mem_none (h : u.store = none) : (s.retire u).mem = s.mem := by simp [State.retire, h]
theorem retire_mem_some {pa : Nat} {b : List Byte} (h : u.store = some (pa, b)) :
    (s.retire u).mem = Memory.putAll s.mem pa b := by simp [State.retire, h]
theorem retire_written_none (h : u.store = none) : (s.retire u).written = s.written := by simp [State.retire, h]
theorem retire_written_some {pa : Nat} {b : List Byte} (h : u.store = some (pa, b)) :
    (s.retire u).written = addAddresses s.written pa b.length := by simp [State.retire, h]
theorem retire_cp0_none (h : u.cp0 = none) (l : u.breakLink = false) : (s.retire u).cp0 = s.cp0 := by
  simp [State.retire, h, l]
theorem retire_cp0_some {w : Cp0Write} (h : u.cp0 = some w) (l : u.breakLink = false) :
    (s.retire u).cp0 = applyCp0Write s w := by simp [State.retire, h, l]
/-- A flow to the next instruction or to a delay slot moves to `npc`. -/
theorem retire_pc_of_ne_jump (h : ∀ t, u.flow ≠ .jump t) : (s.retire u).pc = s.npc := by
  cases e : u.flow with
  | jump t => exact absurd e (h t)
  | next => simp [State.retire, e]
  | delayed t => simp [State.retire, e]
theorem retire_next (h : u.flow = .next) :
    (s.retire u).pc = s.npc ∧ (s.retire u).npc = s.cfg.norm (s.npc + 4) ∧ (s.retire u).inDelay = false := by
  simp [State.retire, h]
theorem retire_delayed {t : Word} (h : u.flow = .delayed t) :
    (s.retire u).pc = s.npc ∧ (s.retire u).npc = t ∧ (s.retire u).inDelay = true := by
  simp [State.retire, h]
theorem retire_jump {t : Word} (h : u.flow = .jump t) :
    (s.retire u).pc = t ∧ (s.retire u).npc = s.cfg.norm (t + 4) ∧ (s.retire u).inDelay = false := by
  simp [State.retire, h]

end Retire

/-! ### Taking an exception: `enter` -/

section Enter
variable (e : Exc) (note : Note) (s : State)

@[simp] theorem enter_cfg : (enter e note s).cfg = s.cfg := rfl
@[simp] theorem enter_gprs : (enter e note s).gprs = s.gprs := rfl
@[simp] theorem enter_mem : (enter e note s).mem = s.mem := rfl
@[simp] theorem enter_memEpoch : (enter e note s).memEpoch = s.memEpoch := rfl
@[simp] theorem enter_written : (enter e note s).written = s.written := rfl
@[simp] theorem enter_extInt : (enter e note s).extInt = s.extInt := rfl
@[simp] theorem enter_tlb : (enter e note s).tlb = s.tlb := rfl
@[simp] theorem enter_schedule : (enter e note s).schedule = s.schedule := rfl
@[simp] theorem enter_pc : (enter e note s).pc = s.vector e := rfl
@[simp] theorem enter_npc : (enter e note s).npc = s.cfg.norm (s.vector e + 4) := rfl
@[simp] theorem enter_inDelay : (enter e note s).inDelay = false := rfl
@[simp] theorem enter_ibe : (enter e note s).ibe = (s.ibe && note != .fetchBusError) := rfl
@[simp] theorem enter_dbe : (enter e note s).dbe = (s.dbe && note != .loadBusError) := rfl
@[simp] theorem enter_hazards : (enter e note s).hazards = [] := rfl
@[simp] theorem enter_loadReg : (enter e note s).loadReg = none := rfl
@[simp] theorem enter_draws : (enter e note s).draws = s.draws + 1 := rfl
@[simp] theorem enter_sr : (enter e note s).cp0.sr = s.srOnEntry note := rfl
@[simp] theorem enter_cause : (enter e note s).cp0.cause = s.causeOnEntry e := rfl
@[simp] theorem enter_epc : (enter e note s).cp0.epc = if s.nested then s.cp0.epc else s.restartPc := rfl
@[simp] theorem enter_badVaddr :
    (enter e note s).cp0.badVaddr = s.cfg.norm (e.badVa.getD (Config.draw s.draws .exceptionBadVaddr 64)) := rfl
@[simp] theorem enter_errorEpc : (enter e note s).cp0.errorEpc = s.cp0.errorEpc := rfl
@[simp] theorem enter_count : (enter e note s).cp0.count = s.cp0.count := rfl
@[simp] theorem enter_compare : (enter e note s).cp0.compare = s.cp0.compare := rfl
@[simp] theorem enter_timerPending : (enter e note s).cp0.timerPending = s.cp0.timerPending := rfl
@[simp] theorem enter_config : (enter e note s).cp0.config = s.cp0.config := rfl
@[simp] theorem enter_watchLo : (enter e note s).cp0.watchLo = s.cp0.watchLo := rfl
@[simp] theorem enter_watchHi : (enter e note s).cp0.watchHi = s.cp0.watchHi := rfl
@[simp] theorem enter_llAddr : (enter e note s).cp0.llAddr = s.cp0.llAddr := rfl
@[simp] theorem enter_llBit : (enter e note s).cp0.llBit = s.cp0.llBit := rfl

end Enter

/-! ### The old view of a hazard window: `seeOld` -/

section SeeOld
variable (h : Hazard) (s : State)

@[simp] theorem seeOld_cfg : (seeOld h s).cfg = s.cfg := rfl
@[simp] theorem seeOld_gprs : (seeOld h s).gprs = s.gprs := rfl
@[simp] theorem seeOld_pc : (seeOld h s).pc = s.pc := rfl
@[simp] theorem seeOld_npc : (seeOld h s).npc = s.npc := rfl
@[simp] theorem seeOld_inDelay : (seeOld h s).inDelay = s.inDelay := rfl
@[simp] theorem seeOld_mem : (seeOld h s).mem = s.mem := rfl
@[simp] theorem seeOld_memEpoch : (seeOld h s).memEpoch = s.memEpoch := rfl
@[simp] theorem seeOld_written : (seeOld h s).written = s.written := rfl
@[simp] theorem seeOld_extInt : (seeOld h s).extInt = s.extInt := rfl
@[simp] theorem seeOld_ibe : (seeOld h s).ibe = s.ibe := rfl
@[simp] theorem seeOld_dbe : (seeOld h s).dbe = s.dbe := rfl
@[simp] theorem seeOld_tlb : (seeOld h s).tlb = s.tlb := rfl
@[simp] theorem seeOld_hazards : (seeOld h s).hazards = s.hazards := rfl
@[simp] theorem seeOld_loadReg : (seeOld h s).loadReg = s.loadReg := rfl
@[simp] theorem seeOld_schedule : (seeOld h s).schedule = s.schedule := rfl
@[simp] theorem seeOld_draws : (seeOld h s).draws = s.draws := rfl

end SeeOld

/-! ### The timer's tick -/

section Tick
variable (s : State)

@[simp] theorem timerTick_cfg : (timerTick s).cfg = s.cfg := rfl
@[simp] theorem timerTick_gprs : (timerTick s).gprs = s.gprs := rfl
@[simp] theorem timerTick_pc : (timerTick s).pc = s.pc := rfl
@[simp] theorem timerTick_npc : (timerTick s).npc = s.npc := rfl
@[simp] theorem timerTick_inDelay : (timerTick s).inDelay = s.inDelay := rfl
@[simp] theorem timerTick_mem : (timerTick s).mem = s.mem := rfl
@[simp] theorem timerTick_memEpoch : (timerTick s).memEpoch = s.memEpoch := rfl
@[simp] theorem timerTick_written : (timerTick s).written = s.written := rfl
@[simp] theorem timerTick_extInt : (timerTick s).extInt = s.extInt := rfl
@[simp] theorem timerTick_ibe : (timerTick s).ibe = s.ibe := rfl
@[simp] theorem timerTick_dbe : (timerTick s).dbe = s.dbe := rfl
@[simp] theorem timerTick_tlb : (timerTick s).tlb = s.tlb := rfl
@[simp] theorem timerTick_loadReg : (timerTick s).loadReg = s.loadReg := rfl
@[simp] theorem timerTick_schedule : (timerTick s).schedule = s.schedule := rfl
@[simp] theorem timerTick_sr : (timerTick s).cp0.sr = s.cp0.sr := rfl
@[simp] theorem timerTick_cause : (timerTick s).cp0.cause = s.cp0.cause := rfl
@[simp] theorem timerTick_epc : (timerTick s).cp0.epc = s.cp0.epc := rfl
@[simp] theorem timerTick_badVaddr : (timerTick s).cp0.badVaddr = s.cp0.badVaddr := rfl
@[simp] theorem timerTick_errorEpc : (timerTick s).cp0.errorEpc = s.cp0.errorEpc := rfl
@[simp] theorem timerTick_compare : (timerTick s).cp0.compare = s.cp0.compare := rfl
@[simp] theorem timerTick_config : (timerTick s).cp0.config = s.cp0.config := rfl
@[simp] theorem timerTick_watchLo : (timerTick s).cp0.watchLo = s.cp0.watchLo := rfl
@[simp] theorem timerTick_watchHi : (timerTick s).cp0.watchHi = s.cp0.watchHi := rfl
@[simp] theorem timerTick_llAddr : (timerTick s).cp0.llAddr = s.cp0.llAddr := rfl
@[simp] theorem timerTick_llBit : (timerTick s).cp0.llBit = s.cp0.llBit := rfl
@[simp] theorem timerTick_count : (timerTick s).cp0.count = s.cp0.count + 1 := rfl
@[simp] theorem timerTick_timerPending :
    (timerTick s).cp0.timerPending = (s.cp0.timerPending || s.tickRaises) := rfl
@[simp] theorem timerTick_hazards : (timerTick s).hazards = s.hazards.map (tickHazard s) := rfl

end Tick

/-! ### Resets -/

section Resets
variable (s : State)

@[simp] theorem softReset_cfg : (softReset s).cfg = s.cfg := rfl
@[simp] theorem softReset_gprs : (softReset s).gprs = s.gprs := rfl
@[simp] theorem softReset_mem : (softReset s).mem = s.mem := rfl
@[simp] theorem softReset_memEpoch : (softReset s).memEpoch = s.memEpoch := rfl
@[simp] theorem softReset_written : (softReset s).written = s.written := rfl
@[simp] theorem softReset_extInt : (softReset s).extInt = s.extInt := rfl
@[simp] theorem softReset_ibe : (softReset s).ibe = s.ibe := rfl
@[simp] theorem softReset_dbe : (softReset s).dbe = s.dbe := rfl
@[simp] theorem softReset_tlb : (softReset s).tlb = s.tlb := rfl
@[simp] theorem softReset_schedule : (softReset s).schedule = s.schedule := rfl
@[simp] theorem softReset_cause : (softReset s).cp0.cause = s.cp0.cause := rfl
@[simp] theorem softReset_epc : (softReset s).cp0.epc = s.cp0.epc := rfl
@[simp] theorem softReset_badVaddr : (softReset s).cp0.badVaddr = s.cp0.badVaddr := rfl
@[simp] theorem softReset_count : (softReset s).cp0.count = s.cp0.count := rfl
@[simp] theorem softReset_compare : (softReset s).cp0.compare = s.cp0.compare := rfl
@[simp] theorem softReset_timerPending : (softReset s).cp0.timerPending = s.cp0.timerPending := rfl
@[simp] theorem softReset_config : (softReset s).cp0.config = s.cp0.config := rfl
@[simp] theorem softReset_watchLo : (softReset s).cp0.watchLo = s.cp0.watchLo := rfl
@[simp] theorem softReset_watchHi : (softReset s).cp0.watchHi = s.cp0.watchHi := rfl
@[simp] theorem softReset_llAddr : (softReset s).cp0.llAddr = s.cp0.llAddr := rfl
@[simp] theorem softReset_llBit : (softReset s).cp0.llBit = s.cp0.llBit := rfl
@[simp] theorem softReset_sr : (softReset s).cp0.sr = srAfterSoftReset s := rfl
@[simp] theorem softReset_errorEpc : (softReset s).cp0.errorEpc = s.restartPc := rfl
@[simp] theorem softReset_pc : (softReset s).pc = s.cfg.sext s.cfg.vectors.reset := rfl
@[simp] theorem softReset_npc : (softReset s).npc = s.cfg.norm (s.cfg.sext s.cfg.vectors.reset + 4) := rfl
@[simp] theorem softReset_inDelay : (softReset s).inDelay = false := rfl
@[simp] theorem softReset_hazards : (softReset s).hazards = [] := rfl
@[simp] theorem softReset_loadReg : (softReset s).loadReg = none := rfl
@[simp] theorem hardReset_cfg : (hardReset s).cfg = s.cfg := by simp only [hardReset]
@[simp] theorem hardReset_written : (hardReset s).written = s.written := by simp only [hardReset]
@[simp] theorem hardReset_extInt : (hardReset s).extInt = s.extInt := by simp only [hardReset]
@[simp] theorem hardReset_ibe : (hardReset s).ibe = s.ibe := by simp only [hardReset]
@[simp] theorem hardReset_dbe : (hardReset s).dbe = s.dbe := by simp only [hardReset]
@[simp] theorem hardReset_tlb : (hardReset s).tlb = s.tlb := by simp only [hardReset]
@[simp] theorem hardReset_schedule : (hardReset s).schedule = s.schedule := by simp only [hardReset]
@[simp] theorem hardReset_mem : (hardReset s).mem = hardResetMemory s := by simp only [hardReset]
@[simp] theorem hardReset_memEpoch : (hardReset s).memEpoch = s.memEpoch + 1 := by simp only [hardReset]
@[simp] theorem hardReset_pc : (hardReset s).pc = s.cfg.sext s.cfg.vectors.reset := by simp only [hardReset]
@[simp] theorem hardReset_npc : (hardReset s).npc = s.cfg.norm (s.cfg.sext s.cfg.vectors.reset + 4) := by simp only [hardReset]
@[simp] theorem hardReset_inDelay : (hardReset s).inDelay = false := by simp only [hardReset]
@[simp] theorem hardReset_hazards : (hardReset s).hazards = [] := by simp only [hardReset]
@[simp] theorem hardReset_loadReg : (hardReset s).loadReg = none := by simp only [hardReset]
@[simp] theorem hardReset_sr :
    (hardReset s).cp0.sr = srAfterHardReset s.cfg (Config.draw s.draws .hardResetSr 32) := by simp only [hardReset]
@[simp] theorem hardReset_cause :
    (hardReset s).cp0.cause = causeAfterHardReset (Config.draw s.draws .hardResetCause 32) := by simp only [hardReset]
@[simp] theorem hardReset_epc :
    (hardReset s).cp0.epc = s.cfg.norm (Config.draw s.draws .hardResetEpc 64) := by simp only [hardReset]
@[simp] theorem hardReset_badVaddr :
    (hardReset s).cp0.badVaddr = s.cfg.norm (Config.draw s.draws .hardResetBadVaddr 64) := by simp only [hardReset]
@[simp] theorem hardReset_errorEpc :
    (hardReset s).cp0.errorEpc = s.cfg.norm (Config.draw s.draws .hardResetErrorEpc 64) := by simp only [hardReset]
@[simp] theorem hardReset_config :
    (hardReset s).cp0.config = configAfterHardReset s.cfg (Config.draw s.draws .hardResetConfig 32) := by simp only [hardReset]
@[simp] theorem hardReset_watchLo :
    (hardReset s).cp0.watchLo = watchLoValue (Config.draw s.draws .hardResetWatchLo 32) := by simp only [hardReset]
@[simp] theorem hardReset_watchHi :
    (hardReset s).cp0.watchHi = watchHiValue s.cfg (Config.draw s.draws .hardResetWatchHi 32) := by simp only [hardReset]
@[simp] theorem hardReset_gprs : (hardReset s).gprs = hardResetGprs s := by simp only [hardReset]

end Resets

end Sys2Proof.Machine
end

