-- ==== Sys2Proof/Laws/Ops.lean ====
section
/-! SUPPORT. For each shared operation, once, everything it can do: registers, completing and stopping (`finish`), the load-delay
and hazard rules (`resolve`, `commit`), the step. -/

namespace Sys2Proof.Machine

/-! ### Widths -/

@[simp] theorem norm_x64 {c : Config} (h : c.xlen = .x64) (v : Word) : c.norm v = v := by simp [Config.norm, h]
theorem norm_x32 {c : Config} (h : c.xlen = .x32) (v : Word) : c.norm v = zext64 (lo32 v) := by simp [Config.norm, h]

@[simp] theorem lo32_zext64 (v : Word32) : lo32 (zext64 v) = v := by simp [lo32, zext64]
@[simp] theorem lo32_signExtend (v : Word32) : lo32 (v.signExtend 64) = v := by
  apply BitVec.eq_of_getLsbD_eq; intro i hi; simp only [lo32, BitVec.getLsbD_setWidth, BitVec.getLsbD_signExtend]; grind

@[simp] theorem norm_norm (c : Config) (v : Word) : c.norm (c.norm v) = c.norm v := by
  cases h : c.xlen <;> simp [Config.norm, h]

@[simp] theorem norm_sext (c : Config) (v : Word32) : c.norm (c.sext v) = c.sext v := by
  cases h : c.xlen <;> simp [Config.norm, Config.sext, h]

@[simp] theorem lo32_norm (c : Config) (v : Word) : lo32 (c.norm v) = lo32 v := by
  cases h : c.xlen <;> simp [Config.norm, h]

@[simp] theorem lo32_sext (c : Config) (v : Word32) : lo32 (c.sext v) = v := by
  cases h : c.xlen <;> simp [Config.sext, h]

/-! ### General registers (10_state.md R20, R21) -/

@[simp] theorem readGpr_zero (s : State) : s.readGpr 0 = 0 := rfl

/-- Reading the register file after a write. -/
theorem readGpr_putGpr {s t : State} {d : RegNum} {v : Word} (h : t.gprs = putGpr s.cfg s.gprs d v) (r : RegNum) :
    t.readGpr r = if r = 0 then 0 else if r = d then s.cfg.norm v else s.readGpr r := by
  unfold State.readGpr
  split
  · rfl
  · next r0 =>
    simp only [h, putGpr]
    split
    · next d0 => subst d0; rw [if_neg r0]
    · split
      · next e => subst e; simp
      · next ne =>
        have : d.toNat ≠ r.toNat := fun e => ne (BitVec.eq_of_toNat_eq e.symm)
        simp [this]

theorem readGpr_congr {s t : State} (h : t.gprs = s.gprs) (r : RegNum) : t.readGpr r = s.readGpr r := by
  simp [State.readGpr, h]

theorem gprs_zero_putGpr (c : Config) (g : Vector Word 32) (r : RegNum) (v : Word) : (putGpr c g r v)[0] = g[0] := by
  unfold putGpr
  split
  · rfl
  · next h =>
    have : r.toNat ≠ 0 := fun e => h (BitVec.eq_of_toNat_eq e)
    simp [this]

/-! ### Completing and stopping -/

/-- Everything an effect can do when it gives a next state. -/
theorem finish_next {f : Effect} {s t : State} :
    finish f s = .next t ↔
      (∃ u, f = .done u ∧ s.wraps u.flow = false ∧ t = s.retire u) ∨
      (∃ e n, f = .stop (.raise e n) ∧ t = enter e n s) := by
  cases f with
  | done u =>
    cases h : s.wraps u.flow
    · simp only [finish, h]
      constructor
      · intro e; exact .inl ⟨u, rfl, h, by simpa using e.symm⟩
      · rintro (⟨_, e, -, rfl⟩ | ⟨_, _, e, -⟩)
        · cases e; rfl
        · cases e
    · simp only [finish, h]
      constructor
      · intro e; cases e
      · rintro (⟨_, e, h', -⟩ | ⟨_, _, e, -⟩)
        · cases e; rw [h] at h'; cases h'
        · cases e
  | stop x =>
    cases x with
    | raise e n =>
      simp only [finish]
      constructor
      · intro h; cases h; exact .inr ⟨e, n, rfl, rfl⟩
      · rintro (⟨_, e, -⟩ | ⟨_, _, e, rfl⟩)
        · cases e
        · cases e; rfl
    | refuse r => simp [finish]
    | fault r => simp [finish]

@[simp] theorem finish_raise (e : Exc) (n : Note) (s : State) : finish (.stop (.raise e n)) s = .next (enter e n s) := rfl
@[simp] theorem finish_refuse (r : Refusal) (s : State) : finish (.stop (.refuse r)) s = .refused r := rfl
@[simp] theorem finish_fault (r : Fault) (s : State) : finish (.stop (.fault r)) s = .fault r := rfl
theorem finish_done {u : Update} {s : State} (h : s.wraps u.flow = false) : finish (.done u) s = .next (s.retire u) := by
  simp [finish, h]

theorem inMode_some {eff : Mode → State → Effect} {s : State} {m : Mode} (h : s.mode = some m) :
    inMode eff s = eff m s := by simp [inMode, h]

/-- What it takes for an instruction to do the same in a view: the same effect, and of an exception the same entry but for the
column of SR.BEV (R294). -/
theorem sameIn_iff {eff : Mode → State → Effect} {s v : State} :
    sameIn eff s v = true ↔ inMode eff v = inMode eff s ∧
      ∀ e n, inMode eff s = .stop (.raise e n) → v.entryReads e = s.entryReads e := by
  unfold sameIn
  rw [Bool.and_eq_true, decide_eq_true_eq, and_congr_right_iff]
  intro _
  cases inMode eff s with
  | done u => simp
  | stop x => cases x <;> simp [Stop.alike]

/-- What the load-delay and hazard rules leave of an effect: the effect of the current mode, or one of three refusals. -/
theorem resolve_cases (src : List RegNum) (eff : Mode → State → Effect) (s : State) :
    (∃ m, s.mode = some m ∧ resolve src eff s = eff m s) ∨ ∃ r, resolve src eff s = .stop (.refuse r) := by
  unfold resolve
  split
  · exact .inr ⟨_, rfl⟩
  · split
    · cases h : s.mode with
      | none => exact .inr ⟨.reservedMode, by simp [inMode, h, Effect.refuse]⟩
      | some m => exact .inl ⟨m, rfl, inMode_some h⟩
    · exact .inr ⟨_, rfl⟩

/-- Outside the reach of the load-delay and hazard rules the effect is that of the mode. -/
theorem resolve_settled {src : List RegNum} {eff : Mode → State → Effect} {s : State} {m : Mode} (h : s.mode = some m)
    (l : s.readsLoaded src = false) (w : ∀ v ∈ s.oldViews, sameIn eff s v = true) : resolve src eff s = eff m s := by
  unfold resolve
  rw [if_neg (by simp [l]), if_pos (by simpa using w), inMode_some h]

@[simp] theorem oldViews_nil {s : State} (h : s.hazards = []) : s.oldViews = [] := by
  simp [State.oldViews, h, views]

theorem commit_settled {src : List RegNum} {eff : Mode → State → Effect} {s : State} {m : Mode} (h : s.mode = some m)
    (l : s.readsLoaded src = false) (w : ∀ v ∈ s.oldViews, sameIn eff s v = true) :
    commit src eff s = finish (eff m s) s := by
  rw [commit, resolve_settled h l w]

/-- Everything a meaning can do when it gives a next state: its update in the current mode, or the entry of an exception it
raises in the current mode. -/
theorem commit_next {src : List RegNum} {eff : Mode → State → Effect} {s t : State} (h : commit src eff s = .next t) :
    ∃ m, s.mode = some m ∧
      ((∃ u, eff m s = .done u ∧ s.wraps u.flow = false ∧ t = s.retire u) ∨
       (∃ e n, eff m s = .stop (.raise e n) ∧ t = enter e n s)) := by
  unfold commit at h
  rcases resolve_cases src eff s with ⟨m, hm, hr⟩ | ⟨r, hr⟩
  · rw [hr, finish_next] at h
    exact ⟨m, hm, h⟩
  · simp [hr] at h

/-- `exec` is `commit` of the instruction's effect. -/
theorem exec_eq (i : Instr) (s : State) : exec i s = commit (sources i) (effect i) s := by
  cases i <;> rfl

/-- Everything `exec` can do when it gives a next state. -/
theorem exec_next {i : Instr} {s t : State} (h : exec i s = .next t) :
    ∃ m, s.mode = some m ∧
      ((∃ u, effect i m s = .done u ∧ s.wraps u.flow = false ∧ t = s.retire u) ∨
       (∃ e n, effect i m s = .stop (.raise e n) ∧ t = enter e n s)) :=
  commit_next (exec_eq i s ▸ h)

/-! ### The views of the hazard windows differ in CP0 only -/

theorem views_same (hs : List Hazard) (s : State) : ∀ v ∈ views hs s, { v with cp0 := s.cp0 } = s := by
  induction hs with
  | nil => simp [views]
  | cons h hs ih =>
    intro v hv
    simp only [views, List.mem_append, List.mem_map] at hv
    rcases hv with hv | ⟨v', hv', rfl⟩
    · exact ih v hv
    · exact ih v' hv'

theorem oldViews_same {s v : State} (h : v ∈ s.oldViews) : { v with cp0 := s.cp0 } = s :=
  views_same _ _ v (List.mem_of_mem_tail h)

/-- With one open window the only other view is the old one. -/
theorem oldViews_singleton {s : State} {h : Hazard} (e : s.hazards = [h]) : s.oldViews = [seeOld h s] := by
  simp [State.oldViews, e, views]

/-- When two states that differ in SR read the same of it on entry. -/
theorem entryReads_eq {s v : State} {e : Exc} (c : v.cfg = s.cfg) :
    v.entryReads e = s.entryReads e ↔ v.nested = s.nested ∧ v.vectorPair e = s.vectorPair e ∧
      (s.cfg.style = .r3000 → v.cp0.sr.extractLsb' 0 4 = s.cp0.sr.extractLsb' 0 4) := by
  unfold State.entryReads
  rw [c]
  cases s.cfg.style <;> simp

/-- What it takes for the fetch to give the same in a view (R294). -/
theorem sameFetch_iff {s v : State} :
    sameFetch s v = true ↔ v.fetchNow = s.fetchNow ∧
      ∀ e n, s.fetchNow = .stop (.raise e n) → v.entryReads e = s.entryReads e := by
  unfold sameFetch
  rw [Bool.and_eq_true, decide_eq_true_eq, and_congr_right_iff]
  intro _
  cases s.fetchNow with
  | word w => simp
  | stop x => cases x <;> simp [Stop.alike]

/-! ### The timer request -/

@[simp] theorem timerAfter_keep (s : State) : s.timerAfter .keep = s.cp0.timerPending := rfl
@[simp] theorem timerAfter_clear (s : State) : s.timerAfter .clear = false := rfl
@[simp] theorem timerAfter_mayRaise (s : State) :
    s.timerAfter .mayRaise = (s.cp0.timerPending || Config.draw s.draws .countWrite 1 == 1) := rfl

/-- A view of windows of Count alone: Compare as it is, Count as it is or as one of the windows has it. -/
theorem views_count {hs : List Hazard} {s v : State} (c : ∀ h ∈ hs, h.reg = .count) (hv : v ∈ views hs s) :
    v.cp0.compare = s.cp0.compare ∧ (v.cp0.count = s.cp0.count ∨ ∃ h ∈ hs, v.cp0.count = lo32 h.old) := by
  induction hs generalizing v with
  | nil => simp only [views, List.mem_singleton] at hv; subst hv; exact ⟨rfl, .inl rfl⟩
  | cons h hs ih =>
    have ih {v : State} := @ih v (fun x hx => c x (List.mem_cons_of_mem _ hx))
    simp only [views, List.mem_append, List.mem_map] at hv
    rcases hv with hv | ⟨u, hu, rfl⟩
    · obtain ⟨a, b | ⟨g, hg, b⟩⟩ := ih hv
      · exact ⟨a, .inl b⟩
      · exact ⟨a, .inr ⟨g, List.mem_cons_of_mem _ hg, b⟩⟩
    · have r := c h List.mem_cons_self
      refine ⟨?_, .inr ⟨h, List.mem_cons_self, ?_⟩⟩ <;> simp [seeOld, putCp0, r, (ih hu).1]

/-- The timer's comparison is fixed where the open windows of Count agree on it (R265, R294). -/
theorem tickRaises_eq {s : State}
    (h : ∀ w ∈ s.hazards, w.reg = .count → (lo32 w.old + 1 = s.cp0.compare ↔ s.cp0.count + 1 = s.cp0.compare)) :
    s.tickRaises = s.tickHits := by
  unfold State.tickRaises
  rw [if_pos]
  simp only [List.all_eq_true, decide_eq_true_eq, State.countViews]
  intro v hv
  obtain ⟨a, b | ⟨w, hw, b⟩⟩ := views_count (fun x hx => by simpa using (List.mem_filter.1 hx).2) hv
  · simp [State.tickHits, a, b]
  · have m := List.mem_filter.1 hw
    have := h w m.1 (by simpa using m.2)
    rw [Bool.eq_iff_iff]
    simpa [State.tickHits, a, b] using this

/-! ### Hard reset -/

/-- A byte after hard reset: a listed byte that the run has not stored to keeps its value, every other byte is free (R97, R284). -/
theorem readByte_hardReset (s : State) (a : Nat) :
    (hardReset s).readByte a =
      (if s.written.contains a then none else Memory.find? s.mem a).getD (Config.unwrittenByte (s.memEpoch + 1) a) := by
  rw [State.readByte, hardReset_mem, hardResetMemory, find?_filter s.mem (fun x => !s.written.contains x) a]
  cases s.written.contains a <;> simp [hardReset]

/-! ### The step -/

/-- Everything the CPU can do: an interrupt entry, the stop of a fetch, or the run of the fetched word. -/
theorem cpuStep_cases (s : State) :
    (s.takesInterrupt = true ∧ cpuStep s = .next (enter .int .none s)) ∨
    (s.takesInterrupt = false ∧ ∃ x, s.fetch = .stop x ∧ cpuStep s = finish (.stop x) s) ∨
    (s.takesInterrupt = false ∧ ∃ w, s.fetch = .word w ∧ cpuStep s = runWord w s) := by
  unfold cpuStep
  cases h : s.takesInterrupt with
  | true => simp
  | false => cases s.fetch <;> simp

/-- Everything a fetched word can do when it gives a next state. -/
theorem runWord_next {w : Word32} {s t : State} (h : runWord w s = .next t) :
    (∃ i, decode w = .instr i ∧ exec i s = .next t) ∨
    (∃ z m, decode w = .coprocessor z ∧ s.mode = some m ∧ effCoprocessor z m s = .stop (.raise (.cpu z) .none) ∧
      t = enter (.cpu z) .none s) := by
  unfold runWord at h
  cases d : decode w with
  | instr i => exact .inl ⟨i, rfl, by simpa [d] using h⟩
  | coprocessor z =>
    simp only [d, execCoprocessor] at h
    obtain ⟨m, hm, ⟨u, hu, -, -⟩ | ⟨e, n, he, ht⟩⟩ := commit_next h
    · unfold effCoprocessor at hu
      split at hu
      · simp [Effect.raise] at hu
      · split at hu <;> simp [Effect.refuse] at hu
    · refine .inr ⟨z, m, rfl, hm, ?_⟩
      have : e = .cpu z ∧ n = .none := by
        unfold effCoprocessor at he
        split at he
        · simp [Effect.raise] at he; exact ⟨he.1.symm, he.2.symm⟩
        · split at he <;> simp [Effect.refuse] at he
      obtain ⟨rfl, rfl⟩ := this
      exact ⟨he, ht⟩
  | unknown => simp [d] at h

/-- Everything a step can do when it gives a next state. -/
theorem step_next {s t : State} (h : step s = .next t) :
    (∃ rest, cpuStep { s with schedule := rest } = .next t) ∨
    (∃ mv rest, s.schedule = mv :: rest ∧ mv ≠ .cpu ∧ otherMove mv { s with schedule := rest } = .next t) := by
  unfold step agentStep at h
  cases e : s.schedule with
  | nil =>
    rw [e] at h
    exact .inl ⟨[], by rw [← e]; exact h⟩
  | cons mv rest =>
    rw [e] at h
    cases mv <;> first
      | exact .inl ⟨rest, h⟩
      | exact .inr ⟨_, rest, rfl, by simp, h⟩

end Sys2Proof.Machine
end

