-- ==== Sys2Proof/Laws/Meaning.lean ====
section
/-! SUPPORT. The shared operations in the terms of Safety.lean: an instruction that may execute does its effect; completing with a
register write, with a CP0 write or with neither; taking an exception. -/

namespace Sys2Proof.Machine

/-! ### An instruction that may execute -/

theorem exec_of_runs {i : Instr} {m : Mode} {s : State} (h : Runs i m s) : exec i s = finish (effect i m s) s := by
  rw [exec_eq, commit_settled h.mode h.loads h.windows]

theorem wraps_next {s : State} (h : StaysInSpace s) : s.wraps .next = false := by
  rcases h with h | h
  · simp [State.wraps, h]
  · have : (4 : Word) ≤ s.cfg.norm (s.pc + 4) := h
    simpa [State.wraps] using fun _ => this

theorem wraps_delayed {s : State} (t : Word) (h : StaysInSpace s) : s.wraps (.delayed t) = false := wraps_next h

@[simp] theorem wraps_jump (s : State) (t : Word) : s.wraps (.jump t) = false := rfl

theorem exec_done {i : Instr} {m : Mode} {s : State} {u : Update} (h : Runs i m s) (e : effect i m s = .done u)
    (w : s.wraps u.flow = false) : exec i s = .next (s.retire u) := by
  rw [exec_of_runs h, e, finish_done w]

theorem exec_raise {i : Instr} {m : Mode} {s : State} {e : Exc} {n : Note} (h : Runs i m s)
    (x : effect i m s = .stop (.raise e n)) : exec i s = .next (enter e n s) := by
  rw [exec_of_runs h, x]; rfl

theorem exec_refuse {i : Instr} {m : Mode} {s : State} {r : Refusal} (h : Runs i m s)
    (x : effect i m s = .stop (.refuse r)) : exec i s = .refused r := by
  rw [exec_of_runs h, x]; rfl

theorem cp0Usable_iff {s : State} {m : Mode} : s.cp0Usable m = true ↔ m = .kernel ∨ srCu s.cp0.sr 0 = true := by
  simp [State.cp0Usable]

/-- Without an open window and a load delay an instruction may execute in every legal mode. -/
theorem runs_of_settled {i : Instr} {m : Mode} {s : State} (h : s.mode = some m) (w : s.hazards = [])
    (l : s.loadReg = none) : Runs i m s :=
  ⟨h, by simp [State.readsLoaded, l], by simp [w]⟩

/-! ### Memory accesses -/

theorem wordProblem_none {c : Config} {pa : Nat} (h : pa + 4 ≤ 2 ^ c.paBits)
    (p : ∀ k, k < 4 → isPlain c (pa + k) = true) : wordProblem c pa = none := by
  have h0 := p 0 (by omega)
  have h1 := p 1 (by omega)
  have h2 := p 2 (by omega)
  have h3 := p 3 (by omega)
  rw [Nat.add_zero] at h0
  rw [wordProblem, if_neg (by omega), if_pos (by simp [h0, h1, h2, h3])]

/-- `DataAccess` when all its checks pass (20_memory.md R126). -/
theorem dataAccess_of_accessible {m : Mode} {kind : AccessKind} {va : Word} {pa : Nat} {s : State}
    (h : Accessible m kind va pa s) : s.dataAccess m kind 4 va = .ok pa := by
  obtain ⟨attr, ht⟩ := h.translated
  unfold State.dataAccess
  rw [if_neg (by simp [h.aligned]), if_neg, ht]
  · simp only [h.unwatched, Bool.false_eq_true, if_false]
    rw [if_neg]
    rintro ⟨a, b⟩
    simp [h.noBusError a] at b
  · rintro ⟨a, b⟩
    simp [h.notIsolated a] at b

/-- What `DataAccess` answers once the checks before translation pass. -/
theorem dataAccess_of_starts {a : WordAccess} {m : Mode} {s : State} (h : Starts a s) :
    s.dataAccess m a.kind 4 (a.address s) =
      match s.translate m a.kind (a.address s) with
      | .error x => .error x
      | .ok (pa, _) =>
        if s.watchMatch pa a.kind then .error (.raise .watch .none)
        else if a.kind = .load ∧ s.dbe then .error (.raise .dbe .loadBusError)
        else .ok pa := by
  have isolated : ¬ (s.cfg.style = .r3000 ∧ (srIsc s.cp0.sr = true ∨ srSwc s.cp0.sr = true)) := by
    rintro ⟨a, b⟩
    simp [h.notIsolated a] at b
  unfold State.dataAccess
  rw [if_neg (by simp [h.aligned]), if_neg isolated]
  all_goals cases s.translate m a.kind (a.address s) <;> rfl

/-- A load or store that `DataAccess` stops stops so. -/
theorem effect_of_dataAccess_error {a : WordAccess} {m : Mode} {s : State} {x : Stop}
    (h : s.dataAccess m a.kind 4 (a.address s) = .error x) : effect a.instr m s = .stop x := by
  cases a with
  | load base rt offset =>
    show effLw base rt offset m s = _
    unfold effLw
    rw [show s.dataAccess m .load 4 (s.effectiveAddress base offset) = .error x from h]
  | store base rt offset =>
    show effSw base rt offset m s = _
    unfold effSw
    rw [show s.dataAccess m .store 4 (s.effectiveAddress base offset) = .error x from h]

/-- A mapped address is translated by the TLB (R115, R116). -/
theorem translate_of_mapped {m : Mode} {kind : AccessKind} {va : Word} {s : State} (h : Mapped m va s) :
    s.translate m kind va = s.translateMapped kind va := by
  unfold State.translate
  rw [if_neg, if_neg, if_neg, if_neg h.noErlWindow, if_neg h.notKseg0, if_neg h.notKseg1]
  · rintro ⟨a, b⟩; simp [h.supervisor a] at b
  · rintro ⟨a, b⟩; simp [h.user a] at b
  · rintro ⟨a, b⟩; exact b (h.canonical a)

/-- The bytes of a word in rising address order (R106). -/
theorem wordBytes_getElem (big : Bool) (w : Word32) {k : Nat} (h : k < 4) :
    (wordBytes big w)[k]'(by simp [h]) = byteOf big w k := by
  cases big <;> interval_cases k <;> rfl

/-- Each byte of a word read in a byte order (R106). -/
theorem byteOf_readWord (s : State) (big : Bool) (pa : Nat) {k : Nat} (h : k < 4) :
    byteOf big (s.readWord big pa) k = s.readByte (pa + k) := by
  apply BitVec.eq_of_getLsbD_eq
  intro i hi
  cases big <;> interval_cases k <;>
    simp only [byteOf, State.readWord, assembleWord, Bool.false_eq_true, if_false, if_true, BitVec.getLsbD_extractLsb',
      BitVec.getLsbD_append] <;>
    grind

/-! ### Turns and fetches -/

theorem step_of_turn {s t : State} (h : CpuTurn s t) : step s = cpuStep t := by
  rcases h with ⟨h, rfl⟩ | ⟨r, h, rfl⟩ <;> simp [step, agentStep, h]

theorem cpuStep_of_fetches {t : State} {m : Mode} (h : Fetches m t) :
    cpuStep t =
      match t.fetchIn m with
      | .stop x => finish (.stop x) t
      | .word w => runWord w t := by
  have e : t.fetch = t.fetchIn m := by
    unfold State.fetch
    rw [if_pos (by simpa using h.windows)]
    simp [State.fetchNow, h.mode]
  unfold cpuStep
  simp only [h.noInterrupt, Bool.false_eq_true, if_false, e]
  all_goals cases t.fetchIn m <;> rfl

/-! ### Completing -/

theorem sameWorld_retire (s : State) (u : Update) : SameWorld s (s.retire u) := ⟨rfl, rfl, rfl, rfl, rfl, rfl⟩

theorem sameMemory_retire {s : State} {u : Update} (h : u.store = none) : SameMemory s (s.retire u) :=
  ⟨fun _ => readByte_congr (by rw [retire_mem_none s u h]) rfl, retire_written_none s u h⟩

theorem advances_retire {s : State} {u : Update} (h : u.flow = .next) : Advances s (s.retire u) :=
  have ⟨a, b, c⟩ := retire_next s u h
  ⟨a, b, c⟩

/-- Completing with a write of a general register and nothing else. -/
theorem writesGpr_retire {s : State} {u : Update} {rd : RegNum} {v x : Word} (g : u.gpr = some (rd, v))
    (n : s.cfg.norm v = x) (c : u.cp0 = none) (m : u.store = none) (f : u.flow = .next) (l : u.breakLink = false) :
    WritesGpr rd x s (s.retire u) where
  result := by rw [readGpr_putGpr (retire_gprs_some s u g)]; simp [n]
  others r h := by
    rw [readGpr_putGpr (retire_gprs_some s u g), if_neg h]
    split
    · next e => subst e; rfl
    · rfl
  cp0 := retire_cp0_none s u c l
  memory := sameMemory_retire m
  world := sameWorld_retire s u
  advances := advances_retire f

/-- Completing with a write of register 0: nothing is written. -/
theorem writesGpr_retire_zero {s : State} {u : Update} (v : Word) (g : u.gpr = none) (c : u.cp0 = none)
    (m : u.store = none) (f : u.flow = .next) (l : u.breakLink = false) : WritesGpr 0 v s (s.retire u) where
  result := rfl
  others r _ := readGpr_congr (retire_gprs_none s u g) r
  cp0 := retire_cp0_none s u c l
  memory := sameMemory_retire m
  world := sameWorld_retire s u
  advances := advances_retire f

/-- Completing without a general register and without a store. -/
theorem leavesCp0_retire {s : State} {u : Update} {f : Cp0File} (g : u.gpr = none) (m : u.store = none)
    (c : (s.retire u).cp0 = f) : LeavesCp0 f s (s.retire u) where
  cp0 := c
  gprs r := readGpr_congr (retire_gprs_none s u g) r
  memory := sameMemory_retire m
  world := sameWorld_retire s u

/-! ### Bits of a field that a write leaves or replaces -/

theorem getLsbD_putBits {w : Nat} (old mask value : BitVec w) (i : Nat) :
    (putBits old mask value).getLsbD i = if mask.getLsbD i then value.getLsbD i else old.getLsbD i := by
  simp only [putBits, BitVec.getLsbD_or, BitVec.getLsbD_and, BitVec.getLsbD_not]
  by_cases h : i < w
  · cases mask.getLsbD i <;> simp only [h] <;> simp
  · simp only [BitVec.getLsbD_of_ge _ _ (Nat.le_of_not_lt h)]; simp

/-! ### Taking an exception (60_exceptions.md R238, R240, R241) -/

theorem causeExcCode_onEntry (e : Exc) (s : State) : causeExcCode (s.causeOnEntry e) = e.code := by
  apply BitVec.eq_of_getLsbD_eq
  intro i hi
  cases h : s.nested <;>
    simp only [causeExcCode, State.causeOnEntry, h, BitVec.getLsbD_extractLsb', hi, decide_true, Bool.true_and,
      getLsbD_putBits] <;>
    interval_cases i <;> simp

theorem softwareIp_onEntry (e : Exc) (s : State) :
    (s.causeOnEntry e).extractLsb' 8 2 = s.cp0.cause.extractLsb' 8 2 := by
  apply BitVec.eq_of_getLsbD_eq
  intro i hi
  cases h : s.nested <;>
    simp only [State.causeOnEntry, h, BitVec.getLsbD_extractLsb', hi, decide_true, Bool.true_and, getLsbD_putBits] <;>
    interval_cases i <;> simp

theorem causeBd_onEntry (e : Exc) (s : State) :
    causeBd (s.causeOnEntry e) = if s.nested then causeBd s.cp0.cause else s.inDelay := by
  cases h : s.nested <;> cases d : s.inDelay <;>
    simp only [causeBd, State.causeOnEntry, h, d, getLsbD_putBits] <;> simp

theorem causeCe_onEntry_cpu (z : BitVec 2) (s : State) : causeCe (s.causeOnEntry (.cpu z)) = z := by
  apply BitVec.eq_of_getLsbD_eq
  intro i hi
  cases h : s.nested <;>
    simp only [causeCe, State.causeOnEntry, h, BitVec.getLsbD_extractLsb', hi, decide_true, Bool.true_and,
      getLsbD_putBits] <;>
    interval_cases i <;> simp [Exc.code]

/-- R240: the push of the KU/IE stack. -/
theorem srOnEntry_r3000 {s : State} (h : s.cfg.style = .r3000) {n : Note} (hn : n ≠ .tlbShutdown) :
    srKuIe (s.srOnEntry n) = s.cp0.sr.extractLsb' 0 4 ++ s.cfg.kuKernel ++ 0#1 ∧ s.srOnEntry n >>> 6 = s.cp0.sr >>> 6 := by
  constructor
  · apply BitVec.eq_of_getLsbD_eq
    intro i hi
    simp only [srKuIe, State.srOnEntry, h, if_neg hn, BitVec.getLsbD_extractLsb', hi, decide_true, Bool.true_and,
      getLsbD_putBits, BitVec.getLsbD_append]
    interval_cases i <;> simp
  · apply BitVec.eq_of_getLsbD_eq
    intro i hi
    simp only [State.srOnEntry, h, if_neg hn, BitVec.getLsbD_ushiftRight, getLsbD_putBits]
    rw [if_neg]
    interval_cases i <;> simp

theorem srKuc_onEntry {s : State} (h : s.cfg.style = .r3000) (n : Note) : srKuc (s.srOnEntry n) = s.cfg.kuKernel := by
  apply BitVec.eq_of_getLsbD_eq
  intro i hi
  interval_cases i
  simp only [srKuc, State.srOnEntry, h, BitVec.getLsbD_extractLsb', getLsbD_putBits]
  simp

/-- Every exception entry leaves the machine in kernel mode (R248, R260, R261). -/
@[simp] theorem mode_enter (e : Exc) (n : Note) (s : State) : (enter e n s).mode = some .kernel := by
  cases h : s.cfg.style with
  | r3000 =>
    have := srKuc_onEntry h n
    simp [State.mode, h, this]
  | r4000 => simp [State.mode, h, State.srOnEntry, srExl]

/-- Everything an exception entry does but the entry point and what the exception records. -/
theorem enters_enter (e : Exc) (n : Note) (s : State) (hn : n ≠ .tlbShutdown) (h6 : n = .fetchBusError → e.code = 6)
    (h7 : n = .loadBusError → e.code = 7) : Enters e.code s (enter e n s) where
  excCode := causeExcCode_onEntry e s
  softwareIp := softwareIp_onEntry e s
  kept h1 h2 := by
    have : s.nested = true := by simp [State.nested, h1, h2]
    simp [this, causeBd_onEntry]
  saved h := by
    have : s.nested = false := by
      rcases h with h | h <;> simp [State.nested, h]
    simp [this, causeBd_onEntry, State.restartPc]
  srR3000 h := srOnEntry_r3000 h hn
  srR4000 h := by simp [State.srOnEntry, h, hn]
  otherCp0 := rfl
  gprs _ := rfl
  memory := ⟨fun _ => rfl, rfl⟩
  cfg := rfl
  inputs := ⟨rfl, rfl, rfl⟩
  ibe h := by
    have : n ≠ .fetchBusError := fun e => h (h6 e)
    simp [this]
  dbe h := by
    have : n ≠ .loadBusError := fun e => h (h7 e)
    simp [this]
  npc := rfl
  inDelay := rfl
  windows := rfl
  loads := rfl

/-- An exception other than a refill-type miss goes to the general entry point (R245). -/
theorem toGeneral_enter {e : Exc} {n : Note} {s : State} (h : e.refillVa = none) : ToGeneral s (enter e n s) := by
  simp [ToGeneral, State.vector, State.vectorPair, h, State.entry]

theorem entersGeneral_enter (e : Exc) (s : State) (h : e.refillVa = none) : EntersGeneral e.code s (enter e .none s) :=
  ⟨enters_enter e .none s (by decide) (by simp) (by simp), toGeneral_enter h⟩

theorem entersWithAddress_enter (e : Exc) (va : Word) (s : State) (h : e.refillVa = none) (b : e.badVa = some va) :
    EntersWithAddress e.code va s (enter e .none s) :=
  ⟨enters_enter e .none s (by decide) (by simp) (by simp), toGeneral_enter h, by simp [b]⟩

theorem entersCpU_enter (z : BitVec 2) (s : State) : EntersCpU z s (enter (.cpu z) .none s) :=
  ⟨entersGeneral_enter (.cpu z) s rfl, causeCe_onEntry_cpu z s⟩

end Sys2Proof.Machine
end

