-- ==== Sys2Proof/Laws/Effect.lean ====
section
/-! SUPPORT. Everything an instruction can do: what it writes when it completes, which exceptions it can raise. -/

namespace Sys2Proof.Machine

/-! ### The moves of CP0 registers -/

theorem moveTo_done {rt rd : RegNum} {d : Bool} {s : State} {u : Update} (h : moveTo rt rd d s = .done u) :
    ∃ r w, cp0Lookup s.cfg rd = .ok r ∧ cp0Write s r (s.readGpr rt) d = .ok w ∧ u = { cp0 := some w } := by
  unfold moveTo at h
  cases e : cp0Lookup s.cfg rd with
  | error r => simp [e, Effect.refuse] at h
  | ok r =>
    simp only [e] at h
    cases e2 : cp0Write s r (s.readGpr rt) d with
    | error x => simp [e2, Effect.refuse] at h
    | ok w => simp only [e2] at h; cases h; exact ⟨r, w, rfl, e2, rfl⟩

/-- A move from a CP0 register writes a general register other than register 0, or nothing. -/
theorem moveFrom_done {rt rd : RegNum} {d : Bool} {s : State} {u : Update} (h : moveFrom rt rd d s = .done u) :
    ∃ v, u =
      { gpr := if rt = 0 then none else some (rt, v), loaded := if d || rt == 0 then none else some rt } := by
  unfold moveFrom at h
  cases e : cp0Lookup s.cfg rd with
  | error r => simp [e, Effect.refuse] at h
  | ok r => simp only [e] at h; cases h; exact ⟨_, rfl⟩

/-- A doubleword move completes with `XLEN = 64` where CP0 is usable only. -/
theorem doubleChecked_done {m : Mode} {s : State} {b : Effect} {u : Update} (h : doubleChecked m s b = .done u) :
    b = .done u ∧ s.cfg.xlen = .x64 ∧ s.cp0Usable m = true := by
  unfold doubleChecked at h
  split at h
  · simp [Effect.raise] at h
  · have hx : s.cfg.xlen = .x64 := by cases e : s.cfg.xlen <;> simp_all
    split at h
    · next h1 _ => exact ⟨h, hx, h1⟩
    · simp [Effect.raise] at h
    · simp [Effect.raise] at h
    · split at h <;> simp [Effect.raise] at h

/-- What a write of a CP0 register is: of that register; with a hazard window but for BadVaddr and PRId; only a write of Compare
clears the timer request. -/
theorem cp0Write_ok {s : State} {r : Cp0Reg} {v : Word} {d : Bool} {w : Cp0Write} (h : cp0Write s r v d = .ok w) :
    w.reg = r ∧ (r ≠ .badVaddr → r ≠ .prid → w.window = true) ∧
      (r ≠ .compare → s.cp0.timerPending = true → s.timerAfter w.timer = true) := by
  cases r <;> simp only [cp0Write] at h
  case epc => cases e : s.cfg.style <;> simp only [e] at h <;> cases h; simp [wideWrite]
  case errorEpc => cases h; simp [wideWrite]
  case config =>
    unfold configWrite at h
    simp only at h
    split at h
    · cases h
    · split at h
      · cases h
      · cases h; simp
  case count =>
    cases h
    by_cases e : lo32 v = s.cp0.compare <;> simp +contextual [e]
  all_goals cases h; simp

/-- A register is Compare by number 11 only. -/
theorem eq_11_of_lookup_compare {c : Config} {n : RegNum} (h : cp0Lookup c n = .ok .compare) : n = 11 := by
  revert h
  unfold cp0Lookup
  cases c.style <;> cases c.hasTlb <;> simp <;> split <;> simp

/-- A row of `cp0Values` speaks of register `r`: its number finds `r`, which reads as the value and has the width. -/
structure RowOf (s : State) (row : RegNum × Word × Bool) (r : Cp0Reg) : Prop where
  number : cp0Lookup s.cfg row.1 = .ok r
  value : s.cp0Read r = row.2.1
  width : s.cfg.xlen = .x64 → cp0IsDouble s.cfg r = row.2.2

/-- The registers of `cp0Values`, in its order. -/
def cp0Registers (style : Style) : List Cp0Reg :=
  [.badVaddr, .sr, .cause, .epc, .prid] ++
    match style with
    | .r3000 => []
    | .r4000 => [.count, .compare, .config, .watchLo, .watchHi, .errorEpc]

theorem rowOf_cp0Values (s : State) : List.Forall₂ (RowOf s) (cp0Values s) (cp0Registers s.cfg.style) := by
  have wide (r : Cp0Reg) (h : s.cfg.xlen = .x64) : cp0IsDouble s.cfg r = (r = .badVaddr || r = .epc || r = .errorEpc) := by
    simp [cp0IsDouble, h]
  unfold cp0Values cp0ValuesR4000
  cases e : s.cfg.style <;> simp only [cp0Registers, List.append_nil, List.cons_append, List.nil_append] <;>
    repeat' constructor
  all_goals first
    | exact wide _
    | simp [cp0Lookup, e]

theorem exists_of_forall₂ {α β : Type} {R : α → β → Prop} {l : List α} {m : List β} (h : List.Forall₂ R l m) {a : α}
    (ha : a ∈ l) : ∃ b, R a b := by
  induction h with
  | nil => cases ha
  | cons first _ ih =>
    cases ha with
    | head => exact ⟨_, first⟩
    | tail _ rest => exact ih rest

/-- A register of `cp0Values` is found by its number, reads as its value, and has its width. -/
theorem lookup_of_cp0Values {s : State} {n : RegNum} {v : Word} {wide : Bool} (h : (n, v, wide) ∈ cp0Values s) :
    ∃ r, cp0Lookup s.cfg n = .ok r ∧ s.cp0Read r = v ∧ (s.cfg.xlen = .x64 → cp0IsDouble s.cfg r = wide) :=
  have ⟨r, hr⟩ := exists_of_forall₂ (rowOf_cp0Values s) h
  ⟨r, hr.number, hr.value, hr.width⟩

/-- A write of all bits leaves the value. -/
@[simp] theorem putBits_allBits (a v : Word) : putBits a allBits v = v := by
  simp only [putBits, allBits, BitVec.and_allOnes]; simp

/-- What an MTC0 does whose write is accepted. -/
theorem exec_mtc0 {rt n : RegNum} {m : Mode} {s : State} {r : Cp0Reg} {w : Cp0Write} (h : Runs (.mtc0 rt n) m s)
    (hs : StaysInSpace s) (hu : m = .kernel ∨ srCu s.cp0.sr 0 = true) (hl : cp0Lookup s.cfg n = .ok r)
    (hw : cp0Write s r (s.readGpr rt) false = .ok w) :
    exec (.mtc0 rt n) s = .next (s.retire { cp0 := some w }) := by
  apply exec_done h _ (wraps_next hs)
  show effMtc0 rt n m s = _
  unfold effMtc0 moveTo
  simp [cp0Usable_iff.2 hu, hl, hw]

/-- Every exception goes to one of the entry points (60_exceptions.md R245). -/
theorem vector_mem_entryPoints (s : State) (e : Exc) : ∃ p ∈ entryPoints s.cfg, s.vector e = s.cfg.sext p := by
  have key : ∀ v : VectorPair,
      v = s.cfg.vectors.general ∨ v = s.cfg.vectors.tlbRefill ∨ some v = s.cfg.vectors.xtlbRefill →
      ∃ p ∈ entryPoints s.cfg, s.entry v = s.cfg.sext p := by
    intro v hv
    refine ⟨if srBev s.cp0.sr then v.bev1 else v.bev0, ?_, rfl⟩
    unfold entryPoints
    simp only [List.mem_append]
    rcases hv with rfl | rfl | hv
    · left; left; cases srBev s.cp0.sr <;> simp
    · left; right; cases srBev s.cp0.sr <;> simp
    · right; rw [← hv]; cases srBev s.cp0.sr <;> simp
  unfold State.vector State.vectorPair
  split
  · exact key _ (.inl rfl)
  · split
    · split
      · exact key _ (.inr (.inl rfl))
      · exact key _ (.inl rfl)
    · split
      · exact key _ (.inl rfl)
      · split
        · cases h : s.cfg.vectors.xtlbRefill with
          | none => exact key _ (.inr (.inl rfl))
          | some v => exact key _ (.inr (.inr h.symm))
        · exact key _ (.inr (.inl rfl))

/-! ### Completing -/

/-- The instruction `i` completes in mode `m` with the update `u`. -/
inductive Completes (m : Mode) (s : State) : Instr → Update → Prop
  | mfc0 (rt rd : RegNum) (v : Word) (usable : s.cp0Usable m = true) :
    Completes m s (.mfc0 rt rd)
      { gpr := if rt = 0 then none else some (rt, v), loaded := if false || rt == 0 then none else some rt }
  | dmfc0 (rt rd : RegNum) (v : Word) (usable : s.cp0Usable m = true) (wide : s.cfg.xlen = .x64) :
    Completes m s (.dmfc0 rt rd)
      { gpr := if rt = 0 then none else some (rt, v), loaded := if true || rt == 0 then none else some rt }
  | mtc0 (rt rd : RegNum) (r : Cp0Reg) (w : Cp0Write) (usable : s.cp0Usable m = true)
    (reg : cp0Lookup s.cfg rd = .ok r) (write : cp0Write s r (s.readGpr rt) false = .ok w) :
    Completes m s (.mtc0 rt rd) { cp0 := some w }
  | dmtc0 (rt rd : RegNum) (r : Cp0Reg) (w : Cp0Write) (usable : s.cp0Usable m = true) (wide : s.cfg.xlen = .x64)
    (reg : cp0Lookup s.cfg rd = .ok r) (write : cp0Write s r (s.readGpr rt) true = .ok w) :
    Completes m s (.dmtc0 rt rd) { cp0 := some w }
  | rfe (style : s.cfg.style = .r3000) (usable : s.cp0Usable m = true) : Completes m s .rfe (popKuIe s)
  | eret (style : s.cfg.style = .r4000) (usable : s.cp0Usable m = true) (slot : s.inDelay = false) :
    Completes m s .eret (exceptionReturn s)
  | jr (rs : RegNum) (slot : s.inDelay = false) : Completes m s (.jr rs) { flow := .delayed (s.readGpr rs) }
  | addu (rs rt rd : RegNum) (v : Word) : Completes m s (.addu rs rt rd) { gpr := some (rd, v) }
  | and (rs rt rd : RegNum) (v : Word) : Completes m s (.and rs rt rd) { gpr := some (rd, v) }
  | or (rs rt rd : RegNum) (v : Word) : Completes m s (.or rs rt rd) { gpr := some (rd, v) }
  | sll (rt rd sa : RegNum) (v : Word) : Completes m s (.sll rt rd sa) { gpr := some (rd, v) }
  | nop : Completes m s .nop {}
  | ssnop : Completes m s .ssnop {}
  | sync (stype : BitVec 5) (style : s.cfg.style = .r4000) : Completes m s (.sync stype) {}
  | lw (base rt : RegNum) (offset : BitVec 16) (v : Word) :
    Completes m s (.lw base rt offset)
      { gpr := if rt = 0 then none else some (rt, v), loaded := if rt == 0 then none else some rt }
  | sw (base rt : RegNum) (offset : BitVec 16) (pa : Nat) (bytes : List Byte) :
    Completes m s (.sw base rt offset) { store := some (pa, bytes) }

/-- A TLB instruction completes in no state. -/
theorem tlbInstruction_not_done {m : Mode} {s : State} {u : Update} : tlbInstruction m s ≠ .done u := by
  unfold tlbInstruction
  split <;> simp [Effect.raise, Effect.refuse]

/-- Everything an instruction can write when it completes. -/
theorem completes_of_done {i : Instr} {m : Mode} {s : State} {u : Update} (h : effect i m s = .done u) :
    Completes m s i u := by
  cases i
  case mfc0 rt rd =>
    change effMfc0 rt rd m s = _ at h
    unfold effMfc0 at h
    split at h
    · obtain ⟨v, rfl⟩ := moveFrom_done h
      exact .mfc0 rt rd v ‹_›
    · simp [Effect.raise] at h
  case dmfc0 rt rd =>
    obtain ⟨a, b, c⟩ := doubleChecked_done h
    obtain ⟨v, rfl⟩ := moveFrom_done a
    exact .dmfc0 rt rd v c b
  case mtc0 rt rd =>
    change effMtc0 rt rd m s = _ at h
    unfold effMtc0 at h
    split at h
    · obtain ⟨r, w, hr, hw, rfl⟩ := moveTo_done h
      exact .mtc0 rt rd r w ‹_› hr hw
    · simp [Effect.raise] at h
  case dmtc0 rt rd =>
    obtain ⟨a, b, c⟩ := doubleChecked_done h
    obtain ⟨r, w, hr, hw, rfl⟩ := moveTo_done a
    exact .dmtc0 rt rd r w c b hr hw
  case rfe =>
    change effRfe m s = _ at h
    unfold effRfe at h
    cases e : s.cfg.style <;> cases e2 : s.cp0Usable m <;> simp only [e, e2, Effect.raise] at h
    · cases h
    · cases h; exact .rfe e e2
    · split at h <;> cases h
    · cases h
  case eret =>
    change effEret m s = _ at h
    unfold effEret at h
    cases e : s.cfg.style <;> cases e2 : s.cp0Usable m <;> simp [e, e2, Effect.raise] at h
    split at h
    · simp [Effect.refuse] at h
    · next d => cases h; exact .eret e e2 (by simpa using d)
  case jr rs =>
    change effJr rs m s = _ at h
    unfold effJr at h
    split at h
    · simp [Effect.refuse] at h
    · next d => cases h; exact .jr rs (by simpa using d)
  case addu rs rt rd =>
    change effAddu rs rt rd m s = _ at h
    unfold effAddu at h
    split at h
    · cases h; exact .addu _ _ _ _
    · simp [Effect.refuse] at h
  case and rs rt rd => cases h; exact .and _ _ _ _
  case or rs rt rd => cases h; exact .or _ _ _ _
  case sll rt rd sa => cases h; exact .sll _ _ _ _
  case nop => cases h; exact .nop
  case ssnop => cases h; exact .ssnop
  case sync st =>
    change effSync st m s = _ at h
    unfold effSync at h
    cases e : s.cfg.style <;> simp only [e, Effect.raise] at h <;> cases h
    exact .sync st e
  case lw base rt offset =>
    change effLw base rt offset m s = _ at h
    unfold effLw at h
    split at h
    · cases h
    · split at h <;> cases h
      exact .lw base rt offset _
  case sw base rt offset =>
    change effSw base rt offset m s = _ at h
    unfold effSw at h
    split at h
    · cases h
    · split at h <;> cases h
      exact .sw base rt offset _ _
  case cache a b c =>
    change effCache a b c m s = _ at h
    unfold effCache at h
    cases e : s.cfg.style <;> cases e2 : s.cp0Usable m <;> simp [e, e2, Effect.raise, Effect.refuse] at h
  case tlbp | tlbr | tlbwi | tlbwr => exact absurd h tlbInstruction_not_done
  all_goals cases h

/-! ### Raising -/

/-- The exceptions that a modelled step can raise: those of codes up to 12, and Watch on the R4000 style. -/
def Raisable (c : Config) (e : Exc) (n : Note) : Prop :=
  (e.code ≤ 12 ∨ (e = .watch ∧ c.style = .r4000)) ∧
    (n = .tlbShutdown → c.implementsTs = true ∧ e.refillVa ≠ none)

theorem raisable_addressError (c : Config) (kind : AccessKind) (va : Word) : Raisable c (addressError kind va) .none := by
  cases kind <;> exact ⟨.inl (by simp [addressError, Exc.code]), by simp⟩

theorem raisable_tlbMiss (c : Config) (kind : AccessKind) (va : Word) (refill : Bool) :
    Raisable c (tlbMiss kind va refill) .none := by
  cases kind <;> exact ⟨.inl (by simp [tlbMiss, Exc.code]), by simp⟩

theorem translateMapped_raises {s : State} {kind : AccessKind} {va : Word} {e : Exc} {n : Note}
    (h : s.translateMapped kind va = .error (.raise e n)) : Raisable s.cfg e n := by
  unfold State.translateMapped at h
  split at h
  · split at h
    · split at h
      · cases h; exact ⟨.inl (by simp [Exc.code]), by simp⟩
      · cases h
    · cases h; exact raisable_tlbMiss _ _ _ _
    · split at h
      · next ts => cases h; cases kind <;> exact ⟨.inl (by simp [tlbMiss, Exc.code]), fun _ => ⟨ts, by simp [tlbMiss, Exc.refillVa]⟩⟩
      · cases h
  · cases h

theorem translate_raises {s : State} {m : Mode} {kind : AccessKind} {va : Word} {e : Exc} {n : Note}
    (h : s.translate m kind va = .error (.raise e n)) : Raisable s.cfg e n := by
  unfold State.translate at h
  simp only at h
  split at h
  · cases h
  split at h
  · cases h; exact raisable_addressError _ _ _
  split at h
  · cases h; exact raisable_addressError _ _ _
  split at h
  · cases h
  split at h
  · cases h
  split at h
  · cases h
  exact translateMapped_raises h

theorem dataAccess_raises {s : State} {m : Mode} {kind : AccessKind} {k : Nat} {va : Word} {e : Exc} {n : Note}
    (h : s.dataAccess m kind k va = .error (.raise e n)) : Raisable s.cfg e n := by
  unfold State.dataAccess at h
  split at h
  · cases h; exact raisable_addressError _ _ _
  split at h
  · cases h
  split at h
  · cases h; exact translate_raises ‹_›
  · split at h
    · next w =>
      cases h
      refine ⟨.inr ⟨rfl, ?_⟩, by simp⟩
      simp only [State.watchMatch, Bool.and_eq_true, decide_eq_true_eq] at w
      exact w.1.1.1
    · split at h
      · cases h; exact ⟨.inl (by simp [Exc.code]), by simp⟩
      · cases h

theorem wordProblem_raises {c : Config} {pa : Nat} {e : Exc} {n : Note} : wordProblem c pa ≠ some (.raise e n) := by
  unfold wordProblem
  split
  · simp
  · split <;> simp

theorem fetchIn_raises {s : State} {m : Mode} {e : Exc} {n : Note} (h : s.fetchIn m = .stop (.raise e n)) :
    Raisable s.cfg e n := by
  unfold State.fetchIn at h
  split at h
  · cases h; exact ⟨.inl (by simp [Exc.code]), by simp⟩
  split at h
  · cases h; exact translate_raises ‹_›
  split at h
  · cases h; exact ⟨.inl (by simp [Exc.code]), by simp⟩
  split at h
  · cases h; exact absurd ‹_› wordProblem_raises
  split at h <;> cases h

theorem fetch_raises {s : State} {e : Exc} {n : Note} (h : s.fetch = .stop (.raise e n)) : Raisable s.cfg e n := by
  unfold State.fetch at h
  split at h
  · unfold State.fetchNow at h
    split at h
    · exact fetchIn_raises h
    · cases h
  · cases h

/-- Everything an instruction can raise. -/
theorem effect_raises {i : Instr} {m : Mode} {s : State} {e : Exc} {n : Note} (h : effect i m s = .stop (.raise e n)) :
    Raisable s.cfg e n := by
  have move {rt rd : RegNum} {d : Bool} : moveFrom rt rd d s ≠ .stop (.raise e n) := by
    unfold moveFrom; split <;> simp [Effect.refuse]
  have moveT {rt rd : RegNum} {d : Bool} : moveTo rt rd d s ≠ .stop (.raise e n) := by
    unfold moveTo; split
    · simp [Effect.refuse]
    · split <;> simp [Effect.refuse]
  have low {x : Exc} (l : x.code ≤ 12) (hx : Effect.raise x = .stop (.raise e n)) : Raisable s.cfg e n := by
    cases hx; exact ⟨.inl l, by simp⟩
  have ri : (Exc.ri).code ≤ 12 := by decide
  have cpu : (Exc.cpu 0).code ≤ 12 := by decide
  have double {b : Effect} (hb : b ≠ .stop (.raise e n)) (hd : doubleChecked m s b = .stop (.raise e n)) :
      Raisable s.cfg e n := by
    unfold doubleChecked at hd
    split at hd
    · exact low ri hd
    · split at hd
      · exact absurd hd hb
      · exact low ri hd
      · exact low cpu hd
      · split at hd
        · exact low ri hd
        · exact low cpu hd
  have tlb (ht : tlbInstruction m s = .stop (.raise e n)) : Raisable s.cfg e n := by
    unfold tlbInstruction at ht
    split at ht
    · cases ht
    · exact low cpu ht
  cases i
  case mfc0 rt rd =>
    change effMfc0 rt rd m s = _ at h
    unfold effMfc0 at h
    split at h
    · exact absurd h move
    · exact low cpu h
  case mtc0 rt rd =>
    change effMtc0 rt rd m s = _ at h
    unfold effMtc0 at h
    split at h
    · exact absurd h moveT
    · exact low cpu h
  case dmfc0 rt rd => exact double move h
  case dmtc0 rt rd => exact double moveT h
  case tlbp | tlbr | tlbwi | tlbwr => exact tlb h
  case rfe =>
    change effRfe m s = _ at h
    unfold effRfe at h
    split at h
    · exact low ri h
    · split at h
      · exact low ri h
      · exact low cpu h
    · exact low cpu h
    · cases h
  case eret =>
    change effEret m s = _ at h
    unfold effEret at h
    split at h
    · exact low ri h
    · split at h
      · exact low cpu h
      · split at h <;> cases h
  case jr rs =>
    change effJr rs m s = _ at h
    unfold effJr at h
    split at h <;> cases h
  case syscall => exact low (by decide) h
  case brk => exact low (by decide) h
  case sync st =>
    change effSync st m s = _ at h
    unfold effSync at h
    split at h
    · exact low ri h
    · cases h
  case addu rs rt rd =>
    change effAddu rs rt rd m s = _ at h
    unfold effAddu at h
    split at h <;> cases h
  case cache a b c =>
    change effCache a b c m s = _ at h
    unfold effCache at h
    split at h
    · cases h
    · split at h
      · cases h
      · exact low cpu h
  case lw base rt offset =>
    change effLw base rt offset m s = _ at h
    unfold effLw at h
    split at h
    · cases h; exact dataAccess_raises ‹_›
    · split at h
      · cases h; exact absurd ‹_› wordProblem_raises
      · cases h
  case sw base rt offset =>
    change effSw base rt offset m s = _ at h
    unfold effSw at h
    split at h
    · cases h; exact dataAccess_raises ‹_›
    · split at h
      · cases h; exact absurd ‹_› wordProblem_raises
      · cases h
  all_goals cases h

/-- Everything the CPU can do when it gives a next state: the entry of an exception it can raise, or the completion of the
fetched instruction. -/
theorem cpuStep_next {s t : State} (h : cpuStep s = .next t) :
    (∃ e n, Raisable s.cfg e n ∧ t = enter e n s) ∨
      ∃ i m u, s.mode = some m ∧ Completes m s i u ∧ s.wraps u.flow = false ∧ t = s.retire u := by
  rcases cpuStep_cases s with ⟨-, e⟩ | ⟨-, x, hx, e⟩ | ⟨-, w, hw, e⟩ <;> rw [e] at h
  · cases h; exact .inl ⟨_, _, ⟨.inl (by decide), by simp⟩, rfl⟩
  · rcases finish_next.1 h with ⟨u, hu, -⟩ | ⟨x, n, hu, rfl⟩
    · cases hu
    · cases hu; exact .inl ⟨x, n, fetch_raises hx, rfl⟩
  · rcases runWord_next h with ⟨i, -, hi⟩ | ⟨z, m, -, -, -, rfl⟩
    · obtain ⟨m, hm, ⟨u, hu, hw, rfl⟩ | ⟨x, n, hu, rfl⟩⟩ := exec_next hi
      · exact .inr ⟨i, m, u, hm, completes_of_done hu, hw, rfl⟩
      · exact .inl ⟨x, n, effect_raises hu, rfl⟩
    · exact .inl ⟨_, _, ⟨.inl (by simp [Exc.code]), by simp⟩, rfl⟩

end Sys2Proof.Machine
end

