-- ==== Sys2Proof/Laws/PerInstr.lean ====
section
/-! SUPPORT. Statements about every instruction as syntax, one lemma per constructor: the word of an instruction carries the
fixed bits of its row of spec/opcode_table.json. -/

namespace Sys2Proof.Laws.EncodeMatchesRow

/-- The `mask` of the row. -/
def rowMask : Instr → Word32
  | .mfc0 _ _ => 0xFFE007FF
  | .dmfc0 _ _ => 0xFFE007FF
  | .mtc0 _ _ => 0xFFE007FF
  | .dmtc0 _ _ => 0xFFE007FF
  | .tlbr => 0xFFFFFFFF
  | .tlbwi => 0xFFFFFFFF
  | .tlbwr => 0xFFFFFFFF
  | .tlbp => 0xFFFFFFFF
  | .rfe => 0xFFFFFFFF
  | .eret => 0xFFFFFFFF
  | .sll _ _ _ => 0xFFE0003F
  | .nop => 0xFFFFFFFF
  | .ssnop => 0xFFFFFFFF
  | .jr _ => 0xFC1FFFFF
  | .syscall _ => 0xFC00003F
  | .brk _ => 0xFC00003F
  | .sync _ => 0xFFFFF83F
  | .addu _ _ _ => 0xFC0007FF
  | .and _ _ _ => 0xFC0007FF
  | .or _ _ _ => 0xFC0007FF
  | .lw _ _ _ => 0xFC000000
  | .sw _ _ _ => 0xFC000000
  | .cache _ _ _ => 0xFC000000
  | .ll _ _ _ => 0xFC000000
  | .pref _ _ _ => 0xFC000000
  | .sc _ _ _ => 0xFC000000

/-- The `match` of the row. -/
def rowMatch : Instr → Word32
  | .mfc0 _ _ => 0x40000000
  | .dmfc0 _ _ => 0x40200000
  | .mtc0 _ _ => 0x40800000
  | .dmtc0 _ _ => 0x40A00000
  | .tlbr => 0x42000001
  | .tlbwi => 0x42000002
  | .tlbwr => 0x42000006
  | .tlbp => 0x42000008
  | .rfe => 0x42000010
  | .eret => 0x42000018
  | .sll _ _ _ => 0x00000000
  | .nop => 0x00000000
  | .ssnop => 0x00000040
  | .jr _ => 0x00000008
  | .syscall _ => 0x0000000C
  | .brk _ => 0x0000000D
  | .sync _ => 0x0000000F
  | .addu _ _ _ => 0x00000021
  | .and _ _ _ => 0x00000024
  | .or _ _ _ => 0x00000025
  | .lw _ _ _ => 0x8C000000
  | .sw _ _ _ => 0xAC000000
  | .cache _ _ _ => 0xBC000000
  | .ll _ _ _ => 0xC0000000
  | .pref _ _ _ => 0xCC000000
  | .sc _ _ _ => 0xE0000000

/-- The word of an instruction has the fixed bits of its row (30_encoding.md R155). -/
def Statement (i : Instr) : Prop := encode i &&& rowMask i = rowMatch i

theorem mfc0 (rt : RegNum) (rd : RegNum) : Statement (.mfc0 rt rd) := by
  apply BitVec.eq_of_getLsbD_eq
  intro i hi
  simp only [encode, rowMask, rowMatch, formatC0M, BitVec.getLsbD_and, BitVec.getLsbD_append]
  interval_cases i <;> simp

theorem dmfc0 (rt : RegNum) (rd : RegNum) : Statement (.dmfc0 rt rd) := by
  apply BitVec.eq_of_getLsbD_eq
  intro i hi
  simp only [encode, rowMask, rowMatch, formatC0M, BitVec.getLsbD_and, BitVec.getLsbD_append]
  interval_cases i <;> simp

theorem mtc0 (rt : RegNum) (rd : RegNum) : Statement (.mtc0 rt rd) := by
  apply BitVec.eq_of_getLsbD_eq
  intro i hi
  simp only [encode, rowMask, rowMatch, formatC0M, BitVec.getLsbD_and, BitVec.getLsbD_append]
  interval_cases i <;> simp

theorem dmtc0 (rt : RegNum) (rd : RegNum) : Statement (.dmtc0 rt rd) := by
  apply BitVec.eq_of_getLsbD_eq
  intro i hi
  simp only [encode, rowMask, rowMatch, formatC0M, BitVec.getLsbD_and, BitVec.getLsbD_append]
  interval_cases i <;> simp

theorem tlbr : Statement .tlbr := by unfold Statement; decide

theorem tlbwi : Statement .tlbwi := by unfold Statement; decide

theorem tlbwr : Statement .tlbwr := by unfold Statement; decide

theorem tlbp : Statement .tlbp := by unfold Statement; decide

theorem rfe : Statement .rfe := by unfold Statement; decide

theorem eret : Statement .eret := by unfold Statement; decide

theorem sll (rt : RegNum) (rd : RegNum) (sa : RegNum) : Statement (.sll rt rd sa) := by
  apply BitVec.eq_of_getLsbD_eq
  intro i hi
  simp only [encode, rowMask, rowMatch, formatR, BitVec.getLsbD_and, BitVec.getLsbD_append]
  interval_cases i <;> simp

theorem nop : Statement .nop := by unfold Statement; decide

theorem ssnop : Statement .ssnop := by unfold Statement; decide

theorem jr (rs : RegNum) : Statement (.jr rs) := by
  apply BitVec.eq_of_getLsbD_eq
  intro i hi
  simp only [encode, rowMask, rowMatch, formatR, BitVec.getLsbD_and, BitVec.getLsbD_append]
  interval_cases i <;> simp

theorem syscall (code : BitVec 20) : Statement (.syscall code) := by
  apply BitVec.eq_of_getLsbD_eq
  intro i hi
  simp only [encode, rowMask, rowMatch, formatCode, BitVec.getLsbD_and, BitVec.getLsbD_append]
  interval_cases i <;> simp

theorem brk (code : BitVec 20) : Statement (.brk code) := by
  apply BitVec.eq_of_getLsbD_eq
  intro i hi
  simp only [encode, rowMask, rowMatch, formatCode, BitVec.getLsbD_and, BitVec.getLsbD_append]
  interval_cases i <;> simp

theorem sync (stype : BitVec 5) : Statement (.sync stype) := by
  apply BitVec.eq_of_getLsbD_eq
  intro i hi
  simp only [encode, rowMask, rowMatch, formatR, BitVec.getLsbD_and, BitVec.getLsbD_append]
  interval_cases i <;> simp

theorem addu (rs : RegNum) (rt : RegNum) (rd : RegNum) : Statement (.addu rs rt rd) := by
  apply BitVec.eq_of_getLsbD_eq
  intro i hi
  simp only [encode, rowMask, rowMatch, formatR, BitVec.getLsbD_and, BitVec.getLsbD_append]
  interval_cases i <;> simp

theorem and (rs : RegNum) (rt : RegNum) (rd : RegNum) : Statement (.and rs rt rd) := by
  apply BitVec.eq_of_getLsbD_eq
  intro i hi
  simp only [encode, rowMask, rowMatch, formatR, BitVec.getLsbD_and, BitVec.getLsbD_append]
  interval_cases i <;> simp

theorem or (rs : RegNum) (rt : RegNum) (rd : RegNum) : Statement (.or rs rt rd) := by
  apply BitVec.eq_of_getLsbD_eq
  intro i hi
  simp only [encode, rowMask, rowMatch, formatR, BitVec.getLsbD_and, BitVec.getLsbD_append]
  interval_cases i <;> simp

theorem lw (base : RegNum) (rt : RegNum) (offset : BitVec 16) : Statement (.lw base rt offset) := by
  apply BitVec.eq_of_getLsbD_eq
  intro i hi
  simp only [encode, rowMask, rowMatch, formatI, BitVec.getLsbD_and, BitVec.getLsbD_append]
  interval_cases i <;> simp

theorem sw (base : RegNum) (rt : RegNum) (offset : BitVec 16) : Statement (.sw base rt offset) := by
  apply BitVec.eq_of_getLsbD_eq
  intro i hi
  simp only [encode, rowMask, rowMatch, formatI, BitVec.getLsbD_and, BitVec.getLsbD_append]
  interval_cases i <;> simp

theorem cache (base : RegNum) (op : BitVec 5) (offset : BitVec 16) : Statement (.cache base op offset) := by
  apply BitVec.eq_of_getLsbD_eq
  intro i hi
  simp only [encode, rowMask, rowMatch, formatI, BitVec.getLsbD_and, BitVec.getLsbD_append]
  interval_cases i <;> simp

theorem ll (base : RegNum) (rt : RegNum) (offset : BitVec 16) : Statement (.ll base rt offset) := by
  apply BitVec.eq_of_getLsbD_eq
  intro i hi
  simp only [encode, rowMask, rowMatch, formatI, BitVec.getLsbD_and, BitVec.getLsbD_append]
  interval_cases i <;> simp

theorem pref (base : RegNum) (hint : BitVec 5) (offset : BitVec 16) : Statement (.pref base hint offset) := by
  apply BitVec.eq_of_getLsbD_eq
  intro i hi
  simp only [encode, rowMask, rowMatch, formatI, BitVec.getLsbD_and, BitVec.getLsbD_append]
  interval_cases i <;> simp

theorem sc (base : RegNum) (rt : RegNum) (offset : BitVec 16) : Statement (.sc base rt offset) := by
  apply BitVec.eq_of_getLsbD_eq
  intro i hi
  simp only [encode, rowMask, rowMatch, formatI, BitVec.getLsbD_and, BitVec.getLsbD_append]
  interval_cases i <;> simp

end Sys2Proof.Laws.EncodeMatchesRow
end

