-- ==== Sys2Proof/Tests/Slice0.lean ====
section
/-! SUPPORT. Tests: decoding, one step of each instruction on a small state, and a witness for the hypotheses of each statement.
The words and the expected values are those of spec/95_test_vectors.md (the vector is named) or computed by hand from the rule
named. -/

namespace Sys2Proof.Tests

open Sys2Proof.Machine

/-! ### Decoding: words written out from the encoding tables -/

/-- DEC1 to DEC10, and format C0M field by field: 010000 | sub | t | d | 0. -/
theorem test_decode_cp0_move :
    decode 0b010000_00000_01000_01100_00000000000 = .instr (.mfc0 8 12) ∧
    decode 0b010000_00100_01000_01100_00000000000 = .instr (.mtc0 8 12) ∧
    decode 0b010000_00001_01000_01110_00000000000 = .instr (.dmfc0 8 14) ∧
    decode 0b010000_00101_01000_01110_00000000000 = .instr (.dmtc0 8 14) ∧
    decode 0x40809000 = .instr (.mtc0 0 18) := by decide

/-- DEC9 to DEC15, format R of JR, format CODE. -/
theorem test_decode_control :
    decode 0b010000_1_0000000000000000000_010000 = .instr .rfe ∧
    decode 0b010000_1_0000000000000000000_011000 = .instr .eret ∧
    decode 0b000000_11010_00000_00000_00000_001000 = .instr (.jr 26) ∧
    decode 0b000000_00000000000000000001_001100 = .instr (.syscall 1) ∧
    decode 0b000000_00000000000000000111_001101 = .instr (.brk 7) := by decide

/-- DEC16 to DEC22, format R. -/
theorem test_decode_register :
    decode 0x00000000 = .instr .nop ∧ decode 0x00000040 = .instr .ssnop ∧
    decode 0b000000_00000_01000_01001_00100_000000 = .instr (.sll 8 9 4) ∧
    decode 0b000000_00000_00000_00000_00000_001111 = .instr (.sync 0) ∧
    decode 0b000000_01000_01001_01000_00000_100100 = .instr (.and 8 9 8) ∧
    decode 0b000000_01000_01010_01000_00000_100101 = .instr (.or 8 10 8) ∧
    decode 0b000000_11010_11011_11010_00000_100001 = .instr (.addu 26 27 26) := by decide

/-- DEC23 to DEC27, format I and format C0F. -/
theorem test_decode_memory_and_deferred :
    decode 0b100011_11010_01001_0000000000000010 = .instr (.lw 26 9 2) ∧
    decode 0b101011_11010_01000_0000000000000000 = .instr (.sw 26 8 0) ∧
    decode 0b101111_00000_00000_0000000000000000 = .instr (.cache 0 0 0) ∧
    decode 0b110000_11010_01000_0000000000000000 = .instr (.ll 26 8 0) ∧
    decode 0b110011_00000_00000_0000000000000000 = .instr (.pref 0 0 0) ∧
    decode 0b111000_11010_01000_0000000000000000 = .instr (.sc 26 8 0) ∧
    decode 0x42000008 = .instr .tlbp ∧ decode 0x42000001 = .instr .tlbr ∧
    decode 0x42000002 = .instr .tlbwi ∧ decode 0x42000006 = .instr .tlbwr := by decide

/-- DEC28 to DEC32: words with no row, and a coprocessor 1 word. -/
theorem test_decode_refused :
    decode 0x40086001 = .unknown ∧ decode 0x42000011 = .unknown ∧ decode 0x00000020 = .unknown ∧
    decode 0x00000001 = .unknown ∧ decode 0x44000000 = .coprocessor 1 := by decide

/-- The words of NOP and SSNOP are spelled one way: the SLL terms for them are ill-formed. -/
theorem test_wellFormed_refuses_sll_nop : (Instr.sll 0 0 0).wellFormed = false := by decide
theorem test_wellFormed_refuses_sll_ssnop : (Instr.sll 0 0 1).wellFormed = false := by decide

/-- The table's numbering: bit 0 is the least significant bit of the word. -/
theorem test_decodeTableWord :
    decodeTableWord 32 0x8F490002 = some (.lw 26 9 2) ∧ decodeTableWord 32 0x44000000 = none := by decide

/-! ### Small states -/

/-- The 32-bit R4000-style machine. -/
def c32 : Config := { Config.r4000 with xlen := .x32 }
/-- The 64-bit R4000-style machine. -/
def c64 : Config := Config.r4000
/-- The R3000-style machine, with `KU_KERNEL = 1`. -/
def c3 : Config := Config.r3000

/-- A machine with status register `sr` at 0x8000_1000. -/
def at1000 (c : Config) (sr : Word32) : State :=
  let s := State.initial c
  { s with cp0 := { s.cp0 with sr := sr }, pc := c.sext 0x80001000, npc := c.sext 0x80001004 }

/-- The same with general register `r` holding `v`. -/
def gpr (r : RegNum) (v : Word) (s : State) : State := { s with gprs := putGpr s.cfg s.gprs r v }

/-- The same with other CP0 registers. -/
def cp0 (f : Cp0File → Cp0File) (s : State) : State := { s with cp0 := f s.cp0 }

/-- The same with a word of memory at a physical address. -/
def word (pa : Nat) (w : Word32) (s : State) : State :=
  { s with mem := Memory.putAll s.mem pa (wordBytes s.cfg.bigEndian w) }

/-- The outcome is a next state of which `p` holds. -/
def goes (o : Host.Outcome State Fault Refusal) (p : State → Bool) : Bool :=
  match o with
  | .next t => p t
  | .fault _ | .refused _ => false

/-- The outcome is the entry of exception `e` from `s`, with this EPC and this pc. (Cause.ExcCode is `e.code`, whatever the free
value of Cause.CE: `causeExcCode_onEntry`.) -/
def Entered (o : Host.Outcome State Fault Refusal) (e : Exc) (s : State) (epc pc : Word) : Prop :=
  o = .next (enter e .none s) ∧ (enter e .none s).cp0.epc = epc ∧ (enter e .none s).pc = pc

/-- S5: the codes of Table 3.3, in its order. -/
theorem test_exception_codes :
    ([.int, .mod 0, .tlbl 0 true, .tlbs 0 true, .adel 0, .ades 0, .ibe, .dbe, .syscall, .bp, .ri, .cpu 0, .ov, .trap, .vcei,
      .fpe, .c2e, .watch, .vced] : List Exc).map Exc.code =
      [0, 1, 2, 3, 4, 5, 6, 7, 8, 9, 10, 11, 12, 13, 14, 15, 16, 23, 31] := by decide

/-! ### One step of each instruction -/

/-- MOV2: a 32-bit register is sign-extended. -/
theorem test_mfc0_sr :
    goes (exec (.mfc0 8 12) (at1000 c64 0x80000000)) (fun t => t.readGpr 8 == 0xFFFFFFFF80000000) = true := by decide
/-- MOV11: user mode without CU0. -/
theorem test_mfc0_unusable :
    goes (exec (.mfc0 8 12) (at1000 c32 0x10)) (fun t => t.cp0.sr == 0x12 && t.readGpr 8 == 0) = true := by decide
/-- MOV3: the writable bits of SR on the R4000 style. -/
theorem test_mtc0_sr :
    goes (exec (.mtc0 8 12) (gpr 8 0xFFFFFFFF (at1000 c32 0))) (fun t => t.cp0.sr == 0xFE57FFFF) = true := by decide
/-- MOV6: only IP[1:0] of Cause. -/
theorem test_mtc0_cause :
    goes (exec (.mtc0 8 13) (gpr 8 0xFFFFFFFF (cp0 (fun f => { f with cause := 0x20 }) (at1000 c32 0))))
      (fun t => t.cp0.cause == 0x320) = true := by decide
/-- R173: all 64 bits of EPC. -/
theorem test_dmfc0_epc :
    goes (exec (.dmfc0 8 14) (cp0 (fun f => { f with epc := 0x180001000 }) (at1000 c64 0)))
      (fun t => t.readGpr 8 == 0x180001000) = true := by decide
/-- MOV16. -/
theorem test_dmtc0_epc :
    goes (exec (.dmtc0 8 14) (gpr 8 0x180001000 (at1000 c64 0))) (fun t => t.cp0.epc == 0x180001000) = true := by decide
/-- MOV13: RI with XLEN = 32. -/
theorem test_dmtc0_32 : Entered (exec (.dmtc0 8 14) (at1000 c32 0)) .ri (at1000 c32 0) 0x80001000 0x80000180 :=
  ⟨rfl, by decide, by decide⟩
/-- R209 to R212: CpU in user mode. -/
theorem test_tlb_unusable :
    Entered (exec .tlbr (at1000 c32 0x10)) (.cpu 0) (at1000 c32 0x10) 0x80001000 0x80000180 ∧
    Entered (exec .tlbwi (at1000 c32 0x10)) (.cpu 0) (at1000 c32 0x10) 0x80001000 0x80000180 ∧
    Entered (exec .tlbwr (at1000 c32 0x10)) (.cpu 0) (at1000 c32 0x10) 0x80001000 0x80000180 ∧
    Entered (exec .tlbp (at1000 c32 0x10)) (.cpu 0) (at1000 c32 0x10) 0x80001000 0x80000180 :=
  ⟨⟨rfl, by decide, by decide⟩, ⟨rfl, by decide, by decide⟩, ⟨rfl, by decide, by decide⟩, rfl, by decide, by decide⟩
/-- RET1 and RET2. -/
theorem test_rfe : goes (exec .rfe (at1000 c3 0xFF0E)) (fun t => t.cp0.sr == 0xFF03) = true := by decide
/-- RET4. -/
theorem test_rfe_r4000 : Entered (exec .rfe (at1000 c32 0)) .ri (at1000 c32 0) 0x80001000 0x80000180 :=
  ⟨rfl, by decide, by decide⟩
/-- RET5. -/
theorem test_eret_exl :
    goes (exec .eret (cp0 (fun f => { f with epc := 0x400100 }) (at1000 c32 0x13)))
      (fun t => t.cp0.sr == 0x11 && t.pc == 0x400100) = true := by decide
/-- RET6. -/
theorem test_eret_erl :
    goes (exec .eret (cp0 (fun f => { f with errorEpc := 0xBFC01000, epc := 0x80002000 }) (at1000 c32 0x6)))
      (fun t => t.cp0.sr == 0x2 && t.pc == 0xBFC01000) = true := by decide
/-- SUP6. -/
theorem test_sll :
    goes (exec (.sll 8 9 4) (gpr 8 0x10000001 (at1000 c32 0))) (fun t => t.readGpr 9 == 0x10) = true := by decide
/-- R195 with XLEN = 64: the result is sign-extended. -/
theorem test_sll_sign :
    goes (exec (.sll 8 9 31) (gpr 8 1 (at1000 c64 0))) (fun t => t.readGpr 9 == 0xFFFFFFFF80000000) = true := by decide
/-- R196, R197, SUP8. -/
theorem test_no_operations :
    goes (exec .nop (at1000 c32 0)) (fun t => t.pc == 0x80001004 && t.npc == 0x80001008) = true ∧
    goes (exec .ssnop (at1000 c32 0)) (fun t => t.pc == 0x80001004) = true ∧
    goes (exec (.sync 0) (at1000 c32 0)) (fun t => t.pc == 0x80001004) = true := by decide
/-- SUP9. -/
theorem test_sync_r3000 : Entered (exec (.sync 0) (at1000 c3 2)) .ri (at1000 c3 2) 0x80001000 0x80000080 :=
  ⟨rfl, by decide, by decide⟩
/-- RET10: the delay slot, then the target. -/
theorem test_jr :
    goes (exec (.jr 26) (gpr 26 0x80002000 (at1000 c32 0)))
      (fun t => t.pc == 0x80001004 && t.npc == 0x80002000 && t.inDelay) = true := by decide
/-- ENT7: a trap in the delay slot saves the branch. -/
theorem test_syscall_delay_slot :
    goes (exec (.syscall 0) { at1000 c32 1 with pc := 0x80001004, npc := 0x80002000, inDelay := true })
      (fun t => t.cp0.epc == 0x80001000 && t.cp0.sr == 3 && t.pc == 0x80000180) = true := by decide
/-- ENT8: with EXL = 1 EPC is kept. -/
theorem test_syscall_nested :
    goes (exec (.syscall 0) (cp0 (fun f => { f with epc := 0x80000444 }) (at1000 c32 3)))
      (fun t => t.cp0.epc == 0x80000444 && t.cp0.sr == 3) = true := by decide
/-- ENT1: the push of the KU/IE stack. -/
theorem test_break_r3000 :
    goes (exec (.brk 0) (at1000 c3 0xFF03))
      (fun t => t.cp0.sr == 0xFF0E && t.cp0.epc == 0x80001000 && t.pc == 0x80000080) = true := by decide
/-- ENT5: BEV = 1. -/
theorem test_break_bev :
    goes (exec (.brk 0) (at1000 c32 0x400001)) (fun t => t.cp0.sr == 0x400003 && t.pc == 0xBFC00380) = true := by decide
/-- SUP4: a sign change. -/
theorem test_addu :
    goes (exec (.addu 8 9 8) (gpr 9 1 (gpr 8 0x7FFFFFFF (at1000 c64 0))))
      (fun t => t.readGpr 8 == 0xFFFFFFFF80000000) = true := by decide
/-- SUP5: a wrap. -/
theorem test_addu_wraps :
    goes (exec (.addu 8 9 8) (gpr 9 1 (gpr 8 0xFFFFFFFF (at1000 c32 0)))) (fun t => t.readGpr 8 == 0) = true := by decide
/-- SUP1. -/
theorem test_and :
    goes (exec (.and 8 9 8) (gpr 9 0xFFBFFFFB (gpr 8 0x400004 (at1000 c32 0)))) (fun t => t.readGpr 8 == 0) = true := by
  decide
/-- SUP2. -/
theorem test_or :
    goes (exec (.or 8 10 8) (gpr 10 0x8001 (at1000 c32 0))) (fun t => t.readGpr 8 == 0x8001) = true := by decide
/-- R21: register 0 discards a write. -/
theorem test_or_register0 :
    goes (exec (.or 8 8 0) (gpr 8 7 (at1000 c32 0))) (fun t => t.readGpr 0 == 0) = true := by decide
/-- ADR9. -/
theorem test_lw_sign :
    goes (exec (.lw 26 9 0) (word 0x2000 0x80000001 (gpr 26 0xFFFFFFFF80002000 (at1000 c64 0))))
      (fun t => t.readGpr 9 == 0xFFFFFFFF80000001) = true := by decide
/-- P5: a misaligned load. -/
theorem test_lw_misaligned :
    goes (exec (.lw 26 9 2) (gpr 26 0x80002000 (at1000 c32 0)))
      (fun t => t.cp0.badVaddr == 0x80002002 && t.cp0.epc == 0x80001000 && t.pc == 0x80000180) = true := by decide
/-- ADR7 and ADR8: the two byte orders. -/
theorem test_sw_big :
    goes (exec (.sw 26 8 0) (gpr 26 0x80002000 (gpr 8 0x11223344 (at1000 c32 0))))
      (fun t => t.mem == [(0x2000, 0x11), (0x2001, 0x22), (0x2002, 0x33), (0x2003, 0x44)]) = true := by decide
theorem test_sw_little :
    goes (exec (.sw 26 8 0) (gpr 26 0x80002000 (gpr 8 0x11223344 (at1000 { c32 with bigEndian := false } 0))))
      (fun t => t.mem == [(0x2000, 0x44), (0x2001, 0x33), (0x2002, 0x22), (0x2003, 0x11)]) = true := by decide
/-- R208, R213 to R215. -/
theorem test_deferred :
    exec (.cache 0 0 0) (at1000 c32 0) = .refused .cacheNotSpecified ∧
    exec (.pref 0 0 0) (at1000 c32 0) = .refused .prefNotSpecified ∧
    exec (.ll 26 8 0) (at1000 c32 0) = .refused .llNotSpecified ∧
    exec (.sc 26 8 0) (at1000 c32 0) = .refused .scNotSpecified := ⟨rfl, rfl, rfl, rfl⟩

/-! ### The machine -/

/-- ENT10 and ENT9: a refill-type miss with EXL = 0 and with EXL = 1. -/
theorem test_tlb_refill :
    goes (exec (.lw 26 9 0) (gpr 26 0x1000 (at1000 c32 1)))
      (fun t => t.cp0.epc == 0x80001000 && t.cp0.badVaddr == 0x1000 && t.pc == 0x80000000) = true ∧
    goes (exec (.lw 26 9 0) (gpr 26 0x1000 (at1000 c32 3)))
      (fun t => t.cp0.epc == 0 && t.cp0.badVaddr == 0x1000 && t.pc == 0x80000180) = true := by decide
/-- WAT1: a store to the watched doubleword. -/
theorem test_watch :
    exec (.sw 26 8 0) (gpr 26 0x80002004 (cp0 (fun f => { f with watchLo := 0x2001 }) (at1000 c32 0))) =
      .next (enter .watch .none (gpr 26 0x80002004 (cp0 (fun f => { f with watchLo := 0x2001 }) (at1000 c32 0)))) := rfl
/-- INT10: the timer interrupt. -/
theorem test_interrupt :
    goes (step (State.withFetchWord (cp0 (fun f => { f with timerPending := true }) (at1000 c32 0x8001)) 32 0))
      (fun t => t.cp0.epc == 0x80001000 && t.cp0.sr == 0x8003 && t.pc == 0x80000180) = true := by decide
/-- TMR1 and TMR3. -/
theorem test_timer_tick :
    (timerTick (cp0 (fun f => { f with count := 99, compare := 100 }) (at1000 c32 0))).cp0.timerPending = true ∧
    (timerTick (cp0 (fun f => { f with count := 0xFFFFFFFF }) (at1000 c32 0))).cp0.timerPending = true := by decide
/-- RST1: pc, SR and mode after reset. -/
theorem test_reset :
    State.reset.pc = 0xFFFFFFFFBFC00000 ∧ State.reset.cp0.sr = 0x400004 ∧ State.reset.mode = some .kernel := by decide
/-- RST3: soft reset. -/
theorem test_soft_reset :
    (softReset (gpr 8 7 (at1000 c32 0x8001))).cp0.sr = 0x508005 ∧
    (softReset (gpr 8 7 (at1000 c32 0x8001))).cp0.errorEpc = 0x80001000 := by decide
/-- SUP12: eret two instructions too early after a write of EPC. -/
theorem test_hazard :
    goes (exec (.mtc0 8 14) (gpr 8 0x80003000 (at1000 c32 2)))
      (fun t => match exec .eret t with
        | .refused r => r == .cp0Hazard
        | .next _ | .fault _ => false) = true := by decide
/-- SUP11: the load delay. -/
theorem test_load_delay :
    goes (exec (.mfc0 8 12) (at1000 c3 2))
      (fun t => match exec (.and 8 9 8) t with
        | .refused r => r == .loadDelay
        | .next _ | .fault _ => false) = true := by decide
/-- The first instruction after reset runs where `withFetchWord` places it. -/
theorem test_first_instruction :
    goes (step (State.withFetchWord State.reset 32 0x40086000)) (fun t => t.readGpr 8 == 0x400004) = true := by decide
/-- The memory after reset is in canonical form. -/
theorem test_reset_memory_wf : Memory.wf State.reset.mem = true := by decide

/-! ### Witnesses: for each statement with hypotheses, states and operands that meet them, clause by clause -/

theorem witness_DecodeOfEncode : (Instr.sll 0 0 2).wellFormed = true ∧ (Instr.sc 31 31 0xFFFF).wellFormed = true := by decide

theorem witness_EncodeOfDecode : decode 0x00000080 = .instr (.sll 0 0 2) := by decide

/-- The machine with instruction word `w` where its next fetch reads. -/
def fetching (w : Nat) (s : State) : State := s.withFetchWord 32 w

theorem turn (s : State) (h : s.schedule = []) : CpuTurn s s ∧ CpuTurn { s with schedule := [.cpu] } s :=
  ⟨.inl ⟨h, rfl⟩, .inr ⟨[], rfl, by cases s; cases h; rfl⟩⟩

theorem witness_StepRunsInstruction :
    CpuTurn { fetching 0x00084900 State.reset with schedule := [.cpu] } (fetching 0x00084900 State.reset) ∧
    Fetches .kernel (fetching 0x00084900 State.reset) ∧ (fetching 0x00084900 State.reset).pc.toNat % 4 = 0 ∧
    (fetching 0x00084900 State.reset).translate .kernel .fetch (fetching 0x00084900 State.reset).pc =
      .ok (0x1FC00000, .uncached) ∧
    (fetching 0x00084900 State.reset).ibe = false ∧ 0x1FC00000 + 4 ≤ 2 ^ Config.r4000.paBits ∧
    (∀ k, k < 4 → isPlain Config.r4000 (0x1FC00000 + k) = true) ∧
    (∀ a ∈ (fetching 0x00084900 State.reset).written, a < 0x1FC00000 ∨ 0x1FC00000 + 4 ≤ a) ∧
    decodeBytes true
      [(fetching 0x00084900 State.reset).readByte 0x1FC00000, (fetching 0x00084900 State.reset).readByte 0x1FC00001,
       (fetching 0x00084900 State.reset).readByte 0x1FC00002, (fetching 0x00084900 State.reset).readByte 0x1FC00003] =
      .instr (.sll 8 9 4) :=
  ⟨(turn _ rfl).2, ⟨by decide, by decide, by decide⟩, by decide, rfl, rfl, by decide, by decide, by decide, by decide⟩

/-- A fetched word outside the spec. -/
theorem witness_FetchRefused_word :
    CpuTurn (fetching 0x20 (at1000 c32 0)) (fetching 0x20 (at1000 c32 0)) ∧ Fetches .kernel (fetching 0x20 (at1000 c32 0)) ∧
    (fetching 0x20 (at1000 c32 0)).fetch = .word 0x20 ∧ (∀ row ∈ opcodeRows, (0x20 : Word32) &&& row.1 ≠ row.2) ∧
    ((0x20 : Word32) >>> 28 = 4 → (0x20 : Word32).extractLsb' 26 2 = 0) :=
  ⟨(turn _ rfl).1, ⟨by decide, by decide, by decide⟩, by decide, by simp [opcodeRows], by decide⟩

/-- The last byte of the fetched word was stored by the run. -/
theorem witness_FetchRefused_stored :
    Fetches .kernel { at1000 c32 0 with written := [0x1003] } ∧
    ({ at1000 c32 0 with written := [0x1003] } : State).translate .kernel .fetch 0x80001000 = .ok (0x1000, .perK0 0) ∧
    0x1003 < 0x1000 + 4 ∧ (∀ k, k < 4 → isPlain c32 (0x1000 + k) = true) :=
  ⟨⟨by decide, by decide, by decide⟩, rfl, by decide, by decide⟩

/-- A translation that is refused; a fetch that begins at 2 ^ PABITS; one whose last byte is no plain memory. -/
theorem witness_FetchRefused_address :
    (Fetches .kernel { at1000 c64 0 with pc := 0x80001000 } ∧
      ({ at1000 c64 0 with pc := 0x80001000 } : State).translate .kernel .fetch 0x80001000 =
        .error (.refuse (.segment64 0x80001000))) ∧
    (Fetches .kernel (at1000 { c32 with paBits := 12 } 0) ∧
      (at1000 { c32 with paBits := 12 } 0).translate .kernel .fetch 0x80001000 = .ok (0x1000, .perK0 0) ∧
      2 ^ 12 < 0x1000 + 4) ∧
    (Fetches .kernel (at1000 { c32 with plain := [{ base := 0x1000, size := 3 }] } 0) ∧
      isPlain { c32 with plain := [{ base := 0x1000, size := 3 }] } (0x1000 + 3) = false) :=
  ⟨⟨⟨by decide, by decide, by decide⟩, rfl⟩, ⟨⟨by decide, by decide, by decide⟩, rfl, by decide⟩,
   ⟨by decide, by decide, by decide⟩, by decide⟩

/-- CU1 = 0, and CU3 = 1 without a coprocessor 3. -/
theorem witness_CoprocessorUsableCheck :
    (CpuTurn (fetching 0x44000000 (at1000 c32 0)) (fetching 0x44000000 (at1000 c32 0)) ∧
      (fetching 0x44000000 (at1000 c32 0)).mode = some .kernel ∧
      (fetching 0x44000000 (at1000 c32 0)).takesInterrupt = false ∧
      (fetching 0x44000000 (at1000 c32 0)).fetch = .word 0x44000000 ∧ (0x44000000 : Word32) >>> 28 = 4 ∧
      (0x44000000 : Word32).extractLsb' 26 2 = 1 ∧ (fetching 0x44000000 (at1000 c32 0)).oldViews = [] ∧
      srCu (fetching 0x44000000 (at1000 c32 0)).cp0.sr 1 = false) ∧
    ((fetching 0x4C000000 (at1000 c32 0x80000000)).takesInterrupt = false ∧
      (fetching 0x4C000000 (at1000 c32 0x80000000)).fetch = .word 0x4C000000 ∧
      (0x4C000000 : Word32).extractLsb' 26 2 = 3 ∧ srCu (fetching 0x4C000000 (at1000 c32 0x80000000)).cp0.sr 3 = true) :=
  ⟨⟨(turn _ rfl).1, by decide, by decide, by decide, by decide, by decide, rfl, by decide⟩,
   by decide, by decide, by decide, by decide⟩

/-- A misaligned pc; the first address above kuseg in user mode; the first above kuseg and the last in supervisor mode; a bus
error; an invalid page. -/
theorem witness_FetchFaults :
    (Fetches .kernel { at1000 c32 0 with pc := 0x80001001 } ∧ (0x80001001 : Word).toNat % 4 ≠ 0) ∧
    (Fetches .user { at1000 c32 0x10 with pc := 0x80000000 } ∧ (0x7FFFFFFF : Word32) < lo32 (0x80000000 : Word)) ∧
    (Fetches .supervisor { at1000 c32 0x08 with pc := 0x80000000 } ∧
      Fetches .supervisor { at1000 c32 0x08 with pc := 0xFFFFFFFC } ∧ (0xDFFFFFFF : Word32) < lo32 (0xFFFFFFFC : Word)) ∧
    (Fetches .kernel { at1000 c32 0 with ibe := true } ∧
      ({ at1000 c32 0 with ibe := true } : State).translate .kernel .fetch 0x80001000 = .ok (0x1000, .perK0 0)) ∧
    (Fetches .user { at1000 c32 0x10 with pc := 0x7FFFFFFC, tlb := [⟨0x7FFFF000, 0x1000, none, .miss false⟩] } ∧
      Mapped .user 0x7FFFFFFC
        { at1000 c32 0x10 with pc := 0x7FFFFFFC, tlb := [⟨0x7FFFF000, 0x1000, none, .miss false⟩] } ∧
      ({ at1000 c32 0x10 with tlb := [⟨0x7FFFF000, 0x1000, none, .miss false⟩] } : State).oracle .fetch 0x7FFFFFFC =
        .miss false) :=
  ⟨⟨⟨by decide, by decide, by decide⟩, by decide⟩, ⟨⟨by decide, by decide, by decide⟩, by decide⟩,
   ⟨⟨by decide, by decide, by decide⟩, ⟨by decide, by decide, by decide⟩, by decide⟩,
   ⟨⟨by decide, by decide, by decide⟩, rfl⟩,
   ⟨by decide, by decide, by decide⟩, ⟨by decide, by decide, by decide, by decide, by decide, by decide⟩, by decide⟩

/-- A timer interrupt before a NOP on the R4000 style, and input 5 on the R3000 style. -/
theorem witness_InterruptTaken :
    (let t := fetching 0 (cp0 (fun f => { f with timerPending := true }) (at1000 c32 0x8001))
     CpuTurn t t ∧ t.hazards = [] ∧ (t.cfg.style = .r3000 → srIec t.cp0.sr = true) ∧
     (srIe t.cp0.sr = true ∧ srExl t.cp0.sr = false ∧ srErl t.cp0.sr = false) ∧
     causeIp t.liveCause &&& srIm t.cp0.sr ≠ 0 ∧ t.instructionRaises = false) ∧
    (let t := fetching 0 { at1000 c3 0x8003 with extInt := 0x20 }
     CpuTurn t t ∧ t.hazards = [] ∧ srIec t.cp0.sr = true ∧ (t.cfg.style = .r4000 → srIe t.cp0.sr = true) ∧
     causeIp t.liveCause &&& srIm t.cp0.sr ≠ 0 ∧ t.instructionRaises = false) :=
  ⟨⟨(turn _ rfl).1, rfl, by decide, by decide, by decide, by decide⟩,
   (turn _ rfl).1, rfl, by decide, by decide, by decide, by decide⟩

/-- A masked request; IEc = 0; IE = 0; EXL = 1; ERL = 1. -/
theorem witness_InterruptBlocked :
    (at1000 c32 0x7F01).hazards = [] ∧
    (let s := cp0 (fun f => { f with timerPending := true }) (at1000 c32 0x7F01)
     causeIp s.liveCause &&& srIm s.cp0.sr = 0) ∧
    ((at1000 c3 0x8002).cfg.style = .r3000 ∧ srIec (at1000 c3 0x8002).cp0.sr = false) ∧
    srIe (at1000 c32 0x8000).cp0.sr = false ∧ srExl (at1000 c32 0x8003).cp0.sr = true ∧
    srErl (at1000 c32 0x8005).cp0.sr = true := by decide

/-- Every instruction may execute on a settled machine in kernel mode. -/
theorem runs (i : Instr) (c : Config) (sr : Word32) (m : Mode) (h : (at1000 c sr).mode = some m) : Runs i m (at1000 c sr) :=
  runs_of_settled h rfl rfl

theorem witness_RegisterResult :
    StaysInSpace (at1000 c32 0) ∧ StaysInSpace { at1000 c32 0 with pc := 0xFFFFFFF8 } ∧
    StaysInSpace { at1000 c32 0 with pc := 0xFFFFFFFC, inDelay := true } ∧
    Runs (.and 8 9 0) .kernel (at1000 c32 0) ∧ Runs (.or 8 9 31) .user (at1000 c32 0x10) ∧
    Runs (.sll 8 9 31) .kernel { at1000 c32 0 with pc := 0xFFFFFFFC, inDelay := true } :=
  ⟨.inr (by decide), .inr (by decide), .inl rfl, runs _ _ _ _ (by decide), runs _ _ _ _ (by decide),
   runs_of_settled (by decide) rfl rfl⟩

/-- Two sign-extended words with XLEN = 64, any operands with XLEN = 32, and an operand that is no word. -/
theorem witness_AdduResult :
    (let s := gpr 8 0xFFFFFFFF80000000 (at1000 c64 0)
     Runs (.addu 8 9 8) .kernel s ∧ s.readGpr 8 = (lo32 (s.readGpr 8)).signExtend 64 ∧
       s.readGpr 9 = (lo32 (s.readGpr 9)).signExtend 64 ∧ StaysInSpace s) ∧
    (let s := gpr 8 0x80000000 (at1000 c64 0)
     Runs (.addu 8 9 8) .kernel s ∧ s.cfg.xlen = .x64 ∧ s.readGpr 8 ≠ (lo32 (s.readGpr 8)).signExtend 64) :=
  ⟨⟨runs_of_settled (by decide) rfl rfl, by decide, by decide, .inr (by decide)⟩,
   runs_of_settled (by decide) rfl rfl, rfl, by decide⟩

theorem witness_NoOperationResult :
    Runs .nop .kernel (at1000 c3 2) ∧ Runs .ssnop .user (at1000 c3 0) ∧ Runs (.sync 31) .kernel (at1000 c32 0) ∧
    StaysInSpace (at1000 c3 2) ∧ StaysInSpace (at1000 c3 0) ∧ StaysInSpace (at1000 c32 0) :=
  ⟨runs _ _ _ _ (by decide), runs _ _ _ _ (by decide), runs _ _ _ _ (by decide), .inr (by decide), .inr (by decide),
   .inr (by decide)⟩

/-- A state in which `lw` and `sw` with base 26 and offset 0 reach physical address 0x2000. -/
def access (c : Config) (sr : Word32) : State := gpr 26 (c.sext 0x80002000) (gpr 8 0x11223344 (at1000 c sr))

theorem accessible (c : Config) (hc : c = c32 ∨ c = c64 ∨ c = c3) (kind : AccessKind) :
    Accessible .kernel kind (accessAddress (access c 2) 26 0) 0x2000 (access c 2) := by
  rcases hc with rfl | rfl | rfl <;> cases kind <;>
    exact ⟨by decide, by decide, ⟨_, rfl⟩, by decide, by decide, by decide, by decide⟩

theorem witness_LwResult :
    Runs (.lw 26 9 0) .kernel (access c32 2) ∧ Runs (.lw 26 0 0) .kernel (access c3 2) ∧ StaysInSpace (access c32 2) ∧
    Accessible .kernel .load (accessAddress (access c32 2) 26 0) 0x2000 (access c32 2) ∧
    Accessible .kernel .load (accessAddress (access c3 2) 26 0) 0x2000 (access c3 2) :=
  ⟨runs_of_settled (by decide) rfl rfl, runs_of_settled (by decide) rfl rfl, .inr (by decide), accessible _ (by simp) _,
   accessible _ (by simp) _⟩

theorem witness_SwResult :
    Runs (.sw 26 8 0) .kernel (access c64 2) ∧ StaysInSpace (access c64 2) ∧
    Accessible .kernel .store (accessAddress (access c64 2) 26 0) 0x2000 (access c64 2) :=
  ⟨runs_of_settled (by decide) rfl rfl, .inr (by decide), accessible _ (by simp) _⟩

theorem witness_LoadAfterStore :
    Runs (.sw 26 8 0) .kernel (access c32 2) ∧ StaysInSpace (access c32 2) ∧
    Accessible .kernel .store (accessAddress (access c32 2) 26 0) 0x2000 (access c32 2) ∧
    Accessible .kernel .load (accessAddress (access c32 2) 26 0) 0x2000 (access c32 2) ∧
    ∃ t, exec (.sw 26 8 0) (access c32 2) = .next t ∧ Runs (.lw 26 9 0) .kernel t ∧ StaysInSpace t :=
  ⟨runs_of_settled (by decide) rfl rfl, .inr (by decide), accessible _ (by simp) _, accessible _ (by simp) _,
   _, rfl, runs_of_settled (by decide) rfl rfl, .inr (by decide)⟩

/-- A state of which general register 26 holds the address of an access. -/
def accessing (c : Config) (sr : Word32) (va : Word) : State := gpr 26 va (at1000 c sr)

/-- Misaligned; the first address above kuseg in user mode; the ends of the supervisor's gaps. -/
theorem witness_AccessAddressError :
    (Runs (WordAccess.store 26 8 0).instr .kernel (accessing c32 0 0x80000003) ∧
      ((WordAccess.store 26 8 0).address (accessing c32 0 0x80000003)).toNat % 4 ≠ 0) ∧
    (Runs (WordAccess.load 26 8 0).instr .user (accessing c32 0x10 0x80000000) ∧
      Starts (.load 26 8 0) (accessing c32 0x10 0x80000000) ∧
      (0x7FFFFFFF : Word32) < lo32 ((WordAccess.load 26 8 0).address (accessing c32 0x10 0x80000000))) ∧
    (Runs (WordAccess.load 26 8 0).instr .supervisor (accessing c32 0x08 0xBFFFFFFC) ∧
      Starts (.load 26 8 0) (accessing c32 0x08 0xBFFFFFFC) ∧
      lo32 ((WordAccess.load 26 8 0).address (accessing c32 0x08 0xBFFFFFFC)) < 0xC0000000) ∧
    (Starts (.load 26 8 0) (accessing c32 0x08 0xE0000000) ∧
      (0xDFFFFFFF : Word32) < lo32 ((WordAccess.load 26 8 0).address (accessing c32 0x08 0xE0000000))) :=
  ⟨⟨runs_of_settled (by decide) rfl rfl, by decide⟩,
   ⟨runs_of_settled (by decide) rfl rfl, ⟨by decide, by decide⟩, by decide⟩,
   ⟨runs_of_settled (by decide) rfl rfl, ⟨by decide, by decide⟩, by decide⟩, ⟨by decide, by decide⟩, by decide⟩

/-- A store to the last word of the watched doubleword, a load of its first; a bus error for a load. -/
theorem witness_WatchAndBusError :
    (let s := cp0 (fun f => { f with watchLo := 0x2003 }) (accessing c32 0 0x80002004)
     Runs (WordAccess.store 26 8 0).instr .kernel s ∧ Starts (.store 26 8 0) s ∧
       s.translate .kernel .store ((WordAccess.store 26 8 0).address s) = .ok (0x2004, .perK0 0) ∧
       s.cp0.watchLo.getLsbD 0 = true ∧ s.cp0.watchLo.getLsbD 1 = true ∧
       0x2004 % 2 ^ s.cfg.paBits / 8 =
         (s.cp0.watchHi.extractLsb' 0 4 ++ s.cp0.watchLo.extractLsb' 3 29 ++ 0#3).toNat % 2 ^ s.cfg.paBits / 8 ∧
       ¬ (s.cfg.watchMaskedByExl = true ∧ (srExl s.cp0.sr = true ∨ srErl s.cp0.sr = true))) ∧
    (let s : State := { accessing c32 0 0x80002000 with dbe := true }
     Runs (WordAccess.load 26 8 0).instr .kernel s ∧ Starts (.load 26 8 0) s ∧
       s.translate .kernel .load ((WordAccess.load 26 8 0).address s) = .ok (0x2000, .perK0 0) ∧
       s.watchMatch 0x2000 .load = false ∧ s.dbe = true) :=
  ⟨⟨runs_of_settled (by decide) rfl rfl, ⟨by decide, by decide⟩, rfl, by decide, by decide, by decide, by decide⟩,
   runs_of_settled (by decide) rfl rfl, ⟨by decide, by decide⟩, rfl, by decide, rfl⟩

/-- A machine with one rule of the oracle for the page at 0x1000, and an access to that page. -/
def mapped (c : Config) (sr : Word32) (answer : TlbAnswer) : State :=
  { accessing c sr 0x1000 with tlb := [⟨0x1000, 0x1000, none, answer⟩] }

theorem mapped_settled (c : Config) (hc : c = c32 ∨ c = c3) (a : WordAccess)
    (ha : a = .load 26 8 0 ∨ a = .store 26 8 0) (answer : TlbAnswer)
    (hx : answer = .miss false ∨ answer = .miss true ∨ answer = .doubleMatch ∨ answer = .hit 0x5000 3 false) :
    Runs a.instr .kernel (mapped c 2 answer) ∧ Starts a (mapped c 2 answer) ∧
    Mapped .kernel (a.address (mapped c 2 answer)) (mapped c 2 answer) := by
  rcases hc with rfl | rfl <;> rcases ha with rfl | rfl <;> rcases hx with rfl | rfl | rfl | rfl <;>
    exact ⟨runs_of_settled (by decide) rfl rfl, ⟨by decide, by decide⟩,
      ⟨by decide, by decide, by decide, by decide, by decide, by decide⟩⟩

/-- A miss of a load and a read-only page of a store; a hit of a load on a page that is not writable, of a store on one that is. -/
theorem witness_MappedAccessFaults :
    (Runs (WordAccess.load 26 8 0).instr .kernel (mapped c32 2 (.miss false)) ∧
      Starts (.load 26 8 0) (mapped c32 2 (.miss false)) ∧
      Mapped .kernel ((WordAccess.load 26 8 0).address (mapped c32 2 (.miss false))) (mapped c32 2 (.miss false)) ∧
      (mapped c32 2 (.miss false)).oracle .load 0x1000 = .miss false) ∧
    (Runs (WordAccess.store 26 8 0).instr .kernel (mapped c3 2 (.hit 0x5000 3 false)) ∧
      (mapped c3 2 (.hit 0x5000 3 false)).oracle .store 0x1000 = .hit 0x5000 3 false ∧ c3.hasTlb = true) ∧
    (Mapped .kernel 0x1FFC (mapped c32 2 (.hit 0x5000 3 false)) ∧
      (mapped c32 2 (.hit 0x5000 3 false)).oracle .load (lo32 0x1FFC) = .hit 0x5FFC 3 false ∧
      Mapped .user 0x1000 (mapped c3 0 (.hit 0x5000 3 true)) ∧
      (mapped c3 0 (.hit 0x5000 3 true)).oracle .store (lo32 0x1000) = .hit 0x5000 3 true) :=
  have h := mapped_settled c32 (by simp) (.load 26 8 0) (by simp) (.miss false) (by simp)
  ⟨⟨h.1, h.2.1, h.2.2, by decide⟩, ⟨(mapped_settled c3 (by simp) (.store 26 8 0) (by simp) _ (by simp)).1, by decide, rfl⟩,
   by constructor <;> decide, by decide, by constructor <;> decide, by decide⟩

/-- A machine in mode bits `sr` that fetches at the mapped address 0x1000, and one rule of the oracle for its page. -/
def fetchMapped (c : Config) (sr : Word32) (answer : TlbAnswer) : State :=
  { at1000 c sr with pc := 0x1000, npc := 0x1004, tlb := [⟨0x1000, 0x1000, none, answer⟩] }

/-- A load on the R4000 style, a store on the R3000 style; the fetch of a user program on both. -/
theorem witness_TlbRefillEntry :
    (Runs (WordAccess.load 26 8 0).instr .kernel (mapped c32 2 (.miss true)) ∧
      Starts (.load 26 8 0) (mapped c32 2 (.miss true)) ∧
      Mapped .kernel ((WordAccess.load 26 8 0).address (mapped c32 2 (.miss true))) (mapped c32 2 (.miss true)) ∧
      (mapped c32 2 (.miss true)).oracle .load 0x1000 = .miss true ∧
      c32.vectors.xtlbRefill = some { bev0 := 0x80000080, bev1 := 0xBFC00280 }) ∧
    (Runs (WordAccess.store 26 8 0).instr .kernel (mapped c3 2 (.miss true)) ∧
      (mapped c3 2 (.miss true)).oracle .store 0x1000 = .miss true) ∧
    (Fetches .user (fetchMapped c64 0x30 (.miss true)) ∧ Mapped .user 0x1000 (fetchMapped c64 0x30 (.miss true)) ∧
      (fetchMapped c64 0x30 (.miss true)).oracle .fetch (lo32 0x1000) = .miss true) ∧
    (Fetches .user (fetchMapped c3 0 (.miss true)) ∧ Mapped .user 0x1000 (fetchMapped c3 0 (.miss true))) :=
  have h := mapped_settled c32 (by simp) (.load 26 8 0) (by simp) (.miss true) (by simp)
  ⟨⟨h.1, h.2.1, h.2.2, by decide, rfl⟩, ⟨(mapped_settled c3 (by simp) (.store 26 8 0) (by simp) _ (by simp)).1, by decide⟩,
   ⟨by constructor <;> decide, by constructor <;> decide, by decide⟩, by constructor <;> decide, by constructor <;> decide⟩

/-- A double match of a load and of a fetch; a state with TS set. -/
theorem witness_TlbShutdown :
    (Runs (WordAccess.load 26 8 0).instr .kernel (mapped c32 2 .doubleMatch) ∧
      Starts (.load 26 8 0) (mapped c32 2 .doubleMatch) ∧
      Mapped .kernel ((WordAccess.load 26 8 0).address (mapped c32 2 .doubleMatch)) (mapped c32 2 .doubleMatch) ∧
      (mapped c32 2 .doubleMatch).oracle .load 0x1000 = .doubleMatch ∧ c32.hasTlb = true ∧ c32.implementsTs = true) ∧
    (Fetches .user (fetchMapped c32 0x10 .doubleMatch) ∧ Mapped .user 0x1000 (fetchMapped c32 0x10 .doubleMatch) ∧
      (fetchMapped c32 0x10 .doubleMatch).oracle .fetch (lo32 0x1000) = .doubleMatch) ∧
    srTs (at1000 c32 0x200000).cp0.sr = true :=
  have h := mapped_settled c32 (by simp) (.load 26 8 0) (by simp) .doubleMatch (by simp)
  ⟨⟨h.1, h.2.1, h.2.2, by decide, rfl, rfl⟩,
   ⟨by constructor <;> decide, by constructor <;> decide, by decide⟩, by decide⟩

/-- Isolated caches; no sign-extended address; no TLB; plain memory that ends a byte early; a double match without TS; an
access that begins at 2 ^ PABITS. -/
theorem witness_RefusedAccesses :
    (Runs (WordAccess.load 26 8 0).instr .kernel (accessing c3 0x10002 0x80002000) ∧
      srIsc (accessing c3 0x10002 0x80002000).cp0.sr = true ∧ srSwc (accessing c3 0x20002 0x80002000).cp0.sr = true) ∧
    (Runs (WordAccess.load 26 8 0).instr .kernel (accessing c64 0 0x80000000) ∧
      (WordAccess.load 26 8 0).address (accessing c64 0 0x80000000) ≠
        (lo32 ((WordAccess.load 26 8 0).address (accessing c64 0 0x80000000))).signExtend 64) ∧
    (let s := accessing { c32 with hasTlb := false } 2 0x1000
     Starts (.load 26 8 0) s ∧ Mapped .kernel ((WordAccess.load 26 8 0).address s) s ∧ s.cfg.hasTlb = false) ∧
    (let s := accessing { c32 with plain := [{ base := 0x2000, size := 3 }] } 0 0x80002000
     Starts (.load 26 8 0) s ∧
       s.translate .kernel .load ((WordAccess.load 26 8 0).address s) = .ok (0x2000, .perK0 0) ∧
       s.watchMatch 0x2000 .load = false ∧ s.dbe = false ∧ 0x2000 + 4 ≤ 2 ^ s.cfg.paBits ∧
       isPlain s.cfg (0x2000 + 3) = false) ∧
    (let s : State :=
       { accessing { c32 with implementsTs := false } 2 0x1000 with tlb := [⟨0x1000, 0x1000, none, .doubleMatch⟩] }
     Starts (.load 26 8 0) s ∧ Mapped .kernel ((WordAccess.load 26 8 0).address s) s ∧
       s.oracle .load (lo32 ((WordAccess.load 26 8 0).address s)) = .doubleMatch) ∧
    (let s := accessing { c32 with paBits := 13 } 0 0x80002000
     Starts (.load 26 8 0) s ∧
       s.translate .kernel .load ((WordAccess.load 26 8 0).address s) = .ok (0x2000, .perK0 0) ∧
       s.watchMatch 0x2000 .load = false ∧ s.dbe = false ∧ 2 ^ s.cfg.paBits < 0x2000 + 4) :=
  ⟨⟨runs_of_settled (by decide) rfl rfl, by decide, by decide⟩, ⟨runs_of_settled (by decide) rfl rfl, by decide⟩,
   ⟨⟨by decide, by decide⟩, ⟨by decide, by decide, by decide, by decide, by decide, by decide⟩, rfl⟩,
   ⟨⟨by decide, by decide⟩, rfl, by decide, rfl, by decide, by decide⟩,
   ⟨⟨by decide, by decide⟩, ⟨by decide, by decide, by decide, by decide, by decide, by decide⟩, by decide⟩,
   ⟨by decide, by decide⟩, rfl, by decide, rfl, by decide⟩

/-- The last word of kuseg in user mode, and the last the supervisor may use. -/
theorem witness_UserAddressesStayInKuseg :
    ({ at1000 c32 0x10 with tlb := [⟨0x7FFFF000, 0x1000, none, .hit 0x5000 3 true⟩] } : State).translate .user .load
      0x7FFFFFFC = .ok (0x5FFC, .page 3) ∧
    ({ at1000 c32 0x08 with tlb := [⟨0xDFFFF000, 0x1000, none, .hit 0x5000 3 true⟩] } : State).translate .supervisor .load
      0xDFFFFFFC = .ok (0x5FFC, .page 3) := ⟨rfl, rfl⟩

/-- The ends of kseg0, of kseg1, and of kuseg with ERL = 1. -/
theorem witness_UnmappedSegments :
    c32.segments = Segments.standard ∧ (0x80000000 : Word32) ≤ lo32 (0x80000000 : Word) ∧
    lo32 (0x9FFFFFFF : Word) < 0xA0000000 ∧ (0xA0000000 : Word32) ≤ lo32 (0xA0000000 : Word) ∧
    lo32 (0xBFFFFFFF : Word) < 0xC0000000 ∧ srErl (at1000 c32 0x14).cp0.sr = true ∧
    lo32 (0x7FFFFFFF : Word) ≤ 0x7FFFFFFF ∧ (0xFFFFFFFF80000000 : Word) = (lo32 (0xFFFFFFFF80000000 : Word)).signExtend 64 := by
  decide

/-- Cause in kernel mode on the R3000 style; ErrorEPC in user mode with CU0 = 1 on the R4000 style. -/
theorem witness_Mfc0Result :
    ((13, zext64 (at1000 c3 2).liveCause, false) ∈ cp0Values (at1000 c3 2) ∧ Runs (.mfc0 0 13) .kernel (at1000 c3 2) ∧
      StaysInSpace (at1000 c3 2)) ∧
    ((30, (at1000 c32 0x10000010).cp0.errorEpc, true) ∈ cp0Values (at1000 c32 0x10000010) ∧
      Runs (.mfc0 8 30) .user (at1000 c32 0x10000010) ∧ srCu (at1000 c32 0x10000010).cp0.sr 0 = true) :=
  ⟨⟨by decide, runs _ _ _ _ (by decide), .inr (by decide)⟩, by decide, runs _ _ _ _ (by decide), by decide⟩

theorem witness_Dmfc0Result :
    (14, (at1000 c64 0x10000030).cp0.epc, true) ∈ cp0Values (at1000 c64 0x10000030) ∧
    (12, zext64 0x10000030, false) ∈ cp0Values (at1000 c64 0x10000030) ∧
    Runs (.dmfc0 8 14) .user (at1000 c64 0x10000030) ∧ StaysInSpace (at1000 c64 0x10000030) ∧ c64.xlen = .x64 ∧
    srCu (at1000 c64 0x10000030).cp0.sr 0 = true ∧ (at1000 c64 0x10000030).dw64Allowed .user = true :=
  ⟨by decide, by decide, runs _ _ _ _ (by decide), .inr (by decide), rfl, by decide, by decide⟩

/-- MTC0 to every register a statement names, in kernel mode, in both styles where both have it. -/
theorem witness_Mtc0 (n : RegNum) :
    Runs (.mtc0 8 n) .kernel (at1000 c32 0) ∧ Runs (.mtc0 8 n) .kernel (at1000 c3 2) ∧
    StaysInSpace (at1000 c32 0) ∧ StaysInSpace (at1000 c3 2) ∧ c32.style = .r4000 ∧ c3.style = .r3000 :=
  ⟨runs _ _ _ _ (by decide), runs _ _ _ _ (by decide), .inr (by decide), .inr (by decide), rfl, rfl⟩

theorem witness_Mtc0Status : Runs (.mtc0 8 12) .kernel (at1000 c32 0) ∧ Runs (.mtc0 8 12) .kernel (at1000 c3 2) ∧
    StaysInSpace (at1000 c32 0) := ⟨(witness_Mtc0 12).1, (witness_Mtc0 12).2.1, (witness_Mtc0 12).2.2.1⟩

theorem witness_Mtc0Cause : Runs (.mtc0 8 13) .kernel (at1000 c32 0) ∧ StaysInSpace (at1000 c32 0) :=
  ⟨(witness_Mtc0 13).1, (witness_Mtc0 13).2.2.1⟩

/-- Compare; Count, unequal and equal to Compare. -/
theorem witness_Mtc0Timer : Runs (.mtc0 8 11) .kernel (at1000 c32 0) ∧ Runs (.mtc0 8 9) .kernel (at1000 c32 0) ∧
    lo32 ((gpr 8 7 (at1000 c32 0)).readGpr 8) ≠ (at1000 c32 0).cp0.compare ∧
    lo32 ((at1000 c32 0).readGpr 8) = (at1000 c32 0).cp0.compare ∧ StaysInSpace (at1000 c32 0) :=
  ⟨(witness_Mtc0 11).1, (witness_Mtc0 9).1, by decide, by decide, (witness_Mtc0 9).2.2.1⟩

theorem witness_Mtc0ReturnAddress : Runs (.mtc0 8 14) .kernel (at1000 c32 0) ∧ Runs (.mtc0 8 30) .kernel (at1000 c32 0) ∧
    Runs (.mtc0 8 14) .kernel (at1000 c3 2) ∧ StaysInSpace (at1000 c32 0) :=
  ⟨(witness_Mtc0 14).1, (witness_Mtc0 30).1, (witness_Mtc0 14).2.1, (witness_Mtc0 14).2.2.1⟩

/-- Config keeps all but K0; a change of EB, of EM, and of a writable BE. -/
theorem witness_Mtc0Config :
    Runs (.mtc0 8 16) .kernel (at1000 c32 0) ∧ StaysInSpace (at1000 c32 0) ∧
    ((at1000 c32 0).cp0.config ^^^ 0x00009007) &&& ~~~(0x7 ||| 0x1000) = 0 ∧
    ((at1000 c32 0).cp0.config ^^^ 0x0000C000) &&& ~~~(0x7 ||| 0x1000) ≠ 0 ∧
    (((at1000 c32 0).cp0.config ^^^ 0x00000000) &&& ~~~(0x7 ||| 0x1000)).getLsbD 15 = true ∧
    Runs (.mtc0 8 16) .kernel (at1000 { c32 with beWritable := true } 0) :=
  ⟨(witness_Mtc0 16).1, (witness_Mtc0 16).2.2.1, by decide, by decide, by decide, runs _ _ _ _ (by decide)⟩

/-- WatchLo and WatchHi on the R4000 style, BadVaddr and PRId on both. -/
theorem witness_Mtc0WatchAndReadOnly : Runs (.mtc0 8 18) .kernel (at1000 c32 0) ∧ Runs (.mtc0 8 19) .kernel (at1000 c32 0) ∧
    Runs (.mtc0 8 8) .kernel (at1000 c32 0) ∧ Runs (.mtc0 8 15) .kernel (at1000 c3 2) ∧
    StaysInSpace (at1000 c32 0) ∧ StaysInSpace (at1000 c3 2) :=
  ⟨(witness_Mtc0 18).1, (witness_Mtc0 19).1, (witness_Mtc0 8).1, (witness_Mtc0 15).2.1, (witness_Mtc0 8).2.2.1,
   (witness_Mtc0 8).2.2.2.1⟩

theorem witness_Dmtc0Result :
    Runs (.dmtc0 8 14) .kernel (at1000 c64 0) ∧ Runs (.dmtc0 8 30) .kernel (at1000 c64 0) ∧
    Runs (.dmtc0 8 8) .kernel (at1000 c64 0) ∧ Runs (.mtc0 8 8) .kernel (at1000 c64 0) ∧
    Runs (.dmtc0 8 19) .kernel (at1000 c64 0) ∧ Runs (.mtc0 8 19) .kernel (at1000 c64 0) ∧
    StaysInSpace (at1000 c64 0) ∧ c64.style = .r4000 ∧ c64.xlen = .x64 ∧ (at1000 c64 0).dw64Allowed .kernel = true :=
  ⟨runs _ _ _ _ (by decide), runs _ _ _ _ (by decide), runs _ _ _ _ (by decide), runs _ _ _ _ (by decide),
   runs _ _ _ _ (by decide), runs _ _ _ _ (by decide), .inr (by decide), rfl, rfl, by decide⟩

theorem witness_Cp0NumberRefused :
    ((0, Refusal.mmuRegister 0) ∈ cp0RefusedNumbers c64 ∧ Runs (.mfc0 8 0) .kernel (at1000 c64 0) ∧
      Runs (.dmtc0 8 0) .kernel (at1000 c64 0) ∧ (at1000 c64 0).dw64Allowed .kernel = true) ∧
    ((31, Refusal.registerNotSpecified 31) ∈ cp0RefusedNumbers c3 ∧ Runs (.mtc0 8 31) .kernel (at1000 c3 2)) ∧
    (17, Refusal.llAddrRegister) ∈ cp0RefusedNumbers c32 ∧ (29, Refusal.cacheErrorRegister 29) ∈ cp0RefusedNumbers c32 :=
  ⟨⟨by decide, runs _ _ _ _ (by decide), runs _ _ _ _ (by decide), by decide⟩, ⟨by decide, runs _ _ _ _ (by decide)⟩,
   by decide, by decide⟩

/-- Each group of instructions where CP0 is not usable. -/
theorem witness_Cp0Unusable :
    srCu (at1000 c32 0x10).cp0.sr 0 = false ∧ Runs .tlbp .user (at1000 c32 0x10) ∧ Runs .rfe .user (at1000 c3 0) ∧
    Runs .eret .supervisor (at1000 c32 0x08) ∧ Runs (.cache 0 0 0) .user (at1000 c32 0x10) ∧
    Runs (.dmfc0 8 14) .user (at1000 c64 0x30) ∧ (at1000 c64 0x30).dw64Allowed .user = true :=
  ⟨by decide, runs _ _ _ _ (by decide), runs _ _ _ _ (by decide), runs _ _ _ _ (by decide), runs _ _ _ _ (by decide),
   runs _ _ _ _ (by decide), by decide⟩

theorem witness_DoublewordMoveTraps :
    Runs (.dmfc0 8 14) .kernel (at1000 c32 0) ∧ c32.xlen = .x32 ∧
    Runs (.dmtc0 8 14) .user (at1000 c64 0x10000010) ∧ srUx (at1000 c64 0x10000010).cp0.sr = false ∧
    Runs (.dmtc0 8 14) .supervisor (at1000 c64 0x08) ∧ srSx (at1000 c64 0x08).cp0.sr = false :=
  ⟨runs _ _ _ _ (by decide), rfl, runs _ _ _ _ (by decide), by decide, runs _ _ _ _ (by decide), by decide⟩

theorem witness_UndefinedInstructionTraps :
    Runs .eret .user (at1000 c3 0) ∧ Runs (.sync 1) .kernel (at1000 c3 2) ∧ Runs .rfe .kernel (at1000 c32 0) ∧
    Runs .rfe .user (at1000 c32 0x10) :=
  ⟨runs _ _ _ _ (by decide), runs _ _ _ _ (by decide), runs _ _ _ _ (by decide), runs _ _ _ _ (by decide)⟩

theorem witness_RfeResult :
    c3.style = .r3000 ∧ Runs .rfe .kernel (at1000 c3 2) ∧ StaysInSpace (at1000 c3 2) ∧
    Runs .rfe .user (at1000 c3 0x10000000) ∧ srCu (at1000 c3 0x10000000).cp0.sr 0 = true :=
  ⟨rfl, runs _ _ _ _ (by decide), .inr (by decide), runs _ _ _ _ (by decide), by decide⟩

/-- ERL = 1 with EXL = 1, ERL = 0, and a delay slot. -/
theorem witness_EretResult :
    Runs .eret .kernel (at1000 c32 6) ∧ srErl (at1000 c32 6).cp0.sr = true ∧ Runs .eret .kernel (at1000 c32 2) ∧
    srErl (at1000 c32 2).cp0.sr = false ∧ (at1000 c32 2).inDelay = false ∧
    Runs .eret .kernel { at1000 c32 2 with inDelay := true } :=
  ⟨runs _ _ _ _ (by decide), by decide, runs _ _ _ _ (by decide), by decide, rfl, runs_of_settled (by decide) rfl rfl⟩

theorem witness_JrResult :
    Runs (.jr 26) .kernel (at1000 c32 0) ∧ (at1000 c32 0).inDelay = false ∧ StaysInSpace (at1000 c32 0) ∧
    Runs (.jr 26) .user { at1000 c32 0x10 with inDelay := true } :=
  ⟨runs _ _ _ _ (by decide), rfl, .inr (by decide), runs_of_settled (by decide) rfl rfl⟩

theorem witness_TrapResult :
    Runs (.syscall 0) .user (at1000 c32 0x10) ∧ Runs (.syscall 0xFFFFF) .kernel (at1000 c32 2) ∧
    Runs (.brk 0) .user (at1000 c3 0) :=
  ⟨runs _ _ _ _ (by decide), runs _ _ _ _ (by decide), runs _ _ _ _ (by decide)⟩

/-- The entry of an interrupt, and of a BREAK in user mode. -/
theorem witness_RfeUndoesEntry :
    c3.style = .r3000 ∧ StaysInSpace (enter .int .none (at1000 c3 0x0D)) ∧
    Runs (.brk 0) .user (at1000 c3 0x0D) ∧ ∃ t, exec (.brk 0) (at1000 c3 0x0D) = .next t ∧ StaysInSpace t :=
  ⟨rfl, .inr (by decide), runs _ _ _ _ (by decide), _, rfl, .inr (by decide)⟩

theorem witness_EretUndoesEntry :
    srExl (at1000 c32 0x11).cp0.sr = false ∧ srErl (at1000 c32 0x11).cp0.sr = false ∧ (at1000 c32 0x11).inDelay = false ∧
    c32.style = .r4000 ∧ Runs (.syscall 0) .user (at1000 c32 0x11) ∧ ∃ t, exec (.syscall 0) (at1000 c32 0x11) = .next t :=
  ⟨by decide, by decide, rfl, rfl, runs _ _ _ _ (by decide), _, rfl⟩

/-- The reset state is well-formed. -/
theorem wf_reset : Wf State.reset := by
  constructor <;> first
    | decide
    | exact ⟨by decide, by decide⟩

theorem witness_DelaySlotTrap :
    Wf State.reset ∧ State.reset.inDelay = false ∧ srExl State.reset.cp0.sr = false ∧
    Runs (.jr 8) .kernel State.reset ∧
    ∃ t, exec (.jr 8) State.reset = .next t ∧ Runs (.syscall 0) .kernel t :=
  ⟨wf_reset, rfl, by decide, runs_of_settled (by decide) rfl rfl, _, rfl, runs_of_settled (by decide) rfl rfl⟩

theorem witness_RefusedInstructions :
    Runs (.pref 26 8 0) .user (at1000 c32 0x10) ∧ Runs (.ll 26 8 0) .kernel (at1000 c32 0) ∧
    Runs (.sc 26 8 0) .kernel (at1000 c3 2) ∧ Runs .tlbp .kernel (at1000 c32 0) ∧
    Runs (.cache 0 0 0) .kernel (at1000 c3 2) ∧ Runs (.cache 0 0 0) .kernel (at1000 c32 0) :=
  ⟨runs _ _ _ _ (by decide), runs _ _ _ _ (by decide), runs _ _ _ _ (by decide), runs _ _ _ _ (by decide),
   runs _ _ _ _ (by decide), runs _ _ _ _ (by decide)⟩

/-- A tick on each style; open windows of Compare, of another register, and of Count with an old value that does not hit either. -/
theorem witness_TimerTick :
    ({ at1000 c32 0 with schedule := [.tick] } : State).schedule = [.tick] ∧ c32.style = .r4000 ∧ c3.style = .r3000 ∧
    let s := cp0 (fun f => { f with count := 6, compare := 9 })
      { at1000 c32 0 with hazards := [⟨.compare, 7, false, 2⟩, ⟨.epc, 0, false, 1⟩, ⟨.count, 5, false, 1⟩] }
    ∀ h ∈ s.hazards, h.reg = .count → (lo32 h.old + 1 = s.cp0.compare ↔ s.cp0.count + 1 = s.cp0.compare) := by decide

/-- A tick that hits the new Compare raises the request inside a window of Compare (R265). -/
theorem test_tick_in_window :
    (timerTick (cp0 (fun f => { f with count := 6, compare := 7 })
      { at1000 c32 0 with hazards := [⟨.compare, 99, false, 2⟩] })).cp0.timerPending = true := by decide

/-- With the request set: a NOP, a tick, an interrupt entry, the fault of a fetch, CpU of a coprocessor 1 word; and a write of
Compare. -/
theorem witness_TimerRequestStays :
    let pending (sr : Word32) : State := cp0 (fun f => { f with timerPending := true }) (at1000 c32 sr)
    (∃ t, exec .nop (pending 0) = .next t) ∧ (∃ t, step { pending 0 with schedule := [.tick] } = .next t) ∧
    ((fetching 0 (pending 0x8001)).takesInterrupt = true ∧ ∃ t, step (fetching 0 (pending 0x8001)) = .next t) ∧
    (∃ t, step { pending 0 with pc := 2 } = .next t) ∧ (∃ t, step (fetching 0x44000000 (pending 0)) = .next t) ∧
    (let s := fetching 0x40805800 (pending 0)
     CpuTurn s s ∧ s.fetch = .word 0x40805800 ∧ decode 0x40805800 = .instr (.mtc0 0 11)) :=
  ⟨⟨_, rfl⟩, ⟨_, rfl⟩, ⟨by decide, _, rfl⟩, ⟨_, rfl⟩, ⟨_, rfl⟩, (turn _ rfl).1, by decide, by decide⟩

theorem witness_EnvironmentMoves :
    ({ at1000 c32 0 with schedule := [.setExtInt 0x3F, .setTlb []] } : State).schedule = .setExtInt 0x3F :: [.setTlb []] ∧
    ({ at1000 c3 0 with schedule := [.setBusError true false] } : State).schedule = .setBusError true false :: [] ∧
    ({ at1000 c3 0 with schedule := [.setTlb []] } : State).schedule = .setTlb [] :: [] := by decide

/-- Of the placed bytes 0x2000 to 0x2003 the run has stored to one; the byte at 0x3000 is not listed. -/
theorem witness_HardReset :
    let s : State := { word 0x2000 0x11223344 (at1000 c3 0) with written := [0x2001], schedule := [.hardReset] }
    s.schedule = [.hardReset] ∧ 0x2000 ∉ s.written ∧ Memory.find? s.mem 0x2000 = some 0x11 ∧ 0x2001 ∈ s.written ∧
    Memory.find? s.mem 0x3000 = none := by decide

/-- An NMI and a soft reset on each style. -/
theorem witness_SoftReset :
    ({ at1000 c32 0 with schedule := [.nmi, .softReset] } : State).schedule = .nmi :: [.softReset] ∧ c32.style = .r4000 ∧
    ({ at1000 c32 0 with schedule := [.softReset] } : State).schedule = .softReset :: [] ∧
    ({ at1000 c3 2 with schedule := [.nmi] } : State).schedule = .nmi :: [] ∧ c3.style = .r3000 ∧
    ({ at1000 c3 2 with schedule := [.softReset] } : State).schedule = .softReset :: [] := by decide

/-- Windows of one register each: of EPC, under which eret differs and nop does not; of SR, under which SYSCALL would keep EPC in
one view and save it in the other; of SR, under which the fetch at a kseg0 address faults in user mode and not in kernel mode.
An instruction at the top of the address space. -/
theorem witness_HazardRefuses :
    (let s : State := { at1000 c32 2 with hazards := [⟨.epc, 0x80003000, false, 1⟩] }
     s.readsLoaded (sources .eret) = false ∧ (∃ v ∈ s.oldViews, inMode (effect .eret) v ≠ inMode (effect .eret) s) ∧
     (∀ v ∈ s.oldViews, inMode (effect .nop) v = inMode (effect .nop) s)) ∧
    (let s : State := { at1000 c32 2 with hazards := [⟨.sr, 0, false, 1⟩] }
     inMode (effect (.syscall 0)) s = .stop (.raise .syscall .none) ∧ ∃ v ∈ s.oldViews, v.nested ≠ s.nested) ∧
    (let t : State := { at1000 c32 2 with hazards := [⟨.sr, 0x10, false, 1⟩] }
     CpuTurn t t ∧ t.takesInterrupt = false ∧ ∃ v ∈ t.oldViews, v.fetchNow ≠ t.fetchNow) ∧
    (let s : State := { at1000 c32 0 with pc := 0xFFFFFFFC }
     Runs .nop .kernel s ∧ effect .nop .kernel s = .done {} ∧ ¬ StaysInSpace s) :=
  ⟨⟨by decide, by decide, by decide⟩, ⟨by decide, by decide⟩, ⟨(turn _ rfl).1, by decide, by decide⟩,
   runs_of_settled (by decide) rfl rfl, rfl, by
    rintro (h | h)
    · exact absurd h (by decide)
    · exact absurd h (by decide)⟩

/-- A window of SR that differs in IM only: rfe reads SR[5:2] and runs (R180, R294). -/
theorem test_rfe_in_window :
    goes (exec .rfe { at1000 c3 0xFF0E with hazards := [⟨.sr, 0x000E, false, 1⟩] }) (fun t => t.cp0.sr == 0xFF03) = true := by
  decide

/-- MTC0 and DMTC0 to SR; a NOP and an MTC0 after which a window of two instructions is still open. -/
theorem witness_HazardWindow :
    (Runs (.mtc0 8 12) .kernel (at1000 c32 0) ∧ cp0Lookup c32 12 = .ok .sr ∧ c32.hazardDistance ≠ 0 ∧
      ∃ t, exec (.mtc0 8 12) (at1000 c32 0) = .next t) ∧
    (Runs (.dmtc0 8 12) .kernel (at1000 c64 0) ∧ (at1000 c64 0).dw64Allowed .kernel = true ∧
      ∃ t, exec (.dmtc0 8 12) (at1000 c64 0) = .next t) ∧
    (let s : State := { at1000 c32 2 with hazards := [⟨.epc, 0x80003000, false, 2⟩] }
     (∃ t, exec .nop s = .next t ∧ t.hazards ≠ []) ∧ ∃ t, exec (.mtc0 8 9) s = .next t ∧ t.hazards.length = 2) :=
  ⟨⟨runs _ _ _ _ (by decide), rfl, by decide, _, rfl⟩, ⟨runs _ _ _ _ (by decide), by decide, _, rfl⟩,
   ⟨_, rfl, by decide⟩, _, rfl, by decide⟩

theorem witness_LoadDelay :
    (let s : State := { at1000 c3 2 with loadReg := some 8 }
     s.cfg.loadDelay = true ∧ s.loadReg = some 8 ∧ (8 : RegNum) ≠ 0 ∧ 8 ∈ sources (.and 8 9 8)) ∧
    ∃ t, exec (.mfc0 8 12) (at1000 c3 2) = .next t ∧ t.loadReg = some 8 :=
  ⟨⟨rfl, rfl, by decide, by decide⟩, _, rfl, by decide⟩

/-- A user program's step that completes, and one that traps. -/
theorem witness_UserCannotChangeCp0 :
    (let s := fetching 0
       { at1000 c32 0x10 with pc := 0x1000, npc := 0x1004, tlb := [⟨0x1000, 0x1000, none, .hit 0x5000 3 true⟩] }
     s.mode = some .user ∧ srCu s.cp0.sr 0 = false ∧ ∃ t, cpuStep s = .next t) ∧
    (let s := fetching 0xC
       { at1000 c32 0x10 with pc := 0x1000, npc := 0x1004, tlb := [⟨0x1000, 0x1000, none, .hit 0x5000 3 true⟩] }
     s.mode = some .user ∧ srCu s.cp0.sr 0 = false ∧ ∃ t, cpuStep s = .next t) :=
  ⟨⟨by decide, by decide, _, rfl⟩, by decide, by decide, _, rfl⟩

theorem witness_R3000CodesStayLow :
    c3.style = .r3000 ∧ causeExcCode (fetching 0xD (at1000 c3 2)).cp0.cause ≤ 12 ∧
    ∃ t, cpuStep (fetching 0xD (at1000 c3 2)) = .next t := ⟨rfl, by decide, _, rfl⟩

/-- EXL, ERL, and each value of KSU. -/
theorem witness_ModeRules :
    srExl (at1000 c32 0x12).cp0.sr = true ∧ srErl (at1000 c32 0x14).cp0.sr = true ∧ srKsu (at1000 c32 0x00).cp0.sr = 0 ∧
    srKsu (at1000 c32 0x08).cp0.sr = 1 ∧ srKsu (at1000 c32 0x10).cp0.sr = 2 ∧ srKsu (at1000 c32 0x18).cp0.sr = 3 ∧
    (at1000 c32 0x18).hazards = [] ∧ (at1000 c32 0x18).readsLoaded (sources .nop) = false := by decide

theorem witness_ResetWf : WfConfig c3 ∧ WfConfig c32 := ⟨⟨by decide, by decide⟩, ⟨by decide, by decide⟩⟩

theorem witness_StepKeepsWf :
    Wf (fetching 0x00084900 State.reset) ∧ ∃ t, step (fetching 0x00084900 State.reset) = .next t :=
  ⟨{ wf_reset with mem := by decide }, _, rfl⟩

end Sys2Proof.Tests
end

section
/-! SUPPORT. What a write of each CP0 register leaves in the CP0 file, and MTC0 as the write of one register. -/

namespace Sys2Proof.Machine

/-! ### Words without a bit outside a mask -/

section Masks
variable {m a b mask : Word32}

theorem within_iff : a &&& ~~~m = 0 ↔ ∀ i < 32, a.getLsbD i = true → m.getLsbD i = true := by
  constructor
  · intro h i hi ha
    have bit : (a &&& ~~~m).getLsbD i = false := by rw [h]; exact BitVec.getLsbD_zero
    simpa [hi, ha] using bit
  · intro h
    apply BitVec.eq_of_getLsbD_eq
    intro i hi
    cases ha : a.getLsbD i
    · simp [ha]
    · simp [ha, hi, h i hi ha]

theorem or_within (ha : a &&& ~~~m = 0) (hb : b &&& ~~~m = 0) : (a ||| b) &&& ~~~m = 0 := by
  rw [within_iff] at *
  intro i hi h
  rw [BitVec.getLsbD_or, Bool.or_eq_true] at h
  exact h.elim (ha i hi) (hb i hi)

theorem and_within_left (b : Word32) (ha : a &&& ~~~m = 0) : (a &&& b) &&& ~~~m = 0 := by
  rw [within_iff] at *
  intro i hi h
  rw [BitVec.getLsbD_and, Bool.and_eq_true] at h
  exact ha i hi h.1

theorem and_within_right (a : Word32) (hb : b &&& ~~~m = 0) : (a &&& b) &&& ~~~m = 0 := by
  rw [BitVec.and_comm a]
  exact and_within_left a hb

/-- Writing bits inside the mask leaves the word inside it. -/
theorem putBits_within (v : Word32) (ha : a &&& ~~~m = 0) (hm : mask &&& ~~~m = 0) : putBits a mask v &&& ~~~m = 0 :=
  or_within (and_within_left _ ha) (and_within_right _ hm)

/-- Writing bits inside the mask keeps every difference inside it. -/
theorem xor_putBits_within (v : Word32) (h : (a ^^^ b) &&& ~~~m = 0) (hm : mask &&& ~~~m = 0) :
    (putBits a mask v ^^^ b) &&& ~~~m = 0 := by
  rw [within_iff] at *
  intro i hi hx
  cases written : mask.getLsbD i
  · exact h i hi (by simpa only [BitVec.getLsbD_xor, getLsbD_putBits, written, Bool.false_eq_true, if_false] using hx)
  · exact hm i hi written

/-- A field that no written bit touches keeps its value. -/
theorem putBits_and_of_disjoint (a v : Word32) (h : mask &&& m = 0) : putBits a mask v &&& m = a &&& m := by
  apply BitVec.eq_of_getLsbD_eq
  intro i hi
  have hb : (mask &&& m).getLsbD i = false := by rw [h]; exact BitVec.getLsbD_zero
  rw [BitVec.getLsbD_and] at hb
  rw [BitVec.getLsbD_and, BitVec.getLsbD_and, getLsbD_putBits]
  cases hm : mask.getLsbD i <;> simp_all

end Masks

/-! ### The low word -/

@[simp] theorem lo32_allBits : lo32 allBits = BitVec.allOnes 32 := by decide
@[simp] theorem lo32_and (a b : Word) : lo32 (a &&& b) = lo32 a &&& lo32 b := by simp [lo32]
@[simp] theorem lo32_or (a b : Word) : lo32 (a ||| b) = lo32 a ||| lo32 b := by simp [lo32]
@[simp] theorem lo32_not (a : Word) : lo32 (~~~a) = ~~~lo32 a := by
  unfold lo32; exact BitVec.setWidth_not (by decide)

@[simp] theorem lo32_putBits (a mask v : Word) : lo32 (putBits a mask v) = putBits (lo32 a) (lo32 mask) (lo32 v) := by
  simp [putBits]

@[simp] theorem putBits_allOnes (a v : Word32) : putBits a (BitVec.allOnes 32) v = v := by
  simp only [putBits, BitVec.and_allOnes]; simp

/-! ### The CP0 file after a write of each register (40_cp0_move.md R170) -/

section Writes
variable {s : State} {v : Word} {d : Bool} {w : Cp0Write}

/-- A write of bits of SR, which leaves the timer request alone: those of mtc0, rfe and eret. -/
theorem applyCp0Write_sr (h : w.reg = .sr) (k : w.timer = .keep) :
    applyCp0Write s w = { s.cp0 with sr := putBits s.cp0.sr (lo32 w.mask) (lo32 w.value) } := by
  simp [applyCp0Write, putCp0, State.cp0Get, h, k]

/-- R73: the read-write fields are written, the kept ones keep their values, the "0" fields read 0. -/
theorem applyCp0Write_of_sr (h : cp0Write s .sr v d = .ok w) :
    applyCp0Write s w =
      { s.cp0 with sr := (lo32 v &&& srWritable s.cfg.style) ||| (s.cp0.sr &&& srKept s.cfg.style) } := by
  cases h
  rw [applyCp0Write_sr rfl rfl]
  have disjoint : srWritable s.cfg.style &&& ~~~srKept s.cfg.style = srWritable s.cfg.style := by
    cases s.cfg.style <;> decide
  simp [putBits, BitVec.and_assoc, disjoint, BitVec.or_comm]

theorem applyCp0Write_of_cause (h : cp0Write s .cause v d = .ok w) :
    applyCp0Write s w = { s.cp0 with cause := putBits s.cp0.cause 0x300 (lo32 v) } := by
  cases h
  have mask : lo32 0x300#64 = 0x300#32 := rfl
  simp [applyCp0Write, putCp0, State.cp0Get, mask]

theorem applyCp0Write_of_readOnly {r : Cp0Reg} (hr : r = .badVaddr ∨ r = .prid) (h : cp0Write s r v d = .ok w) :
    applyCp0Write s w = s.cp0 := by
  rcases hr with rfl | rfl <;> cases h <;> rfl

theorem applyCp0Write_of_count (h : cp0Write s .count v d = .ok w) :
    applyCp0Write s w = { s.cp0 with count := lo32 v, timerPending := s.timerAfter w.timer } := by
  cases h
  simp [applyCp0Write, putCp0]

theorem applyCp0Write_of_compare (h : cp0Write s .compare v d = .ok w) :
    applyCp0Write s w = { s.cp0 with compare := lo32 v, timerPending := false } := by
  cases h
  simp [applyCp0Write, putCp0]

theorem applyCp0Write_of_watchLo (h : cp0Write s .watchLo v d = .ok w) :
    applyCp0Write s w = { s.cp0 with watchLo := watchLoValue (lo32 v) } := by
  cases h
  simp [applyCp0Write, putCp0]

theorem applyCp0Write_of_watchHi (h : cp0Write s .watchHi v d = .ok w) :
    applyCp0Write s w = { s.cp0 with watchHi := watchHiValue s.cfg (lo32 v) } := by
  cases h
  simp [applyCp0Write, putCp0]

/-- What an accepted write of Config is (R92). -/
theorem cp0Write_config_ok (h : cp0Write s .config v d = .ok w) :
    w = { reg := .config, mask := zext64 (configWritable s.cfg), value := zext64 (lo32 v), window := true } := by
  simp only [cp0Write, configWrite] at h
  split at h
  · cases h
  · split at h <;> cases h
    rfl

theorem applyCp0Write_of_config (h : cp0Write s .config v d = .ok w) :
    applyCp0Write s w = { s.cp0 with config := putBits s.cp0.config (configWritable s.cfg) (lo32 v) } := by
  rw [cp0Write_config_ok h]
  simp [applyCp0Write, putCp0, State.cp0Get]

theorem applyCp0Write_of_epc (h : cp0Write s .epc v d = .ok w) :
    applyCp0Write s w = { s.cp0 with epc := s.cfg.norm w.value } := by
  simp only [cp0Write] at h
  split at h <;> cases h
  simp [applyCp0Write, putCp0, wideWrite]

theorem applyCp0Write_of_errorEpc (h : cp0Write s .errorEpc v d = .ok w) :
    applyCp0Write s w = { s.cp0 with errorEpc := s.cfg.norm w.value } := by
  cases h
  simp [applyCp0Write, putCp0, wideWrite]

end Writes

/-! ### MTC0 -/

/-- MTC0 whose write is accepted completes, and leaves the CP0 file after the write. -/
theorem exec_mtc0_leavesCp0 {rt n : RegNum} {m : Mode} {s : State} {r : Cp0Reg} {w : Cp0Write} {f : Cp0File}
    (h : Runs (.mtc0 rt n) m s) (hs : StaysInSpace s) (hu : m = .kernel ∨ srCu s.cp0.sr 0 = true)
    (hl : cp0Lookup s.cfg n = .ok r) (hw : cp0Write s r (s.readGpr rt) false = .ok w)
    (hf : cp0Write s r (s.readGpr rt) false = .ok w → applyCp0Write s w = f) :
    ∃ t, exec (.mtc0 rt n) s = .next t ∧ Advances s t ∧ LeavesCp0 f s t :=
  ⟨_, exec_mtc0 h hs hu hl hw, advances_retire rfl,
    leavesCp0_retire rfl rfl ((retire_cp0_some s _ rfl rfl).trans (hf hw))⟩

/-- MTC0 whose write is refused is refused by that name. -/
theorem exec_mtc0_refused {rt n : RegNum} {m : Mode} {s : State} {r : Cp0Reg} {x : Refusal}
    (h : Runs (.mtc0 rt n) m s) (hu : m = .kernel ∨ srCu s.cp0.sr 0 = true)
    (hl : cp0Lookup s.cfg n = .ok r) (hw : cp0Write s r (s.readGpr rt) false = .error x) :
    exec (.mtc0 rt n) s = .refused x := by
  apply exec_refuse h
  show effMtc0 rt n m s = _
  simp [effMtc0, moveTo, cp0Usable_iff.2 hu, hl, hw, Effect.refuse]

end Sys2Proof.Machine
end

section
/-! SUPPORT. The invariant `Wf`: the values after a hard reset meet it, and completing an instruction, the entry of an exception
and every move of another agent keep it. -/

namespace Sys2Proof.Machine

/-! ### The CP0 part of the invariant -/

/-- What `Wf` says of the CP0 file. -/
structure WfCp0 (c : Config) (f : Cp0File) : Prop where
  epc : c.norm f.epc = f.epc
  badVaddr : c.norm f.badVaddr = f.badVaddr
  errorEpc : c.norm f.errorEpc = f.errorEpc
  srZeroFields : f.sr &&& ~~~(srWritable c.style ||| srKept c.style) = 0
  ts : c.implementsTs = false → srTs f.sr = false
  causeFields : f.cause &&& ~~~0xB000037C = 0
  configByteOrder : configBe f.config = c.bigEndian
  configZeroFields : f.config &&& 0x00003000 = 0
  configHardware : (f.config ^^^ c.configReset) &&& ~~~(configWritable c ||| 0x0000B000) = 0
  watchLo : f.watchLo &&& 4 = 0
  watchHi : watchHiValue c f.watchHi = f.watchHi

theorem Wf.wfCp0 {s : State} (h : Wf s) : WfCp0 s.cfg s.cp0 := { h with }

/-- A change of the CP0 file alone keeps the invariant when it keeps the CP0 part. -/
theorem Wf.of_cp0 {s : State} {f : Cp0File} (h : Wf s) (hf : WfCp0 s.cfg f) : Wf { s with cp0 := f } :=
  { hf, h with }

/-! ### Fields of SR and Config under a write of some bits -/

theorem srTs_putBits {sr mask v : Word32} (h : mask.getLsbD 21 = false) : srTs (putBits sr mask v) = srTs sr := by
  simp only [srTs, getLsbD_putBits, h, Bool.false_eq_true, if_false]

@[simp] theorem srTs_or (a b : Word32) : srTs (a ||| b) = (srTs a || srTs b) := by simp [srTs]
@[simp] theorem srTs_and (a b : Word32) : srTs (a &&& b) = (srTs a && srTs b) := by simp [srTs]

@[simp] theorem srTs_srWritable (style : Style) : srTs (srWritable style) = false := by cases style <;> rfl
@[simp] theorem srTs_srKept (style : Style) : srTs (srKept style) = true := by cases style <;> rfl

theorem configWritable_cases (c : Config) :
    configWritable c ∈ [(0x7 : Word32), 0x20007, 0x0F000007, 0x0F020007] := by
  cases h : c.scWritable <;> cases e : c.epWritable <;> simp [configWritable, h, e]

/-- The writable fields of Config lie outside BE, EB and the reserved bit 12. -/
theorem configWritable_fields (c : Config) :
    configWritable c &&& 0xB000 = 0 ∧ configWritable c &&& 0x3000 = 0 ∧ (configWritable c).getLsbD 15 = false := by
  have h := configWritable_cases c
  simp only [List.mem_cons, List.not_mem_nil, or_false] at h
  rcases h with e | e | e | e <;> rw [e] <;> decide

/-! ### Registers after a hard reset (10_state.md R97) -/

theorem srAfterHardReset_zeroFields (c : Config) (free : Word32) :
    srAfterHardReset c free &&& ~~~(srWritable c.style ||| srKept c.style) = 0 := by
  have ts : (if tsAfterHardReset c then 0x00200000 else 0 : Word32) &&& ~~~(srWritable c.style ||| srKept c.style) = 0 := by
    cases tsAfterHardReset c <;> cases c.style <;> decide
  cases e : c.style with
  | r4000 =>
    rw [e] at ts
    simp only [srAfterHardReset, e]
    exact or_within (or_within (and_within_right _ (by decide)) (by decide)) ts
  | r3000 =>
    rw [e] at ts
    have ku : (c.kuKernel.setWidth 32 <<< 1) &&& ~~~(srWritable .r3000 ||| srKept .r3000) = 0 := by
      generalize c.kuKernel = ku
      revert ku; decide
    simp only [srAfterHardReset, e]
    exact or_within (or_within (or_within (and_within_right _ (by decide)) (by decide)) ts) ku

theorem srTs_afterHardReset (c : Config) (free : Word32) : srTs (srAfterHardReset c free) = tsAfterHardReset c := by
  cases e : c.style <;> cases t : tsAfterHardReset c <;> simp [srAfterHardReset, e, t, srTs]

theorem causeAfterHardReset_fields (free : Word32) : causeAfterHardReset free &&& ~~~0xB000037C = 0 :=
  and_within_right _ (by decide)

theorem configBe_afterHardReset (c : Config) (free : Word32) : configBe (configAfterHardReset c free) = c.bigEndian := by
  cases e : c.bigEndian <;> simp [configAfterHardReset, configBe, e]

/-- Config after hard reset: `CONFIG_RESET`, with the writable fields free, and BE, EB and bit 12 fixed (R89, R97). -/
theorem configAfterHardReset_eq (c : Config) (free : Word32) :
    configAfterHardReset c free =
      putBits (putBits c.configReset (configWritable c) free) 0xB000 (if c.bigEndian then 0x8000 else 0) := by
  have mask : ~~~0xB000#32 = 0xFFFF4FFF#32 := by decide
  cases e : c.bigEndian <;> simp [configAfterHardReset, putBits, e, mask]

theorem configAfterHardReset_zeroFields (c : Config) (free : Word32) : configAfterHardReset c free &&& 0x3000 = 0 := by
  rw [configAfterHardReset, BitVec.and_comm, BitVec.and_or_distrib_left, BitVec.and_comm _ 0xFFFF4FFF, ← BitVec.and_assoc]
  cases c.bigEndian <;> simp

theorem configWritable_within (c : Config) : configWritable c &&& ~~~(configWritable c ||| 0xB000) = 0 := by
  rw [within_iff]
  intro i hi h
  rw [BitVec.getLsbD_or, h, Bool.true_or]

theorem configAfterHardReset_hardware (c : Config) (free : Word32) :
    (configAfterHardReset c free ^^^ c.configReset) &&& ~~~(configWritable c ||| 0xB000) = 0 := by
  rw [configAfterHardReset_eq]
  refine xor_putBits_within _ (xor_putBits_within _ ?_ (configWritable_within c)) ?_
  · rw [BitVec.xor_self]; exact BitVec.zero_and
  · rw [within_iff]
    intro i hi h
    rw [BitVec.getLsbD_or, h, Bool.or_true]

theorem watchLoValue_bit2 (v : Word32) : watchLoValue v &&& 4 = 0 := by
  rw [watchLoValue, BitVec.and_assoc]
  exact BitVec.and_zero

theorem watchHiValue_idem (c : Config) (v : Word32) : watchHiValue c (watchHiValue c v) = watchHiValue c v := by
  unfold watchHiValue
  split
  · rw [BitVec.and_assoc, BitVec.and_self]
  · rfl

/-- The CP0 file of a hard reset, whatever its unspecified values are. -/
theorem wfCp0_afterHardReset {c : Config} {f : Cp0File} {sr cause config : Word32}
    (hsr : f.sr = srAfterHardReset c sr) (hcause : f.cause = causeAfterHardReset cause)
    (hconfig : f.config = configAfterHardReset c config) (hlo : f.watchLo &&& 4 = 0)
    (hhi : watchHiValue c f.watchHi = f.watchHi) (hepc : c.norm f.epc = f.epc) (hbad : c.norm f.badVaddr = f.badVaddr)
    (herror : c.norm f.errorEpc = f.errorEpc) : WfCp0 c f where
  epc := hepc
  badVaddr := hbad
  errorEpc := herror
  srZeroFields := hsr ▸ srAfterHardReset_zeroFields c sr
  ts h := by simp [hsr, srTs_afterHardReset, tsAfterHardReset, h]
  causeFields := hcause ▸ causeAfterHardReset_fields cause
  configByteOrder := hconfig ▸ configBe_afterHardReset c config
  configZeroFields := hconfig ▸ configAfterHardReset_zeroFields c config
  configHardware := hconfig ▸ configAfterHardReset_hardware c config
  watchLo := hlo
  watchHi := hhi

/-! ### Writes of CP0 registers keep the CP0 part -/

/-- The writes of mtc0 and dmtc0. -/
theorem wfCp0_of_cp0Write {s : State} {r : Cp0Reg} {v : Word} {d : Bool} {w : Cp0Write} (h : WfCp0 s.cfg s.cp0)
    (hw : cp0Write s r v d = .ok w) : WfCp0 s.cfg (applyCp0Write s w) := by
  cases r with
  | badVaddr => rw [applyCp0Write_of_readOnly (.inl rfl) hw]; exact h
  | prid => rw [applyCp0Write_of_readOnly (.inr rfl) hw]; exact h
  | count => rw [applyCp0Write_of_count hw]; exact { h with }
  | compare => rw [applyCp0Write_of_compare hw]; exact { h with }
  | sr =>
    rw [applyCp0Write_of_sr hw]
    have writable : srWritable s.cfg.style &&& ~~~(srWritable s.cfg.style ||| srKept s.cfg.style) = 0 := by
      cases s.cfg.style <;> decide
    exact { h with
      srZeroFields := or_within (and_within_right _ writable) (and_within_left _ h.srZeroFields)
      ts := fun no => by simp [h.ts no] }
  | cause => rw [applyCp0Write_of_cause hw]; exact { h with causeFields := putBits_within _ h.causeFields (by decide) }
  | epc => rw [applyCp0Write_of_epc hw]; exact { h with epc := norm_norm _ _ }
  | errorEpc => rw [applyCp0Write_of_errorEpc hw]; exact { h with errorEpc := norm_norm _ _ }
  | config =>
    rw [applyCp0Write_of_config hw]
    obtain ⟨-, zeroFields, be⟩ := configWritable_fields s.cfg
    exact { h with
      configByteOrder := by
        rw [← h.configByteOrder]
        simp only [configBe, getLsbD_putBits, be, Bool.false_eq_true, if_false]
      configZeroFields := (putBits_and_of_disjoint _ _ zeroFields).trans h.configZeroFields
      configHardware := xor_putBits_within _ h.configHardware (configWritable_within s.cfg) }
  | watchLo => rw [applyCp0Write_of_watchLo hw]; exact { h with watchLo := watchLoValue_bit2 _ }
  | watchHi => rw [applyCp0Write_of_watchHi hw]; exact { h with watchHi := watchHiValue_idem _ _ }

/-- A write of read-write fields of SR: those of rfe and eret. -/
theorem wfCp0_of_srWrite {s : State} {w : Cp0Write} {mask : Word32} (h : WfCp0 s.cfg s.cp0) (reg : w.reg = .sr)
    (timer : w.timer = .keep) (bits : lo32 w.mask = mask) (writable : mask &&& ~~~srWritable s.cfg.style = 0) :
    WfCp0 s.cfg (applyCp0Write s w) := by
  have within := within_iff.1 writable
  rw [applyCp0Write_sr reg timer, bits]
  exact { h with
    srZeroFields := putBits_within _ h.srZeroFields
      (within_iff.2 fun i hi hm => by rw [BitVec.getLsbD_or, within i hi hm, Bool.true_or])
    ts := fun no => by
      have outside : mask.getLsbD 21 = false := by
        cases e : mask.getLsbD 21
        · rfl
        · exact (within 21 (by omega) e).symm.trans (srTs_srWritable s.cfg.style)
      exact (srTs_putBits outside).trans (h.ts no) }

/-! ### Completing an instruction -/

/-- An update that keeps the invariant: its CP0 write keeps the CP0 part, its targets have XLEN bits, and it loads no register 0. -/
structure WfUpdate (s : State) (u : Update) : Prop where
  cp0 : ∀ w, u.cp0 = some w → WfCp0 s.cfg (applyCp0Write s w)
  target : ∀ t, u.flow = .jump t ∨ u.flow = .delayed t → s.cfg.norm t = t
  loaded : ∀ r, u.loaded = some r → r ≠ 0

@[simp] theorem norm_zero (c : Config) : c.norm 0 = 0 := by
  unfold Config.norm
  split <;> rfl

theorem norm_readGpr {s : State} (h : Wf s) (r : RegNum) : s.cfg.norm (s.readGpr r) = s.readGpr r := by
  unfold State.readGpr
  split
  · exact norm_zero s.cfg
  · exact h.gprs r.toNat r.isLt

/-- An update without a CP0 write, going on to the next instruction. -/
theorem wfUpdate_next {s : State} {u : Update} (c : u.cp0 = none) (f : u.flow = .next)
    (l : ∀ r, u.loaded = some r → r ≠ 0) : WfUpdate s u where
  cp0 w h := by rw [c] at h; cases h
  target t h := by rw [f] at h; rcases h with h | h <;> cases h
  loaded := l

/-- An update of nothing but a CP0 register, and the flow. -/
theorem wfUpdate_cp0 {s : State} {w : Cp0Write} {f : Flow} {b : Bool} (h : WfCp0 s.cfg (applyCp0Write s w))
    (t : ∀ t, f = .jump t ∨ f = .delayed t → s.cfg.norm t = t) :
    WfUpdate s { cp0 := some w, flow := f, breakLink := b } where
  cp0 := by rintro _ ⟨⟩; exact h
  target := t
  loaded := by simp

/-- Every instruction that completes in a well-formed state does so with such an update. -/
theorem Completes.wfUpdate {m : Mode} {s : State} {i : Instr} {u : Update} (hs : Wf s) (h : Completes m s i u) :
    WfUpdate s u := by
  cases h with
  | mfc0 rt rd v | dmfc0 rt rd v | lw base rt offset v =>
    refine wfUpdate_next rfl rfl ?_
    by_cases z : rt = 0 <;> simp_all
  | mtc0 rt rd r w usable reg write | dmtc0 rt rd r w usable wide reg write =>
    exact wfUpdate_cp0 (wfCp0_of_cp0Write hs.wfCp0 write) (by simp)
  | rfe style usable =>
    exact wfUpdate_cp0 (wfCp0_of_srWrite (mask := 0xF) hs.wfCp0 rfl rfl rfl (by rw [style]; decide)) (by simp)
  | eret style usable slot =>
    unfold exceptionReturn
    split
    · exact wfUpdate_cp0 (wfCp0_of_srWrite (mask := 0x4) hs.wfCp0 rfl rfl rfl (by rw [style]; decide))
        (by simpa using hs.errorEpc)
    · exact wfUpdate_cp0 (wfCp0_of_srWrite (mask := 0x2) hs.wfCp0 rfl rfl rfl (by rw [style]; decide))
        (by simpa using hs.epc)
  | jr rs slot => exact ⟨by simp, by simpa using norm_readGpr hs rs, by simp⟩
  | addu | and | or | sll | nop | ssnop | sync | sw => exact wfUpdate_next rfl rfl (by simp)

theorem norm_getElem_putGpr {c : Config} {g : Vector Word 32} (h : ∀ (i : Nat) (hi : i < 32), c.norm g[i] = g[i])
    (r : RegNum) (v : Word) (i : Nat) (hi : i < 32) : c.norm (putGpr c g r v)[i] = (putGpr c g r v)[i] := by
  unfold putGpr
  split
  · exact h i hi
  · rw [Vector.getElem_set]
    split
    · exact norm_norm c v
    · exact h i hi

/-- The windows after an instruction cover 1 to `CP0_HAZARD_DISTANCE` more instructions (R294). -/
theorem hazards_retire {s : State} (u : Update) (hs : ∀ h ∈ s.hazards, 0 < h.left ∧ h.left ≤ s.cfg.hazardDistance) :
    ∀ h ∈ (s.retire u).hazards, 0 < h.left ∧ h.left ≤ s.cfg.hazardDistance := by
  intro h hh
  rw [retire_hazards, List.mem_append, List.mem_filterMap] at hh
  rcases hh with new | ⟨g, hg, aged⟩
  · unfold openHazard at new
    split at new
    · split at new
      · next opens =>
        rw [List.mem_singleton] at new
        subst new
        exact ⟨Nat.pos_of_ne_zero opens.2, le_refl _⟩
      · cases new
    · cases new
  · have ⟨_, bound⟩ := hs g hg
    have left : 1 < g.left ∧ h.left = g.left - 1 := by
      unfold ageHazard at aged
      split at aged
      · cases aged
      · refine ⟨by omega, ?_⟩
        split at aged
        · split at aged <;> cases aged <;> rfl
        · cases aged; rfl
    omega

/-- Completing with such an update keeps the invariant. -/
theorem wf_retire {s : State} {u : Update} (hs : Wf s) (hu : WfUpdate s u) : Wf (s.retire u) := by
  have cp0 : WfCp0 s.cfg (s.retire u).cp0 := by
    cases e : u.cp0 with
    | none => simp only [State.retire, e]; exact { hs.wfCp0 with }
    | some w => simp only [State.retire, e]; exact { hu.cp0 w e with }
  have flow : s.cfg.norm (s.retire u).pc = (s.retire u).pc ∧ s.cfg.norm (s.retire u).npc = (s.retire u).npc ∧
      ((s.retire u).inDelay = false → (s.retire u).npc = s.cfg.norm ((s.retire u).pc + 4)) := by
    cases e : u.flow with
    | next => obtain ⟨pc, npc, slot⟩ := retire_next s u e; simp [pc, npc, hs.npc]
    | delayed t => obtain ⟨pc, npc, slot⟩ := retire_delayed s u e; simp [pc, npc, slot, hs.npc, hu.target t (.inr e)]
    | jump t => obtain ⟨pc, npc, slot⟩ := retire_jump s u e; simp [pc, npc, hu.target t (.inl e)]
  obtain ⟨pc, npc, sequential⟩ := flow
  exact
    { cp0 with
      cfg := hs.cfg
      gprZero := by
        cases e : u.gpr with
        | none => rw [retire_gprs_none s u e]; exact hs.gprZero
        | some g => rw [retire_gprs_some s u e, gprs_zero_putGpr]; exact hs.gprZero
      gprs := by
        cases e : u.gpr with
        | none => rw [retire_gprs_none s u e]; exact hs.gprs
        | some g => rw [retire_gprs_some s u e]; exact norm_getElem_putGpr hs.gprs _ _
      pc := pc
      npc := npc
      sequential := sequential
      mem := by
        cases e : u.store with
        | none => rw [retire_mem_none s u e]; exact hs.mem
        | some st => rw [retire_mem_some s u e]; exact memory_wf_putAll _ _ hs.mem
      written := by
        cases e : u.store with
        | none => rw [retire_written_none s u e]; exact hs.written
        | some st => rw [retire_written_some s u e]; exact addressesWf_addAddresses _ _ hs.written
      input5 := hs.input5
      hazards := hazards_retire u hs.hazards
      loadReg := by
        intro r hr
        rw [retire_loadReg] at hr
        split at hr
        · next delay => exact ⟨delay, hu.loaded r hr⟩
        · cases hr }

/-! ### Taking an exception -/

theorem norm_restartPc {s : State} (h : s.cfg.norm s.pc = s.pc) : s.cfg.norm s.restartPc = s.restartPc := by
  unfold State.restartPc
  split
  · exact norm_norm _ _
  · exact h

theorem srOnEntry_zeroFields {s : State} (n : Note)
    (h : s.cp0.sr &&& ~~~(srWritable s.cfg.style ||| srKept s.cfg.style) = 0) :
    s.srOnEntry n &&& ~~~(srWritable s.cfg.style ||| srKept s.cfg.style) = 0 := by
  have note : (if n = .tlbShutdown then s.cp0.sr ||| 0x00200000 else s.cp0.sr) &&&
      ~~~(srWritable s.cfg.style ||| srKept s.cfg.style) = 0 := by
    split
    · exact or_within h (by cases s.cfg.style <;> decide)
    · exact h
  unfold State.srOnEntry
  cases e : s.cfg.style <;> rw [e] at note
  · exact putBits_within _ note (by decide)
  · exact or_within note (by decide)

theorem srTs_onEntry (s : State) (n : Note) : srTs (s.srOnEntry n) = (srTs s.cp0.sr || n = .tlbShutdown) := by
  have ts : srTs 0x00200000#32 = true := by decide
  have exl : srTs 0x2#32 = false := by decide
  cases e : s.cfg.style <;> by_cases hn : n = .tlbShutdown <;> simp only [State.srOnEntry, e, hn, if_true, if_false]
  · rw [srTs_putBits (by decide)]; simp [ts]
  · rw [srTs_putBits (by decide)]; simp
  · simp [ts, exl]
  · simp [exl]

theorem wfCp0_enter {s : State} {e : Exc} {n : Note} (hs : Wf s) (h : Raisable s.cfg e n) :
    WfCp0 s.cfg (enter e n s).cp0 :=
  { hs.wfCp0 with
    epc := by
      rw [enter_epc]
      split
      · exact hs.epc
      · exact norm_restartPc hs.pc
    badVaddr := norm_norm _ _
    srZeroFields := srOnEntry_zeroFields n hs.srZeroFields
    ts := fun no => by
      have noShutdown : n ≠ .tlbShutdown := fun e => by simpa [no] using (h.2 e).1
      simp [srTs_onEntry, hs.ts no, noShutdown]
    causeFields := putBits_within _ hs.causeFields (by split <;> decide) }

/-- The entry of an exception that a step can raise keeps the invariant. -/
theorem wf_enter {s : State} {e : Exc} {n : Note} (hs : Wf s) (h : Raisable s.cfg e n) : Wf (enter e n s) :=
  { hs.of_cp0 (wfCp0_enter hs h) with
    pc := norm_sext _ _
    npc := norm_norm _ _
    sequential := fun _ => rfl
    hazards := by simp
    loadReg := by simp }

/-! ### The moves of the other agents -/

theorem wf_timerTick {s : State} (hs : Wf s) : Wf (timerTick s) :=
  { hs with
    hazards := by
      simp only [timerTick_hazards, List.mem_map]
      rintro _ ⟨h, hh, rfl⟩
      have left : (tickHazard s h).left = h.left := by unfold tickHazard; split <;> rfl
      rw [left]
      exact hs.hazards h hh }

theorem wf_setInputs {s : State} (levels : BitVec 6) (hs : Wf s) : Wf (setInputs levels s) :=
  { hs with
    input5 := fun style wired => by
      change s.cfg.style = .r4000 at style
      change s.cfg.timerIrqWired = true at wired
      simp [setInputs, style, wired] }

theorem wf_hardReset {s : State} (hs : Wf s) : Wf (hardReset s) :=
  have cp0 : WfCp0 s.cfg (hardReset s).cp0 :=
    wfCp0_afterHardReset (hardReset_sr s) (hardReset_cause s) (hardReset_config s)
      (by rw [hardReset_watchLo]; exact watchLoValue_bit2 _) (by rw [hardReset_watchHi]; exact watchHiValue_idem _ _)
      (by simp) (by simp) (by simp)
  { hs.of_cp0 cp0 with
    cfg := by rw [hardReset_cfg]; exact hs.cfg
    gprZero := by simp [hardResetGprs, hs.gprZero]
    gprs := fun r hr => by
      simp only [hardReset_gprs, hardReset_cfg, hardResetGprs, Vector.getElem_ofFn]
      split
      · exact hs.gprs 0 (by omega)
      · exact norm_norm _ _
    pc := by simp
    npc := by simp
    sequential := by simp
    mem := by rw [hardReset_mem]; exact memory_wf_filter _ hs.mem
    written := by rw [hardReset_written]; exact hs.written
    input5 := by simpa using hs.input5
    hazards := by simp
    loadReg := by simp }

theorem srAfterSoftReset_eq (s : State) :
    srAfterSoftReset s = s.cp0.sr ||| 0x00500004 ∨ srAfterSoftReset s = (s.cp0.sr &&& 0xFFDFFFFF) ||| 0x00500004 := by
  unfold srAfterSoftReset
  dsimp only
  split
  · split
    · exact .inl rfl
    · exact .inr rfl
  · exact .inl rfl

theorem wf_softReset {s : State} (hs : Wf s) (style : s.cfg.style = .r4000) : Wf (softReset s) :=
  have zeroFields := hs.srZeroFields
  have cp0 : WfCp0 s.cfg (softReset s).cp0 :=
    { hs.wfCp0 with
      errorEpc := norm_restartPc hs.pc
      srZeroFields := by
        rw [softReset_sr]
        rw [style] at zeroFields ⊢
        rcases srAfterSoftReset_eq s with e | e <;> rw [e]
        · exact or_within zeroFields (by decide)
        · exact or_within (and_within_left _ zeroFields) (by decide)
      ts := fun no => by
        have bits : srTs 0x00500004#32 = false := by decide
        rw [softReset_sr]
        rcases srAfterSoftReset_eq s with e | e <;> simp [e, hs.ts no, bits] }
  { hs.of_cp0 cp0 with
    pc := norm_sext _ _
    npc := norm_norm _ _
    sequential := fun _ => rfl
    hazards := by simp
    loadReg := by simp }

/-- Every move of an agent other than the CPU keeps the invariant and the configuration. -/
theorem wf_otherMove {mv : Move} {s t : State} (hs : Wf s) (h : otherMove mv s = .next t) : Wf t ∧ t.cfg = s.cfg := by
  cases mv with
  | cpu => cases h; exact ⟨hs, rfl⟩
  | tick => cases e : s.cfg.style <;> simp only [otherMove, e] at h <;> cases h; exact ⟨wf_timerTick hs, rfl⟩
  | setExtInt levels => cases h; exact ⟨wf_setInputs levels hs, rfl⟩
  | setBusError onFetch onLoad => cases h; exact ⟨{ hs with }, rfl⟩
  | setTlb rules => cases h; exact ⟨{ hs with }, rfl⟩
  | hardReset => cases h; exact ⟨wf_hardReset hs, hardReset_cfg s⟩
  | softReset | nmi =>
    cases e : s.cfg.style <;> simp only [otherMove, e] at h <;> cases h
    exact ⟨wf_softReset hs e, rfl⟩

/-! ### The step of the CPU -/

theorem wf_cpuStep {s t : State} (hs : Wf s) (h : cpuStep s = .next t) : Wf t ∧ t.cfg = s.cfg := by
  rcases cpuStep_next h with ⟨e, n, raised, rfl⟩ | ⟨i, m, u, -, completed, -, rfl⟩
  · exact ⟨wf_enter hs raised, rfl⟩
  · exact ⟨wf_retire hs (completed.wfUpdate hs), rfl⟩

end Sys2Proof.Machine
end

section
/-! The statements about the reset state and the invariant: ResetValues, ResetWf, StepKeepsWf. -/

namespace Sys2Proof.Machine

/-! ### The fields of SR after a hard reset (10_state.md R97) -/

section SrAfterHardReset
variable (c : Config) (free : Word32)

theorem srBev_afterHardReset : srBev (srAfterHardReset c free) = true := by
  cases e : c.style <;> simp [srAfterHardReset, srBev, e]

variable {c}

theorem sr_afterHardReset_r4000 (h : c.style = .r4000) :
    srErl (srAfterHardReset c free) = true ∧ srSoftReset (srAfterHardReset c free) = false ∧
      srRp (srAfterHardReset c free) = false := by
  cases t : tsAfterHardReset c <;> simp [srAfterHardReset, srErl, srSoftReset, srRp, h, t]

theorem sr_afterHardReset_r3000 (h : c.style = .r3000) :
    srKuc (srAfterHardReset c free) = c.kuKernel ∧ srIec (srAfterHardReset c free) = false ∧
      srSwc (srAfterHardReset c free) = false := by
  refine ⟨?_, ?_, ?_⟩
  · apply BitVec.eq_of_getLsbD_eq
    intro i hi
    interval_cases i
    cases t : tsAfterHardReset c <;> simp [srAfterHardReset, srKuc, h, t]
  · cases t : tsAfterHardReset c <;> simp [srAfterHardReset, srIec, h, t]
  · cases t : tsAfterHardReset c <;> simp [srAfterHardReset, srSwc, h, t]

end SrAfterHardReset

/-- A hard reset leaves the machine in kernel mode. -/
theorem mode_of_afterHardReset {s : State} {free : Word32} (h : s.cp0.sr = srAfterHardReset s.cfg free) :
    s.mode = some .kernel := by
  cases e : s.cfg.style with
  | r3000 => simp [State.mode, e, h, (sr_afterHardReset_r3000 free e).1]
  | r4000 => simp [State.mode, e, h, (sr_afterHardReset_r4000 free e).1]

/-- Settles O52. -/
theorem resetValues : Obligations.ResetValues :=
  ⟨rfl, fun c => ⟨rfl, rfl, rfl, srBev_afterHardReset c 0, srTs_afterHardReset c 0, configAfterHardReset_hardware c 0,
    configBe_afterHardReset c 0, rfl, sr_afterHardReset_r4000 0, sr_afterHardReset_r3000 0,
    mode_of_afterHardReset (s := State.initial c) (free := 0) rfl⟩⟩

/-! ### The invariant -/

/-- The initial state of every well-formed configuration is well-formed. -/
theorem wf_initial {c : Config} (h : WfConfig c) : Wf (State.initial c) :=
  have cp0 : WfCp0 c (State.initial c).cp0 :=
    wfCp0_afterHardReset (sr := 0) (cause := 0) (config := 0) rfl rfl rfl (by simp [State.initial])
      (by simp [State.initial, watchHiValue]) (norm_zero c) (norm_zero c) (norm_zero c)
  { cp0 with
    cfg := h
    gprZero := by simp [State.initial]
    gprs := fun r hr => by simpa [State.initial] using norm_zero c
    pc := norm_sext _ _
    npc := norm_norm _ _
    sequential := fun _ => rfl
    mem := h.image
    written := rfl
    input5 := fun _ _ => by simp [State.initial]
    hazards := by simp [State.initial]
    loadReg := by simp [State.initial] }

/-- Settles O59. -/
theorem resetWf : Obligations.ResetWf :=
  ⟨wf_initial ⟨by decide, by decide⟩, fun _ => wf_initial⟩

/-- Settles O60: the step is the CPU's or another agent's, after the schedule has moved on, and each keeps the invariant. -/
theorem stepKeepsWf : Obligations.StepKeepsWf := by
  intro s t hs h
  have scheduled (rest : List Move) : Wf { s with schedule := rest } := { hs with }
  rcases step_next h with ⟨rest, cpu⟩ | ⟨mv, rest, -, -, other⟩
  · exact wf_cpuStep (s := { s with schedule := rest }) (scheduled rest) cpu
  · exact wf_otherMove (s := { s with schedule := rest }) (scheduled rest) other

end Sys2Proof.Machine
end

section
/-! The statements about the moves of CP0 registers: Mtc0Status, Mtc0Cause, Mtc0Config, Mtc0WatchAndReadOnly,
Cp0NumberRefused, Cp0Unusable. -/

namespace Sys2Proof.Machine

/-! ### MTC0 of the status registers -/

/-- Settles O28. -/
theorem mtc0Status : Obligations.Mtc0Status := by
  intro rt m s runs space usable
  refine exec_mtc0_leavesCp0 runs space usable rfl rfl fun h => (applyCp0Write_of_sr h).trans ?_
  cases s.cfg.style <;> rfl

/-- Settles O29. -/
theorem mtc0Cause : Obligations.Mtc0Cause := fun _ _ _ runs space usable =>
  exec_mtc0_leavesCp0 runs space usable rfl rfl applyCp0Write_of_cause

/-- Settles O33: each write leaves its register as the rules of the register say. -/
theorem mtc0WatchAndReadOnly : Obligations.Mtc0WatchAndReadOnly := by
  refine ⟨fun rt m s style space usable => ⟨fun runs => ?_, fun runs => ?_⟩, fun rt n m s number runs space usable => ?_⟩
  · have lookup : cp0Lookup s.cfg 18 = .ok .watchLo := by simp [cp0Lookup, style]
    exact exec_mtc0_leavesCp0 runs space usable lookup rfl applyCp0Write_of_watchLo
  · have lookup : cp0Lookup s.cfg 19 = .ok .watchHi := by simp [cp0Lookup, style]
    exact exec_mtc0_leavesCp0 runs space usable lookup rfl applyCp0Write_of_watchHi
  · rcases number with rfl | rfl
    · exact exec_mtc0_leavesCp0 runs space usable rfl rfl (applyCp0Write_of_readOnly (.inl rfl))
    · exact exec_mtc0_leavesCp0 runs space usable rfl rfl (applyCp0Write_of_readOnly (.inr rfl))

/-! ### MTC0 of Config (10_state.md R92) -/

/-- The fields that a write of `v` to Config would change and that are neither writable nor the reserved bit 12. -/
def configChanged (s : State) (v : Word32) : Word32 := (s.cp0.config ^^^ v) &&& ~~~(configWritable s.cfg ||| 0x00001000)

/-- BE is no writable field, so a write changes it only as one that is refused. -/
theorem configChanged_be (s : State) (v : Word32) :
    (configChanged s v).getLsbD 15 = (s.cp0.config ^^^ v).getLsbD 15 := by
  obtain ⟨-, -, be⟩ := configWritable_fields s.cfg
  simp only [configChanged, BitVec.getLsbD_and, BitVec.getLsbD_not, BitVec.getLsbD_or, be]
  simp

/-- What a write of Config answers, by what it would change. -/
theorem configWrite_eq (s : State) (v : Word32) :
    configWrite s v =
      if s.cfg.beWritable = true ∧ (configChanged s v).getLsbD 15 = true then .error .configByteOrderChange
      else if configChanged s v ≠ 0 then .error .configFieldNotWritable
      else .ok { reg := .config, mask := zext64 (configWritable s.cfg), value := zext64 v, window := true } := by
  rw [configChanged_be]
  rfl

theorem configWrite_ok {s : State} {v : Word32} (h : configChanged s v = 0) : ∃ w, configWrite s v = .ok w :=
  ⟨_, by rw [configWrite_eq, h, if_neg (by simp), if_neg (by simp)]⟩

theorem configWrite_error {s : State} {v : Word32} (h : configChanged s v ≠ 0) :
    configWrite s v = .error (if s.cfg.beWritable = true ∧ (configChanged s v).getLsbD 15 = true then
      .configByteOrderChange else .configFieldNotWritable) := by
  rw [configWrite_eq, if_pos h]
  split <;> rfl

/-- Settles O32. -/
theorem mtc0Config : Obligations.Mtc0Config := by
  intro rt m s style runs usable v writable changed
  have lookup : cp0Lookup s.cfg 16 = .ok .config := by simp [cp0Lookup, style]
  refine ⟨fun h space => ?_, fun h => ?_⟩
  · obtain ⟨w, hw⟩ := configWrite_ok (s := s) (v := v) h
    exact exec_mtc0_leavesCp0 runs space usable lookup hw applyCp0Write_of_config
  · exact exec_mtc0_refused runs usable lookup (configWrite_error h)

/-! ### CP0 numbers that are refused -/

theorem cp0Lookup_of_refusedNumber {c : Config} {n : RegNum} {r : Refusal} (h : (n, r) ∈ cp0RefusedNumbers c) :
    cp0Lookup c n = .error r := by
  have all : ∀ p ∈ cp0RefusedNumbers c, cp0Lookup c p.1 = .error p.2 := by
    unfold cp0RefusedNumbers cp0Lookup
    cases c.style <;> cases c.hasTlb <;> decide
  exact all _ h

/-- Where CP0 is usable and a doubleword move may be made, it does what it does once it is allowed. -/
theorem doubleChecked_allowed {m : Mode} {s : State} {b : Effect} (x : s.cfg.xlen = .x64) (u : s.cp0Usable m = true)
    (a : s.dw64Allowed m = true) : doubleChecked m s b = b := by
  simp [doubleChecked, x, u, a]

/-- Settles O35. -/
theorem cp0NumberRefused : Obligations.Cp0NumberRefused := by
  intro rt n r m i s number runs usable forms
  have usable := cp0Usable_iff.2 usable
  have lookup := cp0Lookup_of_refusedNumber number
  have fromRefused (d : Bool) : moveFrom rt n d s = .refuse r := by simp [moveFrom, lookup]
  have toRefused (d : Bool) : moveTo rt n d s = .refuse r := by simp [moveTo, lookup]
  apply exec_refuse runs
  rcases forms with rfl | rfl | ⟨x64, allowed, rfl | rfl⟩
  · exact (if_pos usable).trans (fromRefused false)
  · exact (if_pos usable).trans (toRefused false)
  · exact (doubleChecked_allowed x64 usable allowed).trans (fromRefused true)
  · exact (doubleChecked_allowed x64 usable allowed).trans (toRefused true)

/-! ### CP0 instructions where CP0 is not usable -/

theorem tlbInstruction_unusable {m : Mode} {s : State} (h : s.cp0Usable m = false) :
    tlbInstruction m s = .raise (.cpu 0) := by simp [tlbInstruction, h]

theorem doubleChecked_unusable {m : Mode} {s : State} {b : Effect} (x : s.cfg.xlen = .x64) (u : s.cp0Usable m = false)
    (a : s.dw64Allowed m = true) : doubleChecked m s b = .raise (.cpu 0) := by
  simp [doubleChecked, x, u, a]

/-- Settles O36. -/
theorem cp0Unusable : Obligations.Cp0Unusable := by
  intro rt rd base op offset m i s runs user cu forms
  have unusable : s.cp0Usable m = false := by simpa [State.cp0Usable, user] using cu
  have cpu : effect i m s = .raise (.cpu 0) := by
    simp only [List.mem_cons, List.not_mem_nil, or_false] at forms
    rcases forms with (rfl | rfl | rfl | rfl | rfl | rfl) | ⟨style, rfl⟩ | ⟨style, rfl | rfl⟩ | ⟨x64, allowed, rfl | rfl⟩
    case inl.inl => simp [effect, effMfc0, unusable]
    case inl.inr.inl => simp [effect, effMtc0, unusable]
    case inr.inl => simp [effect, effRfe, style, unusable]
    case inr.inr.inl.inl => simp [effect, effEret, style, unusable]
    case inr.inr.inl.inr => simp [effect, effCache, style, unusable]
    case inr.inr.inr.inl => exact doubleChecked_unusable x64 unusable allowed
    case inr.inr.inr.inr => exact doubleChecked_unusable x64 unusable allowed
    all_goals exact tlbInstruction_unusable unusable
  exact ⟨_, exec_raise runs cpu, entersCpU_enter 0 s⟩

end Sys2Proof.Machine
end

section
/-! The statements about exception entry, return and the delay slot: RfeUndoesEntry, DelaySlotTrap. -/

namespace Sys2Proof.Machine

/-- SYSCALL and BREAK enter their exception, whatever their code. -/
theorem exec_trap {i : Instr} {code : BitVec 20} {m : Mode} {s : State} (hi : i = .syscall code ∨ i = .brk code)
    (h : Runs i m s) : ∃ e, exec i s = .next (enter e .none s) := by
  rcases hi with rfl | rfl
  · exact ⟨.syscall, exec_raise h rfl⟩
  · exact ⟨.bp, exec_raise h rfl⟩

/-! ### rfe after an entry (60_exceptions.md R240, 41_exception_return.md R180) -/

/-- The push leaves the old current and previous pairs in SR[5:2]. -/
theorem srOnEntry_previous {s : State} (h : s.cfg.style = .r3000) (n : Note) :
    (s.srOnEntry n).extractLsb' 2 4 = s.cp0.sr.extractLsb' 0 4 := by
  apply BitVec.eq_of_getLsbD_eq
  intro i hi
  by_cases hn : n = .tlbShutdown <;>
    simp only [State.srOnEntry, h, hn, if_true, if_false, BitVec.getLsbD_extractLsb', getLsbD_putBits, hi, decide_true,
      Bool.true_and] <;>
    interval_cases i <;> simp

/-- The pop moves SR[5:2] to SR[3:0]. -/
theorem popKuIe_current (sr : Word32) : (putBits sr 0xF ((sr >>> 2) &&& 0xF)).extractLsb' 0 4 = sr.extractLsb' 2 4 := by
  apply BitVec.eq_of_getLsbD_eq
  intro i hi
  simp only [BitVec.getLsbD_extractLsb', getLsbD_putBits, hi, decide_true, Bool.true_and]
  interval_cases i <;> simp

/-- What an rfe that completes leaves in SR. -/
theorem sr_retire_popKuIe (s : State) :
    (s.retire (popKuIe s)).cp0.sr = putBits s.cp0.sr 0xF ((s.cp0.sr >>> 2) &&& 0xF) := by
  rw [retire_cp0_some s _ rfl rfl, applyCp0Write_sr rfl rfl, lo32_zext64]
  rfl

/-- After an entry nothing keeps an instruction from executing in kernel mode. -/
theorem runs_enter (i : Instr) (e : Exc) (n : Note) (s : State) : Runs i .kernel (enter e n s) :=
  runs_of_settled (mode_enter e n s) rfl rfl

theorem exec_rfe_enter {e : Exc} {n : Note} {s : State} (style : s.cfg.style = .r3000) (space : StaysInSpace (enter e n s)) :
    ∃ u, exec .rfe (enter e n s) = .next u ∧ u.cp0.sr.extractLsb' 0 4 = s.cp0.sr.extractLsb' 0 4 := by
  have pops : effect .rfe .kernel (enter e n s) = .done (popKuIe (enter e n s)) := by
    simp [effect, effRfe, style, State.cp0Usable]
  refine ⟨_, exec_done (runs_enter _ e n s) pops (wraps_next space), ?_⟩
  rw [sr_retire_popKuIe, popKuIe_current]
  exact srOnEntry_previous style n

/-- Settles O43. -/
theorem rfeUndoesEntry : Obligations.RfeUndoesEntry := by
  refine ⟨fun e n s style space => exec_rfe_enter style space, fun i code m s t style trap runs next space => ?_⟩
  obtain ⟨e, entered⟩ := exec_trap trap runs
  cases entered.symm.trans next
  exact exec_rfe_enter style space

/-! ### An exception in the delay slot of a jr (60_exceptions.md R238) -/

theorem norm_add_sub (c : Config) (v d : Word) : c.norm (c.norm (v + d) - d) = c.norm v := by
  cases h : c.xlen
  · have low : lo32 (zext64 (lo32 (v + d)) - d) = lo32 v := by
      apply BitVec.eq_of_toNat_eq
      simp only [lo32, zext64, BitVec.toNat_setWidth, BitVec.toNat_sub, BitVec.toNat_add]
      omega
    simp only [Config.norm, h, low]
  · simp [Config.norm, h]

/-- Everything a JR that completes does. -/
theorem exec_jr_next {rs : RegNum} {s t : State} (next : exec (.jr rs) s = .next t) :
    t.pc = s.npc ∧ t.inDelay = true ∧ t.cfg = s.cfg ∧ t.cp0 = s.cp0 := by
  obtain ⟨m', -, ⟨u, done, -, rfl⟩ | ⟨e, n, raised, -⟩⟩ := exec_next next
  · cases completes_of_done done
    obtain ⟨pc, -, slot⟩ := retire_delayed s { flow := .delayed (s.readGpr rs) } rfl
    exact ⟨pc, slot, rfl, retire_cp0_none s _ rfl rfl⟩
  · have noRaise : effJr rs m' s ≠ .stop (.raise e n) := by
      unfold effJr
      split <;> simp [Effect.refuse]
    exact absurd raised noRaise

/-- In the delay slot of an instruction at `pc`, an entry that saves the restart address saves `pc`. -/
theorem enter_in_delay_slot {s t : State} (hs : Wf s) (slot : s.inDelay = false)
    (exl : s.cfg.style = .r4000 → srExl s.cp0.sr = false) (pc : t.pc = s.npc) (delay : t.inDelay = true) (cfg : t.cfg = s.cfg)
    (cp0 : t.cp0 = s.cp0) (e : Exc) (n : Note) :
    (enter e n t).cp0.epc = s.pc ∧ causeBd (enter e n t).cp0.cause = true := by
  have nested : t.nested = false := by
    simp only [State.nested, cfg, cp0, Bool.and_eq_false_iff, decide_eq_false_iff_not]
    by_cases h : s.cfg.style = .r4000
    · exact .inr (exl h)
    · exact .inl h
  have restart : t.restartPc = s.pc := by
    rw [State.restartPc, if_pos delay, cfg, pc, hs.sequential slot, norm_add_sub, hs.pc]
  simp [nested, restart, causeBd_onEntry, delay]

/-- Settles O45. -/
theorem delaySlotTrap : Obligations.DelaySlotTrap := by
  intro rs m s t hs slot exl _ next
  obtain ⟨pc, delay, cfg, cp0⟩ := exec_jr_next next
  have recorded := enter_in_delay_slot hs slot exl pc delay cfg cp0
  refine ⟨recorded, fun i code trap runs => ?_⟩
  obtain ⟨e, entered⟩ := exec_trap trap runs
  exact ⟨_, entered, recorded e .none⟩

end Sys2Proof.Machine
end

section
/-! The statements about memory accesses that stop: RefusedAccesses, TlbShutdown. -/

namespace Sys2Proof.Machine

/-! ### Translation that stops (20_memory.md R114, R116) -/

section Translate
variable {m : Mode} {kind : AccessKind} {va : Word} {s : State}

theorem translate_of_segment64 (x64 : s.cfg.xlen = .x64) (h : va ≠ (lo32 va).signExtend 64) :
    s.translate m kind va = .error (.refuse (.segment64 va)) := by
  unfold State.translate
  exact if_pos ⟨x64, h⟩

theorem translate_of_noTlb (h : Mapped m va s) (no : s.cfg.hasTlb = false) :
    s.translate m kind va = .error (.refuse .noTlb) := by
  simp [translate_of_mapped h, State.translateMapped, no]

theorem translate_of_doubleMatch (h : Mapped m va s) (tlb : s.cfg.hasTlb = true)
    (o : s.oracle kind (lo32 va) = .doubleMatch) :
    s.translate m kind va =
      .error (if s.cfg.implementsTs then .raise (tlbMiss kind va true) .tlbShutdown else .refuse .doubleMatchPrevented) := by
  rw [translate_of_mapped h, State.translateMapped, if_pos tlb, o]
  cases s.cfg.implementsTs <;> rfl

end Translate

/-! ### Word accesses that stop (20_memory.md R126) -/

section Access
variable {a : WordAccess} {m : Mode} {s : State}

/-- An access that translation stops stops so. -/
theorem effect_of_translate_error {x : Stop} (starts : Starts a s) (h : s.translate m a.kind (a.address s) = .error x) :
    effect a.instr m s = .stop x :=
  effect_of_dataAccess_error (by rw [dataAccess_of_starts starts, h])

theorem effect_of_isolated (aligned : (a.address s).toNat % 4 = 0) (style : s.cfg.style = .r3000)
    (isolated : srIsc s.cp0.sr = true ∨ srSwc s.cp0.sr = true) : effect a.instr m s = .stop (.refuse .cacheIsolated) := by
  apply effect_of_dataAccess_error
  rw [State.dataAccess, if_neg (not_not.2 aligned), if_pos ⟨style, isolated⟩]

/-- An access that passes `DataAccess` stops where its bytes are not there. -/
theorem effect_of_wordProblem {pa : Nat} {x : Stop} (h : s.dataAccess m a.kind 4 (a.address s) = .ok pa)
    (p : wordProblem s.cfg pa = some x) : effect a.instr m s = .stop x := by
  cases a with
  | load base rt offset =>
    show effLw base rt offset m s = _
    simp [effLw, show s.dataAccess m .load 4 (s.effectiveAddress base offset) = .ok pa from h, p]
  | store base rt offset =>
    show effSw base rt offset m s = _
    simp [effSw, show s.dataAccess m .store 4 (s.effectiveAddress base offset) = .ok pa from h, p]

/-- A translated access without a watchpoint and a bus error passes `DataAccess`. -/
theorem dataAccess_of_translate_ok {pa : Nat} {attr : CacheAttr} (starts : Starts a s)
    (h : s.translate m a.kind (a.address s) = .ok (pa, attr)) (unwatched : s.watchMatch pa a.kind = false)
    (noBusError : a.kind = .load → s.dbe = false) : s.dataAccess m a.kind 4 (a.address s) = .ok pa := by
  have noDbe : ¬ (a.kind = .load ∧ s.dbe = true) := by
    rintro ⟨load, dbe⟩
    rw [noBusError load] at dbe
    cases dbe
  simp [dataAccess_of_starts starts, h, unwatched, noDbe]

theorem wordProblem_of_notPlain {c : Config} {pa k : Nat} (space : pa + 4 ≤ 2 ^ c.paBits) (hk : k < 4)
    (h : isPlain c (pa + k) = false) : wordProblem c pa = some (.refuse (.notPlainMemory pa)) := by
  rw [wordProblem, if_neg (by omega), if_neg]
  intro all
  simp only [Bool.and_eq_true] at all
  obtain ⟨⟨⟨p0, p1⟩, p2⟩, p3⟩ := all
  interval_cases k <;> simp_all

theorem wordProblem_of_beyond {c : Config} {pa : Nat} (h : 2 ^ c.paBits < pa + 4) :
    wordProblem c pa = some (.fault (.noSuchPhysicalAddress pa)) := if_pos h

end Access

/-- Settles O23: each clause is the stop of its check, in the order of `DataAccess`. -/
theorem refusedAccesses : Obligations.RefusedAccesses := by
  intro a m s runs aligned
  refine ⟨fun style isolated => exec_refuse runs (effect_of_isolated aligned style isolated),
    fun style x64 h => ?_, fun starts mapped no => ?_, fun pa attr k starts ok unwatched noBusError space hk plain => ?_,
    fun starts mapped tlb ts o => ?_, fun pa attr starts ok unwatched noBusError beyond => ?_⟩
  · have starts : Starts a s := ⟨aligned, fun r3000 => by rw [style] at r3000; cases r3000⟩
    exact exec_refuse runs (effect_of_translate_error starts (translate_of_segment64 x64 h))
  · exact exec_refuse runs (effect_of_translate_error starts (translate_of_noTlb mapped no))
  · exact exec_refuse runs (effect_of_wordProblem (dataAccess_of_translate_ok starts ok unwatched noBusError)
      (wordProblem_of_notPlain space hk plain))
  · have stop := translate_of_doubleMatch mapped tlb o
    rw [ts] at stop
    exact exec_refuse runs (effect_of_translate_error starts stop)
  · rw [exec_of_runs runs, effect_of_wordProblem (dataAccess_of_translate_ok starts ok unwatched noBusError)
      (wordProblem_of_beyond beyond), finish_fault]

/-! ### The shutdown of the TLB (10_state.md R55) -/

/-- The state with SR.TS set. -/
def withTs (s : State) : State := { s with cp0 := { s.cp0 with sr := s.cp0.sr ||| 0x00200000 } }

theorem withTs_nested (s : State) : (withTs s).nested = s.nested := by
  have exl : srExl (s.cp0.sr ||| 0x00200000) = srExl s.cp0.sr := by simp [srExl]
  show (decide (s.cfg.style = .r4000) && srExl (s.cp0.sr ||| 0x00200000)) = s.nested
  rw [exl]
  rfl

/-- The entry at a shutdown is the entry of the same exception with TS set before it, but for the entry point. -/
theorem enter_tlbShutdown (e : Exc) (s : State) :
    enter e .tlbShutdown s =
      { enter e .none (withTs s) with pc := s.vector e, npc := s.cfg.norm (s.vector e + 4) } := by
  have sr : s.srOnEntry .tlbShutdown = (withTs s).srOnEntry .none := rfl
  have cause : s.causeOnEntry e = (withTs s).causeOnEntry e := by
    unfold State.causeOnEntry
    rw [withTs_nested]
    rfl
  simp only [enter, sr, cause, withTs_nested]
  rfl

theorem enters_tlbShutdown (e : Exc) (s : State) : Enters e.code (withTs s) (enter e .tlbShutdown s) := by
  rw [enter_tlbShutdown]
  exact { enters_enter e .none (withTs s) (by decide) (by simp) (by simp) with npc := rfl }

theorem tlbMiss_code (kind : AccessKind) (va : Word) (refill : Bool) :
    (tlbMiss kind va refill).code = if kind = .store then 3 else 2 := by cases kind <;> rfl

/-- Everything the entry at a double match does but the entry point. -/
theorem enter_doubleMatch (kind : AccessKind) (va : Word) (s : State) :
    srTs (enter (tlbMiss kind va true) .tlbShutdown s).cp0.sr = true ∧
      Enters (if kind = .store then 3 else 2) (withTs s) (enter (tlbMiss kind va true) .tlbShutdown s) ∧
      (enter (tlbMiss kind va true) .tlbShutdown s).cp0.badVaddr = s.cfg.norm va := by
  refine ⟨by simp [srTs_onEntry], tlbMiss_code kind va true ▸ enters_tlbShutdown _ s, ?_⟩
  cases kind <;> rfl

/-- A fetch that translation stops stops so. -/
theorem cpuStep_of_translate_error {t : State} {m : Mode} {x : Stop} (h : Fetches m t) (aligned : t.pc.toNat % 4 = 0)
    (stop : t.translate m .fetch t.pc = .error x) : cpuStep t = finish (.stop x) t := by
  have fetched : t.fetchIn m = .stop x := by simp [State.fetchIn, aligned, stop]
  rw [cpuStep_of_fetches h, fetched]

/-- Settles O22. -/
theorem tlbShutdown : Obligations.TlbShutdown := by
  refine ⟨fun a m s runs starts mapped tlb ts o => ?_, fun m s t turn fetches aligned mapped tlb ts o => ?_,
    fun s kind a ts => if_pos ts⟩
  · have stop := translate_of_doubleMatch mapped tlb o
    rw [ts] at stop
    exact ⟨_, exec_raise runs (effect_of_translate_error starts stop), enter_doubleMatch a.kind (a.address s) s⟩
  · have stop := translate_of_doubleMatch mapped tlb o
    rw [ts] at stop
    exact ⟨_, (step_of_turn turn).trans (cpuStep_of_translate_error fetches aligned stop), enter_doubleMatch .fetch t.pc t⟩

end Sys2Proof.Machine
end

section
/-! The statements about translation: UserAddressesStayInKuseg, UnmappedSegments, AccessAddressError, MappedAccessFaults. -/

namespace Sys2Proof.Machine

/-! ### The addresses of a mode (20_memory.md R101, R103) -/

/-- Mode `m` may not use the program address `a`: user mode outside kuseg, supervisor mode outside kuseg and its own segment. -/
def OutsideSegments (m : Mode) (a : Word32) : Prop :=
  (m = .user ∧ 0x7FFFFFFF < a) ∨ (m = .supervisor ∧ 0x7FFFFFFF < a ∧ (a < 0xC0000000 ∨ 0xDFFFFFFF < a))

theorem inKuseg_eq_false {a : Word32} : inKuseg a = false ↔ 0x7FFFFFFF < a := by
  simp [inKuseg]

theorem supervisorMay_eq_false {a : Word32} :
    supervisorMay a = false ↔ 0x7FFFFFFF < a ∧ (a < 0xC0000000 ∨ 0xDFFFFFFF < a) := by
  rw [supervisorMay, Bool.or_eq_false_iff, inKuseg_eq_false, Bool.and_eq_false_iff]
  simp only [decide_eq_false_iff_not, BitVec.not_le]

/-- The privilege checks of `Translate` (R115). -/
theorem outsideSegments_iff {m : Mode} {a : Word32} :
    OutsideSegments m a ↔ (m = .user ∧ inKuseg a = false) ∨ (m = .supervisor ∧ supervisorMay a = false) := by
  rw [inKuseg_eq_false, supervisorMay_eq_false]
  rfl

theorem not_outsideSegments_of_kuseg {m : Mode} {a : Word32} (h : a ≤ 0x7FFFFFFF) : ¬ OutsideSegments m a := by
  rintro (⟨-, above⟩ | ⟨-, above, -⟩) <;> exact BitVec.not_le.2 above h

/-! ### Translation outside and inside the segments of a mode (R115) -/

section TranslateSegments
variable {m : Mode} {kind : AccessKind} {va : Word} {s : State}

theorem not_segment64 (canonical : s.cfg.xlen = .x64 → va = (lo32 va).signExtend 64) :
    ¬ (s.cfg.xlen = .x64 ∧ va ≠ (lo32 va).signExtend 64) := fun ⟨x64, ne⟩ => ne (canonical x64)

theorem translate_of_outside (canonical : s.cfg.xlen = .x64 → va = (lo32 va).signExtend 64)
    (outside : OutsideSegments m (lo32 va)) :
    s.translate m kind va = .error (.raise (addressError kind va) .none) := by
  unfold State.translate
  rw [if_neg (not_segment64 canonical)]
  rcases outsideSegments_iff.1 outside with user | supervisor
  · rw [if_pos user]
  · have notUser : ¬ (m = .user ∧ inKuseg (lo32 va) = false) := by simp [supervisor.1]
    rw [if_neg notUser, if_pos supervisor]

/-- An address the mode may use translates as in kernel mode. -/
theorem translate_of_inside (inside : ¬ OutsideSegments m (lo32 va)) :
    s.translate m kind va = s.translate .kernel kind va := by
  rw [outsideSegments_iff, not_or] at inside
  obtain ⟨user, supervisor⟩ := inside
  unfold State.translate
  simp [user, supervisor]

/-- Only a word the mode may use is translated. -/
theorem inside_of_translate_ok {pa : Nat} {attr : CacheAttr} (h : s.translate m kind va = .ok (pa, attr)) :
    (s.cfg.xlen = .x64 → va = (lo32 va).signExtend 64) ∧ ¬ OutsideSegments m (lo32 va) := by
  have canonical (x64 : s.cfg.xlen = .x64) : va = (lo32 va).signExtend 64 := by
    by_contra ne
    cases (translate_of_segment64 x64 ne).symm.trans h
  refine ⟨canonical, fun outside => ?_⟩
  cases (translate_of_outside canonical outside).symm.trans h

/-! ### The unmapped segments (R103, R104, 10_state.md R67) -/

theorem translate_of_erlWindow (canonical : s.cfg.xlen = .x64 → va = (lo32 va).signExtend 64)
    (style : s.cfg.style = .r4000) (erl : srErl s.cp0.sr = true) (kuseg : lo32 va ≤ 0x7FFFFFFF) :
    s.translate m kind va = .ok ((lo32 va).toNat, .uncached) := by
  have low : ((lo32 va).extractLsb' 0 31).toNat = (lo32 va).toNat := by
    have bound : (lo32 va).toNat ≤ 0x7FFFFFFF := kuseg
    simp only [BitVec.extractLsb'_toNat, Nat.shiftRight_zero]
    omega
  rw [translate_of_inside (not_outsideSegments_of_kuseg kuseg), State.translate,
    if_neg (not_segment64 canonical), if_neg (by simp), if_neg (by simp), if_pos ⟨style, erl, by simpa [inKuseg] using kuseg⟩, low]

theorem translate_kernel_of_kseg0 (canonical : s.cfg.xlen = .x64 → va = (lo32 va).signExtend 64)
    (above : inKuseg (lo32 va) = false) (lower : s.cfg.segments.kseg0 ≤ lo32 va) (upper : lo32 va < s.cfg.segments.kseg1) :
    ∃ attr, s.translate .kernel kind va = .ok ((lo32 va - s.cfg.segments.kseg0).toNat, attr) := by
  rw [State.translate, if_neg (not_segment64 canonical), if_neg (by simp), if_neg (by simp), if_neg (by simp [above]),
    if_pos ⟨lower, upper⟩]
  exact ⟨_, rfl⟩

theorem translate_kernel_of_kseg1 (canonical : s.cfg.xlen = .x64 → va = (lo32 va).signExtend 64)
    (above : inKuseg (lo32 va) = false) (notKseg0 : ¬ (s.cfg.segments.kseg0 ≤ lo32 va ∧ lo32 va < s.cfg.segments.kseg1))
    (lower : s.cfg.segments.kseg1 ≤ lo32 va) (upper : lo32 va < s.cfg.segments.kseg2) :
    s.translate .kernel kind va = .ok ((lo32 va - s.cfg.segments.kseg1).toNat, .uncached) := by
  rw [State.translate, if_neg (not_segment64 canonical), if_neg (by simp), if_neg (by simp), if_neg (by simp [above]),
    if_neg notKseg0, if_pos ⟨lower, upper⟩]

end TranslateSegments

/-- Settles O24. -/
theorem userAddressesStayInKuseg : Obligations.UserAddressesStayInKuseg := by
  intro s m kind va pa attr h
  obtain ⟨canonical, inside⟩ := inside_of_translate_ok h
  refine ⟨fun user => ?_, fun supervisor => ?_, canonical⟩
  · exact BitVec.not_lt.1 fun above => inside (.inl ⟨user, above⟩)
  · by_contra no
    simp only [not_or, not_and_or, BitVec.not_le] at no
    exact inside (.inr ⟨supervisor, no⟩)

/-- Settles O25. -/
theorem unmappedSegments : Obligations.UnmappedSegments := by
  intro s m kind va standard canonical
  have kseg0 : s.cfg.segments.kseg0 = 0x80000000 := by rw [standard]; rfl
  have kseg1 : s.cfg.segments.kseg1 = 0xA0000000 := by rw [standard]; rfl
  have kseg2 : s.cfg.segments.kseg2 = 0xC0000000 := by rw [standard]; rfl
  refine ⟨?_, ?_, translate_of_erlWindow canonical⟩
  · rintro rfl lower upper
    rw [← kseg0]
    exact translate_kernel_of_kseg0 canonical (inKuseg_eq_false.2 (by bv_omega)) (kseg0 ▸ lower) (kseg1 ▸ upper)
  · rintro rfl lower upper
    rw [← kseg1]
    exact translate_kernel_of_kseg1 canonical (inKuseg_eq_false.2 (by bv_omega)) (by rw [kseg1]; bv_omega)
      (kseg1 ▸ lower) (kseg2 ▸ upper)

/-! ### Address errors (R101, R109, R110) -/

theorem entersWithAddress_addressError (kind : AccessKind) (va : Word) (s : State) :
    EntersWithAddress (if kind = .store then 5 else 4) va s (enter (addressError kind va) .none s) := by
  cases kind with
  | store => exact entersWithAddress_enter (.ades va) va s rfl rfl
  | fetch | load => exact entersWithAddress_enter (.adel va) va s rfl rfl

/-- Alignment is the first check of an access (R126). -/
theorem effect_of_misaligned {a : WordAccess} {m : Mode} {s : State} (h : (a.address s).toNat % 4 ≠ 0) :
    effect a.instr m s = .stop (.raise (addressError a.kind (a.address s)) .none) :=
  effect_of_dataAccess_error (if_pos h)

/-- Settles O18. -/
theorem accessAddressError : Obligations.AccessAddressError := by
  intro a m s runs
  refine ⟨fun misaligned => ?_, fun starts canonical outside => ?_⟩
  · exact ⟨_, exec_raise runs (effect_of_misaligned misaligned), entersWithAddress_addressError _ _ s⟩
  · have stop := effect_of_translate_error starts (translate_of_outside canonical outside)
    exact ⟨_, exec_raise runs stop, entersWithAddress_addressError _ _ s⟩

/-! ### Mapped addresses (R116) -/

section MappedAddress
variable {m : Mode} {kind : AccessKind} {va : Word} {s : State} {pa : Nat} {c : BitVec 3} {writable : Bool}

theorem translate_of_hit (h : Mapped m va s) (tlb : s.cfg.hasTlb = true)
    (o : s.oracle kind (lo32 va) = .hit pa c writable) (may : kind = .store → writable = true) :
    s.translate m kind va = .ok (pa, .page c) := by
  have allowed : ¬ (kind = .store ∧ writable = false) := fun ⟨store, no⟩ => by simp [may store] at no
  simp [translate_of_mapped h, State.translateMapped, tlb, o, allowed]

theorem translate_of_readOnly (h : Mapped m va s) (tlb : s.cfg.hasTlb = true) (store : kind = .store)
    (o : s.oracle .store (lo32 va) = .hit pa c false) :
    s.translate m kind va = .error (.raise (.mod va) .none) := by
  subst store
  simp [translate_of_mapped h, State.translateMapped, tlb, o]

theorem translate_of_miss {refill : Bool} (h : Mapped m va s) (tlb : s.cfg.hasTlb = true)
    (o : s.oracle kind (lo32 va) = .miss refill) :
    s.translate m kind va = .error (.raise (tlbMiss kind va refill) .none) := by
  simp [translate_of_mapped h, State.translateMapped, tlb, o]

end MappedAddress

/-- A match with an invalid entry goes to the general entry point (60_exceptions.md R223, R224, R245). -/
theorem entersWithAddress_invalid (kind : AccessKind) (va : Word) (s : State) :
    EntersWithAddress (if kind = .store then 3 else 2) va s (enter (tlbMiss kind va false) .none s) := by
  cases kind with
  | store => exact entersWithAddress_enter (.tlbs va false) va s rfl rfl
  | fetch | load => exact entersWithAddress_enter (.tlbl va false) va s rfl rfl

/-- Settles O20. -/
theorem mappedAccessFaults : Obligations.MappedAccessFaults := by
  refine ⟨fun m kind va s pa c writable => translate_of_hit, fun a m s runs starts mapped tlb => ⟨fun o => ?_, ?_⟩⟩
  · have stop := effect_of_translate_error starts (translate_of_miss mapped tlb o)
    exact ⟨_, exec_raise runs stop, entersWithAddress_invalid _ _ s⟩
  · intro pa c store o
    have stop := effect_of_translate_error starts (translate_of_readOnly mapped tlb store o)
    exact ⟨_, exec_raise runs stop, entersWithAddress_enter (.mod (a.address s)) (a.address s) s rfl rfl⟩

end Sys2Proof.Machine
end

section
/-! The statements about fetches and about a load after a store: FetchFaults, StepRunsInstruction, LoadAfterStore. -/

namespace Sys2Proof.Machine

/-! ### The fetch (20_memory.md R127) -/

section Fetch
variable {m : Mode} {s : State} {pa : Nat} {attr : CacheAttr}

theorem fetchIn_of_misaligned (h : s.pc.toNat % 4 ≠ 0) : s.fetchIn m = .stop (.raise (.adel s.pc) .none) := if_pos h

theorem fetchIn_of_busError (aligned : s.pc.toNat % 4 = 0) (ok : s.translate m .fetch s.pc = .ok (pa, attr))
    (ibe : s.ibe = true) : s.fetchIn m = .stop (.raise .ibe .fetchBusError) := by
  simp [State.fetchIn, aligned, ok, ibe]

/-- A fetch that passes every check reads the word in the order `BIGENDIAN`. -/
theorem fetchIn_of_readable (aligned : s.pc.toNat % 4 = 0) (ok : s.translate m .fetch s.pc = .ok (pa, attr))
    (ibe : s.ibe = false) (space : pa + 4 ≤ 2 ^ s.cfg.paBits) (plain : ∀ k, k < 4 → isPlain s.cfg (pa + k) = true)
    (unwritten : ∀ a ∈ s.written, a < pa ∨ pa + 4 ≤ a) : s.fetchIn m = .word (s.readWord s.cfg.bigEndian pa) := by
  have notStored : s.written.any (fun a => decide (pa ≤ a) && decide (a < pa + 4)) = false := by
    rw [List.any_eq_false]
    intro a ha
    have := unwritten a ha
    simp only [Bool.and_eq_true, decide_eq_true_eq]
    omega
  simp [State.fetchIn, aligned, ok, ibe, wordProblem_none space plain, notStored]

theorem step_of_fetch_stop {t : State} {x : Stop} (turn : CpuTurn s t) (fetches : Fetches m t)
    (fetched : t.fetchIn m = .stop x) : step s = finish (.stop x) t := by
  rw [step_of_turn turn, cpuStep_of_fetches fetches, fetched]

theorem step_of_fetch_word {t : State} {w : Word32} (turn : CpuTurn s t) (fetches : Fetches m t)
    (fetched : t.fetchIn m = .word w) : step s = runWord w t := by
  rw [step_of_turn turn, cpuStep_of_fetches fetches, fetched]

end Fetch

/-- Settles O8. -/
theorem fetchFaults : Obligations.FetchFaults := by
  intro s t m turn fetches
  refine ⟨fun misaligned => ?_, fun aligned canonical outside => ?_, fun pa attr aligned ok ibe => ?_,
    fun aligned mapped tlb o => ?_⟩
  · exact ⟨_, step_of_fetch_stop turn fetches (fetchIn_of_misaligned misaligned),
      entersWithAddress_addressError .fetch t.pc t⟩
  · have stop := cpuStep_of_translate_error fetches aligned (translate_of_outside canonical outside)
    exact ⟨_, (step_of_turn turn).trans stop, entersWithAddress_addressError .fetch t.pc t⟩
  · have entered : EntersGeneral 6 t (enter .ibe .fetchBusError t) :=
      ⟨enters_enter .ibe .fetchBusError t (by decide) (fun _ => rfl) (by simp), toGeneral_enter rfl⟩
    exact ⟨_, step_of_fetch_stop turn fetches (fetchIn_of_busError aligned ok ibe), entered, by simp⟩
  · have stop := cpuStep_of_translate_error fetches aligned (translate_of_miss mapped tlb o)
    exact ⟨_, (step_of_turn turn).trans stop, entersWithAddress_invalid .fetch t.pc t⟩

/-- Settles O5. -/
theorem stepRunsInstruction : Obligations.StepRunsInstruction := by
  intro s t m i pa attr turn fetches aligned ok ibe space plain unwritten decodes
  have decoded : decode (t.readWord t.cfg.bigEndian pa) = .instr i := decodes
  rw [step_of_fetch_word turn fetches (fetchIn_of_readable aligned ok ibe space plain unwritten), runWord, decoded]

/-! ### A load after a store (R121) -/

/-- Translation looks at the configuration, CP0 and the oracle only. -/
theorem translate_congr {s t : State} (cfg : t.cfg = s.cfg) (cp0 : t.cp0 = s.cp0) (tlb : t.tlb = s.tlb) (m : Mode)
    (kind : AccessKind) (va : Word) : t.translate m kind va = s.translate m kind va := by
  simp only [State.translate, State.translateMapped, State.oracle, cfg, cp0, tlb]

/-- The checks of an access look at the configuration, CP0, the oracle and the bus errors only. -/
theorem accessible_congr {m : Mode} {kind : AccessKind} {va : Word} {pa : Nat} {s t : State} (world : SameWorld s t)
    (cp0 : t.cp0 = s.cp0) (h : Accessible m kind va pa s) : Accessible m kind va pa t where
  aligned := h.aligned
  notIsolated := by rw [world.cfg, cp0]; exact h.notIsolated
  translated := by rw [translate_congr world.cfg cp0 world.tlb]; exact h.translated
  unwatched := by
    rw [← h.unwatched]
    simp only [State.watchMatch, State.watchAddress, world.cfg, cp0]
  noBusError := by rw [world.dbe]; exact h.noBusError
  inSpace := by rw [world.cfg]; exact h.inSpace
  plain := by rw [world.cfg]; exact h.plain

/-- What a word load that goes through does (44_support_and_deferred.md R204). -/
theorem effect_lw_of_accessible {base rt : RegNum} {offset : BitVec 16} {m : Mode} {s : State} {pa : Nat}
    (h : Accessible m .load (accessAddress s base offset) pa s) :
    effect (.lw base rt offset) m s = .done
      { gpr := if rt = 0 then none else some (rt, s.cfg.sext (s.readWord (s.effectiveBig m) pa))
        loaded := if rt == 0 then none else some rt } := by
  have access : s.dataAccess m .load 4 (s.effectiveAddress base offset) = .ok pa := dataAccess_of_accessible h
  simp only [effect, effLw, access, wordProblem_none h.inSpace h.plain]

/-- What a word store that goes through does (R205). -/
theorem effect_sw_of_accessible {base rt : RegNum} {offset : BitVec 16} {m : Mode} {s : State} {pa : Nat}
    (h : Accessible m .store (accessAddress s base offset) pa s) :
    effect (.sw base rt offset) m s = .done { store := some (pa, wordBytes (s.effectiveBig m) (lo32 (s.readGpr rt))) } := by
  have access : s.dataAccess m .store 4 (s.effectiveAddress base offset) = .ok pa := dataAccess_of_accessible h
  simp only [effect, effSw, access, wordProblem_none h.inSpace h.plain]

/-- A store leaves the registers, CP0 and the world alone, and its word is read back in the byte order of the mode. -/
theorem exec_sw_next {base rt : RegNum} {offset : BitVec 16} {m : Mode} {s t : State} {pa : Nat}
    (runs : Runs (.sw base rt offset) m s) (space : StaysInSpace s)
    (h : Accessible m .store (accessAddress s base offset) pa s) (next : exec (.sw base rt offset) s = .next t) :
    t.cp0 = s.cp0 ∧ SameGprs s t ∧ SameWorld s t ∧ t.readWord (s.effectiveBig m) pa = lo32 (s.readGpr rt) := by
  cases (exec_done runs (effect_sw_of_accessible h) (wraps_next space)).symm.trans next
  exact ⟨retire_cp0_none s _ rfl rfl, readGpr_congr (retire_gprs_none s _ rfl), sameWorld_retire s _,
    readWord_putAll s.mem _ pa _ (retire_mem_some s _ rfl)⟩

theorem exec_lw_readGpr {base rd : RegNum} {offset : BitVec 16} {m : Mode} {s : State} {pa : Nat}
    (runs : Runs (.lw base rd offset) m s) (space : StaysInSpace s)
    (h : Accessible m .load (accessAddress s base offset) pa s) :
    ∃ u, exec (.lw base rd offset) s = .next u ∧
      u.readGpr rd = if rd = 0 then 0 else s.cfg.sext (s.readWord (s.effectiveBig m) pa) := by
  refine ⟨_, exec_done runs (effect_lw_of_accessible h) (wraps_next space), ?_⟩
  by_cases zero : rd = 0
  · subst zero; rfl
  · rw [readGpr_putGpr (retire_gprs_some s _ (if_neg zero))]
    simp

/-- Settles O17: the store leaves everything the load's checks look at, and the load reads the bytes stored, in the same byte
order. -/
theorem loadAfterStore : Obligations.LoadAfterStore := by
  intro base rt rd offset m pa s t runsSw spaceSw store load next runsLw spaceLw
  obtain ⟨cp0, gprs, world, word⟩ := exec_sw_next runsSw spaceSw store next
  have address : accessAddress t base offset = accessAddress s base offset := by
    simp only [accessAddress, world.cfg, gprs base]
  have order : t.effectiveBig m = s.effectiveBig m := by simp only [State.effectiveBig, world.cfg, cp0]
  have loads : Accessible m .load (accessAddress t base offset) pa t := address ▸ accessible_congr world cp0 load
  have loaded := exec_lw_readGpr runsLw spaceLw loads
  rwa [order, word, world.cfg] at loaded

end Sys2Proof.Machine
end

section
/-! The statements about the decoder and the encoder: DecodeOfEncode, EncodeOfDecode, DecodesExactlyTheRows. -/

namespace Sys2Proof

/-! ### Decoding a word of a format (30_encoding.md R143 to R146) -/

theorem decode_of_special {w : Word32} (h : fieldOp w = 0) : decode w = decodeSpecial w := by simp [decode, h]

theorem decode_of_cop0 {w : Word32} (h : fieldOp w = 0b010000) : decode w = decodeCop0 w := by simp [decode, h]

@[simp] theorem decode_formatR (rs rt rd sa : BitVec 5) (funct : BitVec 6) :
    decode (formatR rs rt rd sa funct) = decodeSpecial (formatR rs rt rd sa funct) := decode_of_special (by simp)

@[simp] theorem decode_formatCode (code : BitVec 20) (funct : BitVec 6) :
    decode (formatCode code funct) = decodeSpecial (formatCode code funct) := decode_of_special (by simp)

@[simp] theorem decode_formatC0F (funct : BitVec 6) :
    decode (formatC0F funct) = decodeCop0Function (formatC0F funct) := by
  rw [decode_of_cop0 (by simp), decodeCop0, if_pos (by simp)]

/-- Bit 25 tells the two COP0 formats apart: a sub-opcode of a move is not `10000`. -/
theorem decode_formatC0M {sub : BitVec 5} (move : sub ≠ 0b10000) (rt rd : BitVec 5) :
    decode (formatC0M sub rt rd) = decodeCop0Move (formatC0M sub rt rd) := by
  have notFunction : fieldCo (formatC0M sub rt rd) ≠ 0x80000 := fun co => move (by simpa using fieldRs_of_fieldCo co)
  rw [decode_of_cop0 (by simp), decodeCop0, if_neg notFunction, if_pos (by simp)]

/-- The one check of well-formedness: the words of NOP and SSNOP are not spelled as shifts (R155). -/
theorem wellFormed_sll {rt rd sa : BitVec 5} :
    (Instr.sll rt rd sa).wellFormed = true ↔ ¬ (rt = 0#5 ∧ rd = 0#5 ∧ sa = 0#5) ∧ ¬ (rt = 0#5 ∧ rd = 0#5 ∧ sa = 1#5) := by
  simp only [Instr.wellFormed, Bool.not_eq_true', Bool.and_eq_false_iff, Bool.or_eq_false_iff, beq_eq_false_iff_ne]
  tauto

theorem decodeSpecial_sll {rt rd sa : BitVec 5} (h : (Instr.sll rt rd sa).wellFormed = true) :
    decodeSpecial (formatR 0 rt rd sa 0) = .instr (.sll rt rd sa) := by
  obtain ⟨notNop, notSsnop⟩ := wellFormed_sll.1 h
  simp [decodeSpecial, notNop, notSsnop]

/-- Settles O1: the fields of a word of a format are the operands it was built from. -/
theorem decodeOfEncode : Obligations.DecodeOfEncode := by
  intro i wf
  cases i with
  | mfc0 | dmfc0 | mtc0 | dmtc0 => rw [encode, decode_formatC0M (by decide)]; simp [decodeCop0Move]
  | tlbr | tlbwi | tlbwr | tlbp | rfe | eret => simp [encode, decodeCop0Function]
  | sll rt rd sa => rw [encode, decode_formatR, decodeSpecial_sll wf]
  | nop | ssnop | jr | syscall | brk | sync | addu | and | or => simp [encode, decodeSpecial]
  | lw | sw | cache | ll | pref | sc => simp [encode, decode]

/-! ### Encoding what a word decodes to -/

/-- A word that fails the check of its must-be-zero fields is no instruction (R149). -/
theorem check_of_instr {p : Prop} [Decidable p] {d : Decoded} {i : Instr} (h : (if p then d else .unknown) = .instr i) :
    p ∧ d = .instr i := by
  split at h
  · exact ⟨‹p›, h⟩
  · cases h

theorem encode_of_decodeSpecial {w : Word32} {i : Instr} (op : fieldOp w = 0) (h : decodeSpecial w = .instr i) :
    encode i = w ∧ i.wellFormed = true := by
  have word := formatR_fields op
  have codeWord := formatCode_fields op
  unfold decodeSpecial at h
  split at h
  case h_1 funct =>
    obtain ⟨rs, h⟩ := check_of_instr h
    rw [funct, rs] at word
    split_ifs at h with nop ssnop
    · obtain ⟨rt, rd, sa⟩ := nop
      cases h
      rw [rt, rd, sa] at word
      exact ⟨word, rfl⟩
    · obtain ⟨rt, rd, sa⟩ := ssnop
      cases h
      rw [rt, rd, sa] at word
      exact ⟨word, rfl⟩
    · cases h
      exact ⟨word, wellFormed_sll.2 ⟨nop, ssnop⟩⟩
  case h_2 funct =>
    obtain ⟨⟨rt, rd, sa⟩, ⟨⟩⟩ := check_of_instr h
    rw [funct, rt, rd, sa] at word
    exact ⟨word, rfl⟩
  case h_3 funct | h_4 funct =>
    cases h
    rw [funct] at codeWord
    exact ⟨codeWord, rfl⟩
  case h_5 funct =>
    obtain ⟨⟨rs, rt, rd⟩, ⟨⟩⟩ := check_of_instr h
    rw [funct, rs, rt, rd] at word
    exact ⟨word, rfl⟩
  case h_6 funct | h_7 funct | h_8 funct =>
    obtain ⟨sa, ⟨⟩⟩ := check_of_instr h
    rw [funct, sa] at word
    exact ⟨word, rfl⟩
  case h_9 => cases h

theorem encode_of_decodeCop0Function {w : Word32} {i : Instr} (op : fieldOp w = 0b010000) (co : fieldCo w = 0x80000)
    (h : decodeCop0Function w = .instr i) : encode i = w ∧ i.wellFormed = true := by
  have word := formatC0F_fields op co
  unfold decodeCop0Function at h
  split at h
  case h_7 => cases h
  all_goals next funct => cases h; rw [funct] at word; exact ⟨word, rfl⟩

theorem encode_of_decodeCop0Move {w : Word32} {i : Instr} (op : fieldOp w = 0b010000) (low : fieldLow11 w = 0)
    (h : decodeCop0Move w = .instr i) : encode i = w ∧ i.wellFormed = true := by
  have word := formatC0M_fields op low
  unfold decodeCop0Move at h
  split at h
  case h_5 => cases h
  all_goals next sub => cases h; rw [sub] at word; exact ⟨word, rfl⟩

theorem encode_of_decodeCop0 {w : Word32} {i : Instr} (op : fieldOp w = 0b010000) (h : decodeCop0 w = .instr i) :
    encode i = w ∧ i.wellFormed = true := by
  unfold decodeCop0 at h
  split at h
  · next co => exact encode_of_decodeCop0Function op co h
  · split at h
    · next low => exact encode_of_decodeCop0Move op low h
    · cases h

/-- Settles O2. -/
theorem encodeOfDecode : Obligations.EncodeOfDecode := by
  intro w i h
  have word := formatI_fields w
  unfold decode at h
  split at h
  case h_1 op => exact encode_of_decodeSpecial op h
  case h_2 op => exact encode_of_decodeCop0 op h
  case h_3 | h_4 | h_5 | h_12 => cases h
  all_goals next op => cases h; rw [op] at word; exact ⟨word, rfl⟩

/-! ### Words by their fields -/

theorem append_inj_iff {m n : Nat} {a c : BitVec m} {b d : BitVec n} : a ++ b = c ++ d ↔ a = c ∧ b = d := by
  constructor
  · intro h
    have left : a = c := by
      rw [← BitVec.extractLsb'_append_eq_left (a := a) (b := b), h, BitVec.extractLsb'_append_eq_left]
    exact ⟨left, by rwa [left, BitVec.append_right_inj] at h⟩
  · rintro ⟨rfl, rfl⟩; rfl

/-- A word is its six fields of format R. -/
theorem fields_append (w : Word32) : fieldOp w ++ fieldRs w ++ fieldRt w ++ fieldRd w ++ fieldSa w ++ fieldFunct w = w := by
  simp only [fieldOp, fieldRs, fieldRt, fieldRd, fieldSa, fieldFunct, BitVec.extractLsb'_append_extractLsb'_eq_extractLsb']
  simp

theorem fieldLow11_eq (w : Word32) : fieldLow11 w = fieldSa w ++ fieldFunct w :=
  (BitVec.extractLsb'_append_extractLsb'_eq_extractLsb' (start₁ := 0) (len₁ := 6) (len₂ := 5) rfl).symm

theorem fieldCo_eq (w : Word32) : fieldCo w = fieldRs w ++ fieldRt w ++ fieldRd w ++ fieldSa w := by
  symm
  simp only [fieldRs, fieldRt, fieldRd, fieldSa, BitVec.extractLsb'_append_extractLsb'_eq_extractLsb']
  rfl

theorem fieldLow11_eq_zero {w : Word32} : fieldLow11 w = 0 ↔ fieldSa w = 0 ∧ fieldFunct w = 0 := by
  rw [fieldLow11_eq, show (0 : BitVec 11) = 0#5 ++ 0#6 from rfl, append_inj_iff]
  rfl

theorem fieldCo_eq_co {w : Word32} :
    fieldCo w = 0x80000 ↔ fieldRs w = 0b10000 ∧ fieldRt w = 0 ∧ fieldRd w = 0 ∧ fieldSa w = 0 := by
  rw [fieldCo_eq, show (0x80000 : BitVec 20) = 0b10000#5 ++ 0#5 ++ 0#5 ++ 0#5 from rfl,
    append_inj_iff, append_inj_iff, append_inj_iff, and_assoc, and_assoc]
  rfl

theorem eq_iff_fields {v w : Word32} :
    v = w ↔ fieldOp v = fieldOp w ∧ fieldRs v = fieldRs w ∧ fieldRt v = fieldRt w ∧ fieldRd v = fieldRd w ∧
      fieldSa v = fieldSa w ∧ fieldFunct v = fieldFunct w := by
  refine ⟨fun h => by simp [h], fun ⟨op, rs, rt, rd, sa, funct⟩ => ?_⟩
  rw [← fields_append v, op, rs, rt, rd, sa, funct, fields_append]

/-- A masked comparison of words is one of each field. -/
theorem masked_iff {w mask value : Word32} :
    w &&& mask = value ↔
      fieldOp w &&& fieldOp mask = fieldOp value ∧ fieldRs w &&& fieldRs mask = fieldRs value ∧
      fieldRt w &&& fieldRt mask = fieldRt value ∧ fieldRd w &&& fieldRd mask = fieldRd value ∧
      fieldSa w &&& fieldSa mask = fieldSa value ∧ fieldFunct w &&& fieldFunct mask = fieldFunct value := by
  rw [eq_iff_fields]
  simp only [fieldOp, fieldRs, fieldRt, fieldRd, fieldSa, fieldFunct, BitVec.extractLsb'_and]

/-! ### The rows by the fields of a word (R143 to R146, R149) -/

/-- The words of the rows of major opcode COP0, by their fields: the moves (R144), then the functions (R145). -/
def Cop0Row (w : Word32) : Prop :=
  ((fieldRs w = 0b00000 ∨ fieldRs w = 0b00001 ∨ fieldRs w = 0b00100 ∨ fieldRs w = 0b00101) ∧ fieldLow11 w = 0) ∨
  (fieldCo w = 0x80000 ∧ (fieldFunct w = 0b000001 ∨ fieldFunct w = 0b000010 ∨ fieldFunct w = 0b000110 ∨
    fieldFunct w = 0b001000 ∨ fieldFunct w = 0b010000 ∨ fieldFunct w = 0b011000))

/-- The words of the rows of major opcode SPECIAL, by their fields (R146). -/
def SpecialRow (w : Word32) : Prop :=
  (fieldRs w = 0 ∧ fieldFunct w = 0b000000) ∨
  (fieldRt w = 0 ∧ fieldRd w = 0 ∧ fieldSa w = 0 ∧ fieldFunct w = 0b001000) ∨
  fieldFunct w = 0b001100 ∨ fieldFunct w = 0b001101 ∨
  (fieldRs w = 0 ∧ fieldRt w = 0 ∧ fieldRd w = 0 ∧ fieldFunct w = 0b001111) ∨
  (fieldSa w = 0 ∧ (fieldFunct w = 0b100001 ∨ fieldFunct w = 0b100100 ∨ fieldFunct w = 0b100101))

/-- The words of all the rows, by their fields, in the order of `opcodeRows` (R143). -/
def FieldsRow (w : Word32) : Prop :=
  (fieldOp w = 0b010000 ∧ Cop0Row w) ∨ (fieldOp w = 0b000000 ∧ SpecialRow w) ∨ fieldOp w = 0b100011 ∨
  fieldOp w = 0b101011 ∨ fieldOp w = 0b101111 ∨ fieldOp w = 0b110000 ∨ fieldOp w = 0b110011 ∨ fieldOp w = 0b111000

theorem isInstr_decodeSpecial {w : Word32} : (∃ i, decodeSpecial w = .instr i) ↔ SpecialRow w := by
  unfold decodeSpecial
  split
  case h_1 funct =>
    by_cases rs : fieldRs w = 0
    · simp only [if_pos rs]
      split_ifs <;> simp [SpecialRow, funct, rs]
    · simp only [if_neg rs]
      simpa [SpecialRow, funct] using rs
  case h_2 funct | h_5 funct | h_6 funct | h_7 funct | h_8 funct => simp [SpecialRow, funct, ite_eq_iff]
  case h_3 funct | h_4 funct => simp [SpecialRow, funct]
  case h_9 => simp_all [SpecialRow]

theorem isInstr_decodeCop0Function {w : Word32} (co : fieldCo w = 0x80000) :
    (∃ i, decodeCop0Function w = .instr i) ↔ Cop0Row w := by
  have rs := fieldRs_of_fieldCo co
  unfold decodeCop0Function
  split
  case h_7 => simp_all [Cop0Row]
  all_goals next funct => simp [Cop0Row, co, rs, funct]

theorem isInstr_decodeCop0Move {w : Word32} (notCo : fieldCo w ≠ 0x80000#20) (low : fieldLow11 w = 0) :
    (∃ i, decodeCop0Move w = .instr i) ↔ Cop0Row w := by
  unfold decodeCop0Move
  split
  case h_5 => simp_all [Cop0Row]
  all_goals next sub => simp [Cop0Row, notCo, low, sub]

theorem isInstr_decodeCop0 {w : Word32} : (∃ i, decodeCop0 w = .instr i) ↔ Cop0Row w := by
  unfold decodeCop0
  split_ifs with co low
  · exact isInstr_decodeCop0Function co
  · exact isInstr_decodeCop0Move co low
  · refine iff_of_false (by simp) ?_
    rintro (⟨-, zero⟩ | ⟨function, -⟩)
    · exact low zero
    · exact co function

theorem isInstr_decode {w : Word32} : (∃ i, decode w = .instr i) ↔ FieldsRow w := by
  unfold decode
  split
  case h_1 op => simp [FieldsRow, op, isInstr_decodeSpecial]
  case h_2 op => simp [FieldsRow, op, isInstr_decodeCop0]
  case h_12 => simp_all [FieldsRow]
  all_goals next op => simp [FieldsRow, op]

/-- Comparing under the masks of the table is comparing the fields that the rows fix. -/
theorem matchesRow_iff {w : Word32} : (∃ row ∈ Machine.opcodeRows, w &&& row.1 = row.2) ↔ FieldsRow w := by
  have and5 (x : BitVec 5) : x &&& 31#5 = x := BitVec.and_allOnes
  have and6 (x : BitVec 6) : x &&& 63#6 = x := BitVec.and_allOnes
  simp only [Machine.opcodeRows, List.mem_cons, List.not_mem_nil, or_false, exists_eq_or_imp, exists_eq_left, masked_iff,
    FieldsRow, Cop0Row, SpecialRow, fieldLow11_eq_zero, fieldCo_eq_co]
  simp [fieldOp, fieldRs, fieldRt, fieldRd, fieldSa, fieldFunct, and5, and6, and_or_left, or_and_right, and_assoc, or_assoc]

/-- Settles O3: the decoder and the rows ask the same of the fields of a word. -/
theorem decodesExactlyTheRows : Obligations.DecodesExactlyTheRows :=
  fun _ => isInstr_decode.trans matchesRow_iff.symm

/-! ### The words of coprocessors 1 to 3 (30_encoding.md R148) -/

/-- Bits 31:28 are `0100` and bits 27:26 the coprocessor number when they make up its major opcode. -/
theorem fieldOp_eq_cop_iff {w : Word32} {z : BitVec 2} :
    fieldOp w = 0b0100#4 ++ z ↔ w >>> 28 = 4 ∧ w.extractLsb' 26 2 = z := by
  have parts : fieldOp w = w.extractLsb' 28 4 ++ w.extractLsb' 26 2 :=
    (BitVec.extractLsb'_append_extractLsb'_eq_extractLsb' (start₁ := 26) (len₁ := 2) (len₂ := 4) rfl).symm
  have top : w.extractLsb' 28 4 = 0b0100#4 ↔ w >>> 28 = 4#32 := by
    simp only [BitVec.toNat_eq, BitVec.extractLsb'_toNat, BitVec.toNat_ushiftRight, Nat.shiftRight_eq_div_pow,
      BitVec.toNat_ofNat, Nat.reducePow]
    omega
  rw [parts, append_inj_iff, top]
  rfl

theorem decodeSpecial_ne_coprocessor (w : Word32) (z : BitVec 2) : decodeSpecial w ≠ .coprocessor z := by
  unfold decodeSpecial
  repeat' split
  all_goals simp

theorem decodeCop0_ne_coprocessor (w : Word32) (z : BitVec 2) : decodeCop0 w ≠ .coprocessor z := by
  unfold decodeCop0 decodeCop0Function decodeCop0Move
  repeat' split
  all_goals simp

theorem decode_eq_coprocessor_iff {w : Word32} {z : BitVec 2} :
    decode w = .coprocessor z ↔ fieldOp w = 0b0100#4 ++ z ∧ z ≠ 0 := by
  constructor
  · intro h
    unfold decode at h
    split at h
    case h_1 => exact absurd h (decodeSpecial_ne_coprocessor w z)
    case h_2 => exact absurd h (decodeCop0_ne_coprocessor w z)
    case h_3 op | h_4 op | h_5 op => cases h; exact ⟨op, by decide⟩
    all_goals cases h
  · rintro ⟨op, nonzero⟩
    have numbers : ∀ z : BitVec 2, z ≠ 0 → z = 1 ∨ z = 2 ∨ z = 3 := by decide
    rcases numbers z nonzero with rfl | rfl | rfl <;> simp [decode, op]

end Sys2Proof
end

section
/-! The statements about fetched words that do not run and about undefined instructions: FetchRefused, CoprocessorUsableCheck,
UndefinedInstructionTraps. -/

namespace Sys2Proof.Machine

/-! ### Fetches that stop (20_memory.md R112, R124, R127) -/

section Fetch
variable {s t : State} {m : Mode} {w : Word32}

theorem step_of_fetched (turn : CpuTurn s t) (noInterrupt : t.takesInterrupt = false) (fetched : t.fetch = .word w) :
    step s = runWord w t := by
  rw [step_of_turn turn]
  simp [cpuStep, noInterrupt, fetched]

/-- A fetch that passes translation and the bus stops where its bytes are not there (R112). -/
theorem fetchIn_of_wordProblem {pa : Nat} {attr : CacheAttr} {x : Stop} (aligned : t.pc.toNat % 4 = 0)
    (ok : t.translate m .fetch t.pc = .ok (pa, attr)) (ibe : t.ibe = false) (problem : wordProblem t.cfg pa = some x) :
    t.fetchIn m = .stop x := by
  simp [State.fetchIn, aligned, ok, ibe, problem]

/-- A fetch of a byte the run stored stops (R124). -/
theorem fetchIn_of_stored {pa a : Nat} {attr : CacheAttr} (aligned : t.pc.toNat % 4 = 0)
    (ok : t.translate m .fetch t.pc = .ok (pa, attr)) (ibe : t.ibe = false) (problem : wordProblem t.cfg pa = none)
    (stored : a ∈ t.written) (lower : pa ≤ a) (upper : a < pa + 4) :
    t.fetchIn m = .stop (.refuse (.fetchOfStoredByte pa)) := by
  have covered : t.written.any (fun a => decide (pa ≤ a) && decide (a < pa + 4)) = true :=
    List.any_eq_true.2 ⟨a, stored, by simp [lower, upper]⟩
  simp [State.fetchIn, aligned, ok, ibe, problem, covered]

end Fetch

/-- A word of no row and of no coprocessor is unknown (R149). -/
theorem decode_eq_unknown {w : Word32} (noRow : ∀ row ∈ opcodeRows, w &&& row.1 ≠ row.2)
    (noCoprocessor : w >>> 28 = 4 → w.extractLsb' 26 2 = 0) : decode w = .unknown := by
  cases d : decode w with
  | instr i =>
    obtain ⟨row, listed, same⟩ := (decodesExactlyTheRows w).1 ⟨i, d⟩
    exact absurd same (noRow row listed)
  | coprocessor z =>
    obtain ⟨op, nonzero⟩ := decode_eq_coprocessor_iff.1 d
    obtain ⟨top, number⟩ := fieldOp_eq_cop_iff.1 op
    exact absurd (number.symm.trans (noCoprocessor top)) nonzero
  | unknown => rfl

/-- Settles O6. -/
theorem fetchRefused : Obligations.FetchRefused := by
  intro s t m turn fetches
  refine ⟨fun w fetched noRow noCoprocessor => ?_, fun pa attr a aligned ok ibe space plain stored lower upper => ?_,
    fun r aligned stop => ?_, fun pa attr aligned ok ibe => ⟨fun beyond => ?_, fun k space hk notPlain => ?_⟩⟩
  · rw [step_of_fetched turn fetches.noInterrupt fetched, runWord, decode_eq_unknown noRow noCoprocessor]
  · exact step_of_fetch_stop turn fetches
      (fetchIn_of_stored aligned ok ibe (wordProblem_none space plain) stored lower upper)
  · exact (step_of_turn turn).trans (cpuStep_of_translate_error fetches aligned stop)
  · exact step_of_fetch_stop turn fetches (fetchIn_of_wordProblem aligned ok ibe (wordProblem_of_beyond beyond))
  · exact step_of_fetch_stop turn fetches (fetchIn_of_wordProblem aligned ok ibe (wordProblem_of_notPlain space hk notPlain))

/-! ### The usable check of coprocessor words (30_encoding.md R148) -/

/-- The usable check of a coprocessor word, where nothing else is in the way. -/
theorem execCoprocessor_eq {z : BitVec 2} {m : Mode} {t : State} (mode : t.mode = some m)
    (windows : ∀ v ∈ t.oldViews, sameIn (effCoprocessor z) t v = true) :
    execCoprocessor z t = finish (effCoprocessor z m t) t :=
  commit_settled mode (by simp [State.readsLoaded]; split <;> simp) windows

/-- Settles O7. -/
theorem coprocessorUsableCheck : Obligations.CoprocessorUsableCheck := by
  intro s t m w z turn mode noInterrupt fetched cop number nonzero windows
  have decoded : decode w = .coprocessor z :=
    decode_eq_coprocessor_iff.2 ⟨fieldOp_eq_cop_iff.2 ⟨cop, number.symm⟩, nonzero⟩
  rw [step_of_fetched turn noInterrupt fetched, runWord, decoded]
  simp only [execCoprocessor_eq mode windows]
  refine ⟨fun unusable => ⟨enter (.cpu z) .none t, ?_, entersCpU_enter z t⟩, fun usable => ?_⟩
  · rw [effCoprocessor, if_pos unusable]
    rfl
  · rw [effCoprocessor, if_neg (by simp [usable])]
    split <;> rfl

/-! ### Instructions the other style has -/

/-- RFE on the R4000 style raises RI, or CpU where CP0 is not usable (log 12). -/
theorem effect_rfe_of_r4000 {m : Mode} {s : State} (style : s.cfg.style = .r4000) :
    effect .rfe m s = .raise .ri ∨ (s.cp0Usable m = false ∧ effect .rfe m s = .raise (.cpu 0)) := by
  cases usable : s.cp0Usable m with
  | true => simp [effect, effRfe, style, usable]
  | false =>
    simp only [effect, effRfe, style, usable, true_and]
    split
    · exact .inl rfl
    · exact .inr rfl

/-- ERET and SYNC on the R3000 style raise RI whatever the mode. -/
theorem effect_eret_sync_of_r3000 {i : Instr} {stype : BitVec 5} {m : Mode} {s : State} (style : s.cfg.style = .r3000)
    (forms : i = .eret ∨ i = .sync stype) : effect i m s = .raise .ri := by
  rcases forms with rfl | rfl
  · simp [effect, effEret, style]
  · simp [effect, effSync, style]

/-- Settles O38. -/
theorem undefinedInstructionTraps : Obligations.UndefinedInstructionTraps := by
  intro stype m i s runs
  refine ⟨fun style forms => ?_, fun style rfe => ?_⟩
  · have reserved := effect_eret_sync_of_r3000 (m := m) style (by simpa using forms)
    exact ⟨_, exec_raise runs reserved, entersGeneral_enter .ri s rfl⟩
  · subst rfe
    rcases effect_rfe_of_r4000 style with reserved | ⟨unusable, cpu⟩
    · exact ⟨_, exec_raise runs reserved, .inl (entersGeneral_enter .ri s rfl)⟩
    · obtain ⟨user, cu⟩ : m ≠ .kernel ∧ srCu s.cp0.sr 0 = false := by simpa [State.cp0Usable] using unusable
      exact ⟨_, exec_raise runs cpu, .inr ⟨user, cu, entersCpU_enter 0 s⟩⟩

end Sys2Proof.Machine
end

section
/-! The statements about the moves of CP0 registers: Mfc0Result, Dmfc0Result, Mtc0Timer, Mtc0ReturnAddress, Dmtc0Result,
DoublewordMoveTraps; and the example words: SpecWordsDecode. -/

namespace Sys2Proof.Machine

/-! ### Moves from a CP0 register (40_cp0_move.md R171, R173) -/

/-- Completing with a write of a general register that is left out for register 0 (10_state.md R21): mfc0, dmfc0, lw. -/
theorem writesGpr_retire_ite {s : State} {u : Update} {rt : RegNum} {v x : Word}
    (g : u.gpr = if rt = 0 then none else some (rt, v)) (n : s.cfg.norm v = x) (c : u.cp0 = none) (m : u.store = none)
    (f : u.flow = .next) (l : u.breakLink = false) : WritesGpr rt x s (s.retire u) := by
  by_cases zero : rt = 0
  · subst zero
    exact writesGpr_retire_zero x g c m f l
  · exact writesGpr_retire (g.trans (if_neg zero)) n c m f l

/-- The value a move from CP0 register `r` gives: all of a wide register in a doubleword move, else the sign-extended
low word (log 17). -/
def movedFrom (s : State) (r : Cp0Reg) (double : Bool) : Word :=
  if double && cp0IsDouble s.cfg r then s.cp0Read r else s.cfg.sext (lo32 (s.cp0Read r))

theorem moveFrom_of_lookup {s : State} {n : RegNum} {r : Cp0Reg} (lookup : cp0Lookup s.cfg n = .ok r) (rt : RegNum)
    (double : Bool) :
    moveFrom rt n double s =
      .done { gpr := if rt = 0 then none else some (rt, movedFrom s r double)
              loaded := if double || rt == 0 then none else some rt } := by
  simp [moveFrom, lookup, movedFrom]

/-- Settles O26. -/
theorem mfc0Result : Obligations.Mfc0Result := by
  intro rt n v wide m s row runs space usable
  obtain ⟨r, lookup, value, -⟩ := lookup_of_cp0Values row
  have eff : effect (.mfc0 rt n) m s = moveFrom rt n false s := if_pos (cp0Usable_iff.2 usable)
  rw [moveFrom_of_lookup lookup] at eff
  refine ⟨_, exec_done runs eff (wraps_next space), writesGpr_retire_ite rfl ?_ rfl rfl rfl rfl, ?_⟩
  · simp [movedFrom, value]
  · by_cases zero : rt = 0#5 <;> simp [State.retire, zero]

/-- Settles O27. -/
theorem dmfc0Result : Obligations.Dmfc0Result := by
  intro rt n v wide m s row runs space x64 usable allowed
  obtain ⟨r, lookup, value, width⟩ := lookup_of_cp0Values row
  have eff : effect (.dmfc0 rt n) m s = moveFrom rt n true s :=
    doubleChecked_allowed x64 (cp0Usable_iff.2 usable) allowed
  rw [moveFrom_of_lookup lookup] at eff
  refine ⟨_, exec_done runs eff (wraps_next space), writesGpr_retire_ite rfl ?_ rfl rfl rfl rfl⟩
  simp [movedFrom, value, width x64, x64, Config.sext]

/-! ### MTC0 of the timer's registers (10_state.md R83, R84, 60_exceptions.md R266) -/

/-- A write of Count leaves the timer request as it was, or-ed with a free bit where the value equals Compare
(log 19). -/
theorem applyCp0Write_of_count_request {s : State} {v : Word} {d : Bool} {w : Cp0Write}
    (h : cp0Write s .count v d = .ok w) :
    applyCp0Write s w =
      { s.cp0 with
        count := lo32 v
        timerPending :=
          s.cp0.timerPending || (Config.draw s.draws .countWrite 1 == 1 && lo32 v == s.cp0.compare) } := by
  rw [applyCp0Write_of_count h]
  cases h
  by_cases equal : lo32 v = s.cp0.compare <;> simp [equal]

/-- Settles O30. -/
theorem mtc0Timer : Obligations.Mtc0Timer := by
  intro rt m s style space usable
  refine ⟨fun runs => ?_, fun runs => ?_⟩
  · have lookup : cp0Lookup s.cfg 11 = .ok .compare := by simp [cp0Lookup, style]
    exact exec_mtc0_leavesCp0 runs space usable lookup rfl applyCp0Write_of_compare
  · have lookup : cp0Lookup s.cfg 9 = .ok .count := by simp [cp0Lookup, style]
    obtain ⟨t, next, advances, leaves⟩ :=
      exec_mtc0_leavesCp0 runs space usable lookup rfl applyCp0Write_of_count_request
    exact ⟨t, _, next, advances, leaves⟩

/-! ### Moves to EPC and ErrorEPC (10_state.md R35, R81, 40_cp0_move.md R170) -/

theorem cp0Write_epc_of_r4000 {s : State} (style : s.cfg.style = .r4000) (v : Word) (double : Bool) :
    cp0Write s .epc v double = .ok (wideWrite s .epc v double) := by
  simp [cp0Write, style]

theorem cp0Write_epc_of_r3000 {s : State} (style : s.cfg.style = .r3000) (v : Word) (double : Bool) :
    cp0Write s .epc v double = .error .epcWriteOnR3000 := by
  simp [cp0Write, style]

theorem cp0Lookup_errorEpc {c : Config} (style : c.style = .r4000) : cp0Lookup c 30 = .ok .errorEpc := by
  simp [cp0Lookup, style]

/-- The low word of a return address is the one written, whatever its high half is (log 18). -/
theorem lo32_wideWrite (s : State) (r : Cp0Reg) (v : Word) (double : Bool) :
    lo32 (wideWrite s r v double).value = lo32 v := by
  have append (a b : Word32) : lo32 (a ++ b) = b := BitVec.setWidth_append_eq_right
  cases xlen : s.cfg.xlen <;> cases double <;> simp [wideWrite, xlen, append]

/-- A doubleword write of a return address writes all of it (R170). -/
theorem wideWrite_double {s : State} (x64 : s.cfg.xlen = .x64) (r : Cp0Reg) (v : Word) :
    (wideWrite s r v true).value = v := by
  simp [wideWrite, x64]

/-- Settles O31. -/
theorem mtc0ReturnAddress : Obligations.Mtc0ReturnAddress := by
  intro rt m s usable
  have low (r : Cp0Reg) (v : Word) : lo32 (s.cfg.norm (wideWrite s r v false).value) = lo32 v := by
    rw [lo32_norm, lo32_wideWrite]
  refine ⟨fun style space runs => ?_, fun style space runs => ?_, fun style runs => ?_⟩
  · obtain ⟨t, next, advances, leaves⟩ :=
      exec_mtc0_leavesCp0 runs space usable rfl (cp0Write_epc_of_r4000 style _ _) applyCp0Write_of_epc
    exact ⟨t, _, next, advances, leaves, low _ _, norm_norm _ _⟩
  · obtain ⟨t, next, advances, leaves⟩ :=
      exec_mtc0_leavesCp0 runs space usable (cp0Lookup_errorEpc style) rfl applyCp0Write_of_errorEpc
    exact ⟨t, _, next, advances, leaves, low _ _, norm_norm _ _⟩
  · exact exec_mtc0_refused runs usable rfl (cp0Write_epc_of_r3000 style _ _)

/-! ### DMTC0 (R174) -/

/-- A register but EPC and ErrorEPC is written alike by both moves (R170). -/
theorem cp0Write_double {r : Cp0Reg} (notEpc : r ≠ .epc) (notErrorEpc : r ≠ .errorEpc) (s : State) (v : Word) :
    cp0Write s r v true = cp0Write s r v false := by
  cases r with
  | epc => exact absurd rfl notEpc
  | errorEpc => exact absurd rfl notErrorEpc
  | badVaddr | count | compare | sr | cause | prid | config | watchLo | watchHi => rfl

/-- Only the numbers 14 and 30 name a return address. -/
theorem eq_14_or_30_of_lookup {c : Config} {n : RegNum} {r : Cp0Reg} (lookup : cp0Lookup c n = .ok r)
    (wide : r = .epc ∨ r = .errorEpc) : n = 14 ∨ n = 30 := by
  revert lookup
  unfold cp0Lookup
  rcases wide with rfl | rfl <;> cases c.style <;> cases c.hasTlb <;> simp <;> split <;> simp

theorem moveTo_double {n : RegNum} (not14 : n ≠ 14) (not30 : n ≠ 30) (rt : RegNum) (s : State) :
    moveTo rt n true s = moveTo rt n false s := by
  cases lookup : cp0Lookup s.cfg n with
  | error x => simp [moveTo, lookup]
  | ok r =>
    have narrow : ¬ (r = .epc ∨ r = .errorEpc) := fun wide => (eq_14_or_30_of_lookup lookup wide).elim not14 not30
    have alike := cp0Write_double (fun e => narrow (.inl e)) (fun e => narrow (.inr e)) s (s.readGpr rt)
    simp only [moveTo, lookup, alike]

/-- DMTC0 whose write is accepted completes, and leaves the CP0 file after the write. -/
theorem exec_dmtc0_leavesCp0 {rt n : RegNum} {m : Mode} {s : State} {r : Cp0Reg} {w : Cp0Write} {f : Cp0File}
    (runs : Runs (.dmtc0 rt n) m s) (space : StaysInSpace s) (eff : effect (.dmtc0 rt n) m s = moveTo rt n true s)
    (lookup : cp0Lookup s.cfg n = .ok r) (write : cp0Write s r (s.readGpr rt) true = .ok w)
    (file : applyCp0Write s w = f) :
    ∃ t, exec (.dmtc0 rt n) s = .next t ∧ Advances s t ∧ LeavesCp0 f s t := by
  have done : effect (.dmtc0 rt n) m s = .done { cp0 := some w } := by simp [eff, moveTo, lookup, write]
  exact ⟨_, exec_done runs done (wraps_next space), advances_retire rfl,
    leavesCp0_retire rfl rfl ((retire_cp0_some s _ rfl rfl).trans file)⟩

/-- Settles O34. -/
theorem dmtc0Result : Obligations.Dmtc0Result := by
  intro rt n m s style x64 usable allowed runs
  have usable := cp0Usable_iff.2 usable
  have eff : effect (.dmtc0 rt n) m s = moveTo rt n true s := doubleChecked_allowed x64 usable allowed
  refine ⟨fun number space => ?_, fun number space => ?_, fun number single => ?_⟩
  · subst number
    have write := cp0Write_epc_of_r4000 style (s.readGpr rt) true
    refine exec_dmtc0_leavesCp0 runs space eff rfl write ((applyCp0Write_of_epc write).trans ?_)
    rw [wideWrite_double x64, norm_x64 x64]
  · subst number
    refine exec_dmtc0_leavesCp0 runs space eff (cp0Lookup_errorEpc style) rfl ((applyCp0Write_of_errorEpc rfl).trans ?_)
    rw [wideWrite_double x64, norm_x64 x64]
  · have not14 : n ≠ 14 := by rintro rfl; revert number; decide
    have not30 : n ≠ 30 := by rintro rfl; revert number; decide
    have singleEff : effect (.mtc0 rt n) m s = moveTo rt n false s := if_pos usable
    rw [exec_of_runs runs, exec_of_runs single, eff, singleEff, moveTo_double not14 not30]

/-! ### Doubleword moves that trap (R173, R174, 30_encoding.md R149) -/

theorem doubleChecked_x32 {m : Mode} {s : State} (body : Effect) (x32 : s.cfg.xlen = .x32) :
    doubleChecked m s body = .raise .ri := if_pos x32

/-- Where 64-bit instructions are not allowed a doubleword move raises RI, or CpU where CP0 is not usable (log 12). -/
theorem doubleChecked_notAllowed {m : Mode} {s : State} (body : Effect) (x64 : s.cfg.xlen = .x64)
    (notAllowed : s.dw64Allowed m = false) :
    doubleChecked m s body = .raise .ri ∨ (s.cp0Usable m = false ∧ doubleChecked m s body = .raise (.cpu 0)) := by
  cases usable : s.cp0Usable m with
  | true => simp [doubleChecked, x64, usable, notAllowed]
  | false =>
    simp only [doubleChecked, x64, usable, notAllowed, reduceCtorEq, if_false, true_and]
    split
    · exact .inl rfl
    · exact .inr rfl

theorem effect_doublewordMove {i : Instr} {rt rd : RegNum} (form : i ∈ [.dmfc0 rt rd, .dmtc0 rt rd]) (m : Mode)
    (s : State) : ∃ body, effect i m s = doubleChecked m s body := by
  simp only [List.mem_cons, List.not_mem_nil, or_false] at form
  rcases form with rfl | rfl
  · exact ⟨_, rfl⟩
  · exact ⟨_, rfl⟩

/-- Settles O37. -/
theorem doublewordMoveTraps : Obligations.DoublewordMoveTraps := by
  intro rt rd m i s form runs
  obtain ⟨body, eff⟩ := effect_doublewordMove form m s
  refine ⟨fun x32 => ?_, fun x64 bits => ?_⟩
  · exact ⟨_, exec_raise runs (eff.trans (doubleChecked_x32 body x32)), entersGeneral_enter .ri s rfl⟩
  · have notAllowed : s.dw64Allowed m = false := by
      rcases bits with ⟨rfl, ux⟩ | ⟨rfl, sx⟩
      · exact ux
      · exact sx
    rcases doubleChecked_notAllowed body x64 notAllowed with reserved | ⟨unusable, cpu⟩
    · exact ⟨_, exec_raise runs (eff.trans reserved), .inl (entersGeneral_enter .ri s rfl)⟩
    · obtain ⟨-, cu⟩ : m ≠ .kernel ∧ srCu s.cp0.sr 0 = false := by simpa [State.cp0Usable] using unusable
      exact ⟨_, exec_raise runs (eff.trans cpu), .inr ⟨cu, entersCpU_enter 0 s⟩⟩

/-! ### The example words of the spec -/

/-- The word of a well-formed instruction decodes to it. -/
theorem decode_of_encode_eq {i : Instr} {w : Word32} (wf : i.wellFormed = true) (word : encode i = w) :
    decode w = .instr i := word ▸ decodeOfEncode i wf

/-- Settles O4: each word is the word of the instruction printed beside it. -/
theorem specWordsDecode : Obligations.SpecWordsDecode :=
  ⟨decode_of_encode_eq rfl rfl, decode_of_encode_eq rfl rfl, decode_of_encode_eq rfl rfl, decode_of_encode_eq rfl rfl,
   decode_of_encode_eq rfl rfl, decode_of_encode_eq rfl rfl, decode_of_encode_eq rfl rfl, decode_of_encode_eq rfl rfl,
   decode_of_encode_eq rfl rfl, decode_of_encode_eq rfl rfl⟩

end Sys2Proof.Machine
end

section
/-! The statements about the instructions of exception return: RfeResult, EretResult, JrResult. -/

namespace Sys2Proof.Machine

/-! ### RFE (41_exception_return.md R180) -/

/-- The write of the pop, as R180 has it: bits 3:0 are the old bits 5:2, the other bits stay. -/
theorem putBits_popKuIe (sr : Word32) :
    putBits sr 0xF ((sr >>> 2) &&& 0xF) = (sr &&& 0xFFFFFFF0) ||| ((sr >>> 2) &&& 0xF) := by
  rw [putBits, BitVec.and_assoc, BitVec.and_self]
  rfl

/-- The whole CP0 file after an rfe that completes: SR is popped and nothing else is written. -/
theorem cp0_retire_popKuIe (s : State) :
    (s.retire (popKuIe s)).cp0 = { s.cp0 with sr := (s.cp0.sr &&& 0xFFFFFFF0) ||| ((s.cp0.sr >>> 2) &&& 0xF) } := by
  rw [← putBits_popKuIe, retire_cp0_some s _ rfl rfl, applyCp0Write_sr rfl rfl, lo32_zext64]
  rfl

/-- Settles O39. -/
theorem rfeResult : Obligations.RfeResult := by
  intro m s style runs space usable
  have pops : effect .rfe m s = .done (popKuIe s) := by
    simp [effect, effRfe, style, cp0Usable_iff.2 usable]
  exact ⟨_, exec_done runs pops (wraps_next space), advances_retire rfl,
    leavesCp0_retire rfl rfl (cp0_retire_popKuIe s)⟩

/-! ### ERET (R181) -/

section Eret
variable {m : Mode} {s : State}

theorem effect_eret_of_usable (style : s.cfg.style = .r4000) (usable : s.cp0Usable m = true) :
    effect .eret m s = if s.inDelay then .refuse .eretInDelaySlot else .done (exceptionReturn s) := by
  simp [effect, effEret, style, usable]

/-- The write of zeros clears the bits of the mask. -/
theorem putBits_zero (sr mask : Word32) : putBits sr mask 0 = sr &&& ~~~mask := by simp [putBits]

/-- What completing leaves in the CP0 file when it breaks the load-linked monitor. -/
theorem retire_cp0_breakLink {u : Update} {w : Cp0Write} (write : u.cp0 = some w) (breaks : u.breakLink = true) :
    (s.retire u).cp0 = { applyCp0Write s w with llBit := false } := by
  simp [State.retire, write, breaks]

/-- Completing with the clearing of bits of SR and the break of the load-linked monitor, and nothing else. -/
theorem leavesCp0_retire_clear {u : Update} {mask : Word} {bits : Word32} (g : u.gpr = none) (noStore : u.store = none)
    (write : u.cp0 = some { reg := .sr, mask := mask, value := 0 }) (low : lo32 mask = bits) (breaks : u.breakLink = true) :
    LeavesCp0 { s.cp0 with sr := s.cp0.sr &&& ~~~bits, llBit := false } s (s.retire u) := by
  refine leavesCp0_retire g noStore ?_
  rw [retire_cp0_breakLink write breaks, applyCp0Write_sr rfl rfl, low, ← putBits_zero]
  rfl

/-- With ERL = 1 the return is to ErrorEPC and clears ERL. -/
theorem exceptionReturn_of_erl (erl : srErl s.cp0.sr = true) :
    exceptionReturn s =
      { cp0 := some { reg := .sr, mask := 0x4, value := 0 }, flow := .jump s.cp0.errorEpc, breakLink := true } :=
  if_pos erl

/-- With ERL = 0 the return is to EPC and clears EXL. -/
theorem exceptionReturn_of_not_erl (erl : srErl s.cp0.sr = false) :
    exceptionReturn s =
      { cp0 := some { reg := .sr, mask := 0x2, value := 0 }, flow := .jump s.cp0.epc, breakLink := true } := by
  simp [exceptionReturn, erl]

/-- Either return is a jump. -/
theorem exceptionReturn_flow (s : State) : ∃ target, (exceptionReturn s).flow = .jump target := by
  cases erl : srErl s.cp0.sr with
  | true => exact ⟨_, congrArg Update.flow (exceptionReturn_of_erl erl)⟩
  | false => exact ⟨_, congrArg Update.flow (exceptionReturn_of_not_erl erl)⟩

end Eret

/-- Settles O40. -/
theorem eretResult : Obligations.EretResult := by
  intro m s style runs usable
  have eff := effect_eret_of_usable style (cp0Usable_iff.2 usable)
  refine ⟨fun slot => ?_, fun slot => exec_refuse runs (eff.trans (if_pos slot))⟩
  obtain ⟨target, jumps⟩ := exceptionReturn_flow s
  have noWrap : s.wraps (exceptionReturn s).flow = false := jumps ▸ wraps_jump s target
  have done : effect .eret m s = .done (exceptionReturn s) := by rw [eff, slot]; rfl
  obtain ⟨pc, npc, noSlot⟩ := retire_jump s _ jumps
  refine ⟨_, exec_done runs done noWrap, by rw [npc, pc], noSlot, fun erl => ?_, fun erl => ?_⟩
  · rw [exceptionReturn_of_erl erl]
    exact ⟨rfl, leavesCp0_retire_clear rfl rfl rfl rfl rfl⟩
  · rw [exceptionReturn_of_not_erl erl]
    exact ⟨rfl, leavesCp0_retire_clear rfl rfl rfl rfl rfl⟩

/-! ### JR (R182) -/

/-- Settles O41. -/
theorem jrResult : Obligations.JrResult := by
  intro rs m s runs
  refine ⟨fun slot space => ?_, fun slot => exec_refuse runs (if_pos slot)⟩
  have jumps : effect (.jr rs) m s = .done { flow := .delayed (s.readGpr rs) } := by simp [effect, effJr, slot]
  obtain ⟨pc, npc, delay⟩ := retire_delayed s { flow := .delayed (s.readGpr rs) } rfl
  exact ⟨_, exec_done runs jumps (wraps_delayed _ space), pc, npc, delay,
    leavesCp0_retire rfl rfl (retire_cp0_none s _ rfl rfl)⟩

end Sys2Proof.Machine
end

section
/-! The statement about SYSCALL and BREAK: TrapResult. -/

namespace Sys2Proof.Machine

/-- An instruction whose effect is an exception other than a refill-type miss enters it through the general entry point, in
kernel mode (60_exceptions.md R240, R241, R245). -/
theorem exec_raise_entersGeneral {i : Instr} {m : Mode} {s : State} {e : Exc} (runs : Runs i m s)
    (raises : effect i m s = .raise e) (noRefill : e.refillVa = none) :
    ∃ t, exec i s = .next t ∧ EntersGeneral e.code s t ∧ t.mode = some .kernel :=
  ⟨enter e .none s, exec_raise runs raises, entersGeneral_enter e s noRefill, mode_enter e .none s⟩

theorem effect_syscall (code : BitVec 20) (m : Mode) (s : State) : effect (.syscall code) m s = .raise .syscall := rfl

theorem effect_brk (code : BitVec 20) (m : Mode) (s : State) : effect (.brk code) m s = .raise .bp := rfl

/-- Settles O42: neither SYSCALL nor BREAK looks at its code field, the mode or the state before it raises. -/
theorem trapResult : Obligations.TrapResult := fun code m s =>
  ⟨fun runs => exec_raise_entersGeneral runs (effect_syscall code m s) rfl,
    fun runs => exec_raise_entersGeneral runs (effect_brk code m s) rfl⟩

end Sys2Proof.Machine
end

section
/-! The statement about NOP, SSNOP and SYNC: NoOperationResult. -/

namespace Sys2Proof.Machine

/-- Completing with the empty update leaves everything but the program counter. -/
theorem leavesCp0_retire_empty (s : State) : LeavesCp0 s.cp0 s (s.retire {}) :=
  leavesCp0_retire rfl rfl (retire_cp0_none s _ rfl rfl)

/-- SYNC on the R4000 style has nothing to do, whatever its stype (43_nop_sync.md R198, D13). -/
theorem effect_sync_of_r4000 {s : State} (style : s.cfg.style = .r4000) (stype : BitVec 5) (m : Mode) :
    effect (.sync stype) m s = .done {} := by
  simp [effect, effSync, style]

/-- Settles O14: each of the three completes with the empty update. -/
theorem noOperationResult : Obligations.NoOperationResult := by
  intro i stype m s forms runs space
  have nothing : effect i m s = .done {} := by
    rcases forms with rfl | rfl | ⟨rfl, style⟩
    · rfl
    · rfl
    · exact effect_sync_of_r4000 style stype m
  exact ⟨_, exec_done runs nothing (wraps_next space), leavesCp0_retire_empty s, advances_retire rfl⟩

end Sys2Proof.Machine
end

section
/-! The statements about the support instructions and the deferred ones: RegisterResult, AdduResult, LwResult, SwResult,
RefusedInstructions. -/

namespace Sys2Proof.Machine

/-! ### Instructions that write one general register (44_support_and_deferred.md R201 to R203, 43_nop_sync.md R195) -/

/-- An instruction whose update is the write of one general register writes it and changes nothing else. -/
theorem exec_writesGpr {i : Instr} {m : Mode} {s : State} {rd : RegNum} {v : Word} (runs : Runs i m s)
    (space : StaysInSpace s) (done : effect i m s = .done { gpr := some (rd, v) }) :
    ∃ t, exec i s = .next t ∧ WritesGpr rd (s.cfg.norm v) s t :=
  ⟨_, exec_done runs done (wraps_next space), writesGpr_retire rfl rfl rfl rfl rfl rfl⟩

/-- Settles O12: each of the three has the write of rd as its whole update. -/
theorem registerResult : Obligations.RegisterResult := by
  intro rs rt rd sa m s space
  refine ⟨fun runs => exec_writesGpr runs space rfl, fun runs => exec_writesGpr runs space rfl, fun runs => ?_⟩
  have shifted := exec_writesGpr (v := s.cfg.sext (lo32 (s.readGpr rt) <<< sa.toNat)) runs space rfl
  rwa [norm_sext] at shifted

/-- With `XLEN = 32` every value is a word operand (R203). -/
theorem isWordOperand_iff {c : Config} {v : Word} :
    isWordOperand c v = true ↔ (c.xlen = .x64 → v = (lo32 v).signExtend 64) := by
  cases xlen : c.xlen <;> simp [isWordOperand, xlen]

theorem wordOperands_iff {c : Config} {v w : Word} :
    (isWordOperand c v && isWordOperand c w) = true ↔
      (c.xlen = .x64 → v = (lo32 v).signExtend 64 ∧ w = (lo32 w).signExtend 64) := by
  rw [Bool.and_eq_true, isWordOperand_iff, isWordOperand_iff, ← imp_and]

/-- Settles O13: the check of the operands decides between the write and the refusal; the sum raises nothing. -/
theorem adduResult : Obligations.AdduResult := by
  intro rs rt rd m s runs
  refine ⟨fun words space => ?_, fun x64 noWord => exec_refuse runs (if_neg fun words => ?_)⟩
  · have added := exec_writesGpr runs space (if_pos (wordOperands_iff.2 words))
    rwa [norm_sext] at added
  · obtain ⟨wordRs, wordRt⟩ := wordOperands_iff.1 words x64
    exact noWord.elim (· wordRs) (· wordRt)

/-! ### LW and SW (R204, R205) -/

/-- Completing a load: register `rt` is written, or nothing where it is register 0. -/
theorem writesGpr_retire_load (s : State) (rt : RegNum) (w : Word32) :
    WritesGpr rt (s.cfg.sext w) s (s.retire
      { gpr := if rt = 0 then none else some (rt, s.cfg.sext w), loaded := if rt == 0 then none else some rt }) := by
  by_cases zero : rt = 0
  · subst zero
    exact writesGpr_retire_zero _ rfl rfl rfl rfl rfl
  · exact writesGpr_retire (if_neg zero) (norm_sext _ _) rfl rfl rfl rfl

/-- Settles O15: the word is the one read in the byte order of the mode, whose bytes are those of memory. -/
theorem lwResult : Obligations.LwResult := by
  intro base rt offset m pa s runs space access
  refine ⟨_, s.readWord (bigAccess m s) pa, exec_done runs (effect_lw_of_accessible access) (wraps_next space),
    fun k hk => (byteOf_readWord s _ pa hk).symm, writesGpr_retire_load s rt _, ?_⟩
  rw [retire_loadReg]
  cases s.cfg.loadDelay <;> by_cases zero : rt = 0 <;> simp [zero]

section StoreWord
variable {s : State} {u : Update} {big : Bool} {w : Word32} {pa : Nat} (store : u.store = some (pa, wordBytes big w))
include store

/-- After the store of a word its four addresses hold its bytes. -/
theorem readByte_retire_stored {k : Nat} (hk : k < 4) : (s.retire u).readByte (pa + k) = byteOf big w k := by
  rw [← wordBytes_getElem big w hk]
  exact readByte_of_find? (by rw [retire_mem_some s u store]; exact find?_putAll_inside s.mem pa _ (by simpa using hk))

/-- The store of a word leaves every byte outside its four addresses alone. -/
theorem readByte_retire_outside {a : Nat} (outside : a < pa ∨ pa + 4 ≤ a) : (s.retire u).readByte a = s.readByte a :=
  readByte_congr (by rw [retire_mem_some s u store]; exact find?_putAll_outside s.mem pa _ (by simpa using outside)) rfl

/-- The four addresses of a stored word count as stored. -/
theorem mem_written_retire_stored {a : Nat} :
    a ∈ (s.retire u).written ↔ a ∈ s.written ∨ (pa ≤ a ∧ a < pa + 4) := by
  rw [retire_written_some s u store, mem_addAddresses, wordBytes_length, or_comm]

end StoreWord

/-- Settles O16: the update of a store that goes through is the four bytes and nothing else. -/
theorem swResult : Obligations.SwResult := by
  intro base rt offset m pa s runs space access
  exact ⟨_, exec_done runs (effect_sw_of_accessible access) (wraps_next space),
    fun k hk => readByte_retire_stored rfl hk, fun a outside => readByte_retire_outside rfl outside,
    fun a => mem_written_retire_stored rfl, readGpr_congr (retire_gprs_none s _ rfl), retire_cp0_none s _ rfl rfl,
    sameWorld_retire s _, advances_retire rfl⟩

/-! ### Instructions the spec does not specify (R208 to R215) -/

/-- An instruction that every mode refuses gives no next state. -/
theorem exec_ne_next_of_refuse {i : Instr} {s : State} {r : Refusal} (refuses : ∀ m, effect i m s = .refuse r) (t : State) :
    exec i s ≠ .next t := by
  intro next
  obtain ⟨m, -, ⟨u, done, -⟩ | ⟨e, n, raise, -⟩⟩ := exec_next next
  · exact absurd ((refuses m).symm.trans done) (by simp [Effect.refuse])
  · exact absurd ((refuses m).symm.trans raise) (by simp [Effect.refuse])

/-- The four TLB instructions have one effect (R209 to R212). -/
theorem effect_tlbInstruction {i : Instr} (form : i ∈ [.tlbr, .tlbwi, .tlbwr, .tlbp]) (m : Mode) (s : State) :
    effect i m s = tlbInstruction m s := by
  simp only [List.mem_cons, List.not_mem_nil, or_false] at form
  rcases form with rfl | rfl | rfl | rfl <;> rfl

section Cache
variable (base : RegNum) (op : BitVec 5) (offset : BitVec 16) {m : Mode} {s : State}

theorem effect_cache_of_r3000 (style : s.cfg.style = .r3000) :
    effect (.cache base op offset) m s = .refuse .cacheOnR3000 := by
  simp [effect, effCache, style]

theorem effect_cache_of_usable (style : s.cfg.style = .r4000) (usable : s.cp0Usable m = true) :
    effect (.cache base op offset) m s = .refuse .cacheNotSpecified := by
  simp [effect, effCache, style, usable]

end Cache

/-- Settles O46: PREF, LL and SC look at neither mode nor state; the others refuse once CP0 is usable. -/
theorem refusedInstructions : Obligations.RefusedInstructions := by
  intro base rt op offset m i s
  refine ⟨fun form => ?_, fun runs => ⟨?_, ?_, ?_, fun form usable => ?_, ?_, ?_⟩⟩
  · simp only [List.mem_cons, List.not_mem_nil, or_false] at form
    rcases form with rfl | rfl | rfl
    · exact exec_ne_next_of_refuse (r := .prefNotSpecified) fun _ => rfl
    · exact exec_ne_next_of_refuse (r := .llNotSpecified) fun _ => rfl
    · exact exec_ne_next_of_refuse (r := .scNotSpecified) fun _ => rfl
  · rintro rfl; exact exec_refuse runs rfl
  · rintro rfl; exact exec_refuse runs rfl
  · rintro rfl; exact exec_refuse runs rfl
  · exact exec_refuse runs ((effect_tlbInstruction form m s).trans (if_pos (cp0Usable_iff.2 usable)))
  · rintro rfl style; exact exec_refuse runs (effect_cache_of_r3000 base op offset style)
  · rintro rfl style usable
    exact exec_refuse runs (effect_cache_of_usable base op offset style (cp0Usable_iff.2 usable))

end Sys2Proof.Machine
end

section
/-! The statements about interrupts: InterruptLevels, InterruptTaken, InterruptBlocked. -/

namespace Sys2Proof.Machine

/-! ### The requests (60_exceptions.md R250) -/

/-- Cause.IP as read is the live requests. -/
theorem causeIp_liveCause (s : State) : causeIp s.liveCause = s.ip := by
  apply BitVec.eq_of_getLsbD_eq
  intro i hi
  simp only [causeIp, State.liveCause, BitVec.getLsbD_extractLsb', getLsbD_putBits, hi, decide_true, Bool.true_and]
  interval_cases i <;> simp

/-- IP[1:0] are the stored bits. -/
theorem ip_software (s : State) {k : Nat} (hk : k < 2) : s.ip.getLsbD k = s.cp0.cause.getLsbD (8 + k) := by
  rw [State.ip, BitVec.getLsbD_append, if_pos hk, BitVec.getLsbD_extractLsb']
  simp [hk]

/-- IP[6:2] are inputs 4 to 0. -/
theorem ip_input (s : State) {k : Nat} (hk : k < 5) : s.ip.getLsbD (k + 2) = s.extInt.getLsbD k := by
  rw [State.ip, BitVec.getLsbD_append, if_neg (by omega), Nat.add_sub_cancel, BitVec.getLsbD_append, if_pos hk,
    BitVec.getLsbD_extractLsb']
  simp [hk]

/-- IP[7] is the timer or input 5. -/
theorem ip_highest (s : State) : s.ip.getLsbD 7 = s.ip7 := by
  rw [State.ip, BitVec.getLsbD_append, BitVec.getLsbD_append]
  simp

/-- Settles O9. -/
theorem interruptLevels : Obligations.InterruptLevels := by
  intro s
  rw [causeIp_liveCause]
  exact ⟨fun k => ip_input s, ip_highest s, fun k => ip_software s, putBits_and_of_disjoint _ _ (by decide)⟩

/-! ### The interrupt condition (R251) -/

/-- `IntPending`: the global enable of the style holds, and some request is not masked. -/
theorem intPending_iff {s : State} :
    s.intPending = true ↔
      (s.cfg.style = .r3000 → srIec s.cp0.sr = true) ∧
      (s.cfg.style = .r4000 → srIe s.cp0.sr = true ∧ srExl s.cp0.sr = false ∧ srErl s.cp0.sr = false) ∧
      causeIp s.liveCause &&& srIm s.cp0.sr ≠ 0 := by
  rw [causeIp_liveCause]
  cases style : s.cfg.style <;> simp [State.intPending, style, and_assoc]

/-- Without an open window the CPU takes the pending interrupt, but for an exception of the instruction itself. -/
theorem takesInterrupt_settled {s : State} (settled : s.hazards = []) :
    s.takesInterrupt =
      (s.intPending && (!s.instructionRaises || Config.draw s.draws .interruptOrException 1 = 1)) := by
  simp [State.takesInterrupt, State.interruptCondition, settled]

/-- Settles O10. -/
theorem interruptTaken : Obligations.InterruptTaken := by
  intro s t turn settled r3000 r4000 requested quiet
  have taken : t.takesInterrupt = true := by
    simp [takesInterrupt_settled settled, intPending_iff.2 ⟨r3000, r4000, requested⟩, quiet]
  have entered : cpuStep t = .next (enter .int .none t) := if_pos taken
  exact ⟨_, (step_of_turn turn).trans entered, entersGeneral_enter .int t rfl, mode_enter .int .none t⟩

/-- Settles O11: each blocking condition contradicts one part of the interrupt condition. -/
theorem interruptBlocked : Obligations.InterruptBlocked := by
  intro s settled blocked
  have notPending : s.intPending = false := by
    rw [Bool.eq_false_iff, ne_eq, intPending_iff]
    rintro ⟨r3000, r4000, requested⟩
    rcases blocked with masked | ⟨style, off⟩ | ⟨style, off⟩
    · exact requested masked
    · simp [r3000 style] at off
    · obtain ⟨ie, exl, erl⟩ := r4000 style
      simp [ie, exl, erl] at off
  simp [takesInterrupt_settled settled, notPending]

end Sys2Proof.Machine
end

section
/-! The statements about Watch, bus errors and refill-type misses: WatchAndBusError, TlbRefillEntry. -/

namespace Sys2Proof.Machine

/-! ### Stops of a translated access (20_memory.md R126) -/

section Translated
variable {a : WordAccess} {m : Mode} {s : State} {pa : Nat} {attr : CacheAttr} (starts : Starts a s)
  (ok : s.translate m a.kind (a.address s) = .ok (pa, attr))
include starts ok

/-- A watched access raises Watch before it is made (60_exceptions.md R268). -/
theorem effect_of_watched (watched : s.watchMatch pa a.kind = true) : effect a.instr m s = .stop (.raise .watch .none) :=
  effect_of_dataAccess_error (by simp [dataAccess_of_starts starts, ok, watched])

/-- An unwatched load takes the bus error held ready for it. -/
theorem effect_of_busError (load : a.kind = .load) (unwatched : s.watchMatch pa .load = false) (held : s.dbe = true) :
    effect a.instr m s = .stop (.raise .dbe .loadBusError) :=
  effect_of_dataAccess_error (by rw [dataAccess_of_starts starts, ok]; simp [load, unwatched, held])

end Translated

/-- `WatchMatch` on the R4000 style for a load or store. -/
theorem watchMatch_of_agrees {a : WordAccess} {pa : Nat} {s : State} (style : s.cfg.style = .r4000)
    (enabled : s.cp0.watchLo.getLsbD (if a.kind = .store then 0 else 1) = true)
    (agrees : pa % 2 ^ s.cfg.paBits / 8 = s.watchAddress % 2 ^ s.cfg.paBits / 8)
    (unmasked : ¬ (s.cfg.watchMaskedByExl = true ∧ (srExl s.cp0.sr = true ∨ srErl s.cp0.sr = true))) :
    s.watchMatch pa a.kind = true := by
  have notMasked : (s.cfg.watchMaskedByExl && (srExl s.cp0.sr || srErl s.cp0.sr)) = false := by
    simpa only [Bool.eq_false_iff, ne_eq, Bool.and_eq_true, Bool.or_eq_true] using unmasked
  unfold State.watchMatch
  rw [notMasked, agrees]
  cases a with
  | load base rt offset => simpa [style, WordAccess.kind] using enabled
  | store base rt offset => simpa [style, WordAccess.kind] using enabled

/-- Settles O19. -/
theorem watchAndBusError : Obligations.WatchAndBusError := by
  intro a m pa attr s runs starts ok
  refine ⟨fun style enabled agrees unmasked => ?_, fun load unwatched held => ?_⟩
  · have watched := watchMatch_of_agrees style enabled agrees unmasked
    exact ⟨_, exec_raise runs (effect_of_watched starts ok watched), entersGeneral_enter .watch s rfl⟩
  · have entered : EntersGeneral 7 s (enter .dbe .loadBusError s) :=
      ⟨enters_enter .dbe .loadBusError s (by decide) (by simp) (fun _ => rfl), toGeneral_enter rfl⟩
    exact ⟨_, exec_raise runs (effect_of_busError starts ok load unwatched held), entered, by simp⟩

/-! ### The entry of a refill-type miss (60_exceptions.md R245, R246) -/

@[simp] theorem refillVa_tlbMiss (kind : AccessKind) (va : Word) : (tlbMiss kind va true).refillVa = some va := by
  cases kind <;> rfl

/-- The entry point of a refill-type miss is the one of R245 and R246. -/
theorem vectorPair_refill {m : Mode} {x : VectorPair} {s : State} (mode : s.mode = some m)
    (xtlb : s.cfg.style = .r4000 → s.cfg.vectors.xtlbRefill = some x) (kind : AccessKind) (va : Word) :
    s.vectorPair (tlbMiss kind va true) = refillEntry m x (lo32 va) s := by
  unfold State.vectorPair refillEntry
  rw [refillVa_tlbMiss]
  cases style : s.cfg.style with
  | r3000 => simp [inKuseg]
  | r4000 => cases m <;> simp [State.nested, State.extendedAddressing, mode, style, xtlb style]

/-- Everything the entry of a refill-type miss does. -/
theorem enter_refill {m : Mode} {x : VectorPair} {s : State} (mode : s.mode = some m)
    (xtlb : s.cfg.style = .r4000 → s.cfg.vectors.xtlbRefill = some x) (kind : AccessKind) (va : Word) :
    Enters (if kind = .store then 3 else 2) s (enter (tlbMiss kind va true) .none s) ∧
      (enter (tlbMiss kind va true) .none s).cp0.badVaddr = s.cfg.norm va ∧
      (enter (tlbMiss kind va true) .none s).pc = s.entry (refillEntry m x (lo32 va) s) := by
  refine ⟨tlbMiss_code kind va true ▸ enters_enter _ .none s (by decide) (by simp) (by simp), ?_, ?_⟩
  · cases kind <;> rfl
  · rw [enter_pc, State.vector, vectorPair_refill mode xtlb]

/-- Settles O21. -/
theorem tlbRefillEntry : Obligations.TlbRefillEntry := by
  refine ⟨fun a m s x runs starts mapped tlb o xtlb => ?_, fun m s t x turn fetches aligned mapped tlb o xtlb => ?_⟩
  · have stop := effect_of_translate_error starts (translate_of_miss mapped tlb o)
    exact ⟨_, exec_raise runs stop, enter_refill runs.mode xtlb a.kind (a.address s)⟩
  · have stop := cpuStep_of_translate_error fetches aligned (translate_of_miss mapped tlb o)
    exact ⟨_, (step_of_turn turn).trans stop, enter_refill fetches.mode xtlb .fetch t.pc⟩

end Sys2Proof.Machine
end

section
/-! The statements about the return from an entry and about the mode: EretUndoesEntry, ModeRules. -/

namespace Sys2Proof.Machine

/-! ### eret after an entry (60_exceptions.md R241, 41_exception_return.md R181) -/

/-- SR just before the entry sets EXL: TS is set when the TLB shuts down (10_state.md R55). -/
def srAtNote (note : Note) (sr : Word32) : Word32 := if note = .tlbShutdown then sr ||| 0x00200000 else sr

theorem srOnEntry_r4000 {s : State} (style : s.cfg.style = .r4000) (note : Note) :
    s.srOnEntry note = srAtNote note s.cp0.sr ||| 0x2 := by
  simp [State.srOnEntry, style, srAtNote]

theorem srExl_srAtNote (note : Note) (sr : Word32) : srExl (srAtNote note sr) = srExl sr := by
  unfold srAtNote
  split <;> simp [srExl]

theorem srErl_srAtNote (note : Note) (sr : Word32) : srErl (srAtNote note sr) = srErl sr := by
  unfold srAtNote
  split <;> simp [srErl]

/-- Clearing EXL undoes setting it where it was clear. -/
theorem clear_set_exl {sr : Word32} (exl : srExl sr = false) : (sr ||| 0x2) &&& ~~~0x2 = sr := by
  apply BitVec.eq_of_getLsbD_eq
  intro i hi
  by_cases one : i = 1
  · subst one; simpa [srExl] using exl.symm
  · interval_cases i <;> simp_all

theorem exec_eret_enter {e : Exc} {note : Note} {s : State} (style : s.cfg.style = .r4000) (exl : srExl s.cp0.sr = false)
    (erl : srErl s.cp0.sr = false) :
    ∃ u, exec .eret (enter e note s) = .next u ∧ u.cp0.sr = srAtNote note s.cp0.sr ∧ u.pc = s.restartPc ∧
      SameGprs s u := by
  have entered : (enter e note s).cp0.sr = srAtNote note s.cp0.sr ||| 0x2 := srOnEntry_r4000 style note
  have notErl : srErl (enter e note s).cp0.sr = false := by
    have kept : srErl (srAtNote note s.cp0.sr ||| 0x2) = srErl (srAtNote note s.cp0.sr) := by simp [srErl]
    rw [entered, kept, srErl_srAtNote, erl]
  have epc : (enter e note s).cp0.epc = s.restartPc := by simp [State.nested, exl]
  have cleared : (enter e note s).cp0.sr &&& ~~~0x2 = srAtNote note s.cp0.sr := by
    rw [entered, clear_set_exl (by rw [srExl_srAtNote, exl])]
  obtain ⟨returns, -⟩ := eretResult .kernel (enter e note s) style (runs_enter .eret e note s) (.inl rfl)
  obtain ⟨u, next, -, -, -, back⟩ := returns rfl
  obtain ⟨pc, left⟩ := back notErl
  exact ⟨u, next, by rw [left.cp0]; exact cleared, by rw [pc, epc], left.gprs⟩

/-- Settles O44. -/
theorem eretUndoesEntry : Obligations.EretUndoesEntry := by
  refine ⟨fun e note s style exl erl => exec_eret_enter style exl erl,
    fun i code m s t style exl erl slot trap runs next => ?_⟩
  obtain ⟨e, entered⟩ := exec_trap trap runs
  cases entered.symm.trans next
  obtain ⟨u, back, sr, pc, gprs⟩ := exec_eret_enter (e := e) (note := .none) style exl erl
  exact ⟨u, back, sr, by simp [pc, State.restartPc, slot], gprs⟩

/-! ### The mode (R260, R261) -/

/-- Where no mode is legal, an instruction outside the windows and the load delay is refused (10_state.md R66). -/
theorem exec_of_no_mode {i : Instr} {s : State} (noMode : s.mode = none) (settled : s.hazards = [])
    (loads : s.readsLoaded (sources i) = false) : exec i s = .refused .reservedMode := by
  rw [exec_eq, commit]
  simp [resolve, inMode, loads, settled, noMode, Effect.refuse]

/-- Settles O58. -/
theorem modeRules : Obligations.ModeRules := by
  refine ⟨fun s style => by simp [State.mode, style], fun s style level => by simp [State.mode, style, level],
    fun s style exl erl => ?_⟩
  have byKsu : s.mode = if srKsu s.cp0.sr = 0 then some .kernel else if srKsu s.cp0.sr = 1 then some .supervisor
      else if srKsu s.cp0.sr = 2 then some .user else none := by simp [State.mode, style, exl, erl]
  refine ⟨fun ksu => ?_, fun ksu => ?_, fun ksu => ?_, fun ksu i settled loads => ?_⟩
  · simp [byKsu, ksu]
  · simp [byKsu, ksu]
  · simp [byKsu, ksu]
  · exact exec_of_no_mode (by simp [byKsu, ksu]) settled loads

end Sys2Proof.Machine
end

section
/-! The statements about what a step can do to CP0: UserCannotChangeCp0, R3000CodesStayLow, TimerRequestStays. -/

namespace Sys2Proof.Machine

/-! ### What an instruction that completes does to CP0 -/

/-- The part of the update `u` of instruction `i` that CP0 sees: nothing, the write of a move to CP0, or the write of SR of a
return from an exception; either write where CP0 is usable only (10_state.md R51). -/
inductive Cp0Change (m : Mode) (s : State) (i : Instr) (u : Update) : Prop
  | untouched (noWrite : u.cp0 = none) (keepsLink : u.breakLink = false)
  | moved (rt rd : RegNum) (r : Cp0Reg) (double : Bool) (w : Cp0Write) (usable : s.cp0Usable m = true)
    (form : i = .mtc0 rt rd ∨ i = .dmtc0 rt rd) (number : cp0Lookup s.cfg rd = .ok r)
    (accepted : cp0Write s r (s.readGpr rt) double = .ok w) (write : u.cp0 = some w)
  | returned (w : Cp0Write) (usable : s.cp0Usable m = true) (reg : w.reg = .sr) (keepsRequest : w.timer = .keep)
    (write : u.cp0 = some w)

theorem Completes.cp0Change {m : Mode} {s : State} {i : Instr} {u : Update} (h : Completes m s i u) :
    Cp0Change m s i u := by
  cases h with
  | mtc0 rt rd r w usable reg write => exact .moved rt rd r false w usable (.inl rfl) reg write rfl
  | dmtc0 rt rd r w usable _ reg write => exact .moved rt rd r true w usable (.inr rfl) reg write rfl
  | rfe _ usable => exact .returned _ usable rfl rfl rfl
  | eret _ usable _ =>
    cases erl : srErl s.cp0.sr with
    | true =>
      rw [exceptionReturn_of_erl erl]
      exact .returned _ usable rfl rfl rfl
    | false =>
      rw [exceptionReturn_of_not_erl erl]
      exact .returned _ usable rfl rfl rfl
  | mfc0 | dmfc0 | jr | addu | and | or | sll | nop | ssnop | sync | lw | sw => exact .untouched rfl rfl

/-- A completed write shows in every CP0 register; the break of a link in none but the monitor. -/
theorem retire_cp0_write {s : State} {u : Update} {w : Cp0Write} (write : u.cp0 = some w) :
    (s.retire u).cp0 =
      { applyCp0Write s w with llBit := (applyCp0Write s w).llBit && !u.breakLink } := by
  simp [State.retire, write]

/-! ### User mode (60_exceptions.md R263, R264) -/

/-- The mode depends on SR and the configuration alone. -/
theorem mode_congr {s t : State} (cfg : t.cfg = s.cfg) (sr : t.cp0.sr = s.cp0.sr) : t.mode = s.mode := by
  unfold State.mode
  rw [cfg, sr]

/-- Where CP0 is not usable, an instruction that completes leaves it alone. -/
theorem Completes.keeps_cp0 {m : Mode} {s : State} {i : Instr} {u : Update} (h : Completes m s i u)
    (unusable : s.cp0Usable m = false) : (s.retire u).cp0 = s.cp0 := by
  cases h.cp0Change with
  | untouched noWrite keepsLink => exact retire_cp0_none s u noWrite keepsLink
  | moved _ _ _ _ _ usable | returned _ usable => simp [unusable] at usable

/-- Settles O56: an exception enters the kernel, and no instruction that completes writes CP0. -/
theorem userCannotChangeCp0 : Obligations.UserCannotChangeCp0 := by
  intro s t user noCu0 next
  rcases cpuStep_next next with ⟨e, n, -, rfl⟩ | ⟨i, m, u, mode, completed, -, rfl⟩
  · exact .inr ⟨mode_enter e n s, rfl, vector_mem_entryPoints s e⟩
  · have unusable : s.cp0Usable m = false := by
      cases user.symm.trans mode
      rw [State.cp0Usable, noCu0]
      rfl
    have kept := completed.keeps_cp0 unusable
    have sameMode : (s.retire u).mode = s.mode := mode_congr rfl (congrArg Cp0File.sr kept)
    exact .inl ⟨kept, sameMode.trans user⟩

/-! ### The exception code (R220, R239) -/

/-- A write of another register leaves Cause alone. -/
theorem applyCp0Write_cause_of_ne {s : State} {w : Cp0Write} (h : w.reg ≠ .cause) :
    (applyCp0Write s w).cause = s.cp0.cause := by
  unfold applyCp0Write putCp0
  cases reg : w.reg with
  | cause => exact absurd reg h
  | badVaddr | count | compare | sr | epc | prid | config | watchLo | watchHi | errorEpc => rfl

/-- The bits of Cause that a move writes are not those of ExcCode (10_state.md R80). -/
theorem causeExcCode_putBits (cause v : Word32) : causeExcCode (putBits cause 0x300 v) = causeExcCode cause := by
  apply BitVec.eq_of_getLsbD_eq
  intro i hi
  simp only [causeExcCode, BitVec.getLsbD_extractLsb', getLsbD_putBits]
  interval_cases i <;> simp

/-- A move to CP0 leaves the exception code. -/
theorem causeExcCode_of_cp0Write {s : State} {r : Cp0Reg} {v : Word} {d : Bool} {w : Cp0Write}
    (accepted : cp0Write s r v d = .ok w) : causeExcCode (applyCp0Write s w).cause = causeExcCode s.cp0.cause := by
  by_cases isCause : r = .cause
  · subst isCause
    rw [applyCp0Write_of_cause accepted]
    exact causeExcCode_putBits s.cp0.cause (lo32 v)
  · obtain ⟨reg, -, -⟩ := cp0Write_ok accepted
    rw [applyCp0Write_cause_of_ne (reg ▸ isCause)]

/-- No instruction that completes changes the exception code. -/
theorem Completes.keeps_excCode {m : Mode} {s : State} {i : Instr} {u : Update} (h : Completes m s i u) :
    causeExcCode (s.retire u).cp0.cause = causeExcCode s.cp0.cause := by
  cases h.cp0Change with
  | untouched noWrite keepsLink => rw [retire_cp0_none s u noWrite keepsLink]
  | moved _ _ _ _ _ _ _ _ accepted write =>
    rw [retire_cp0_write write]
    exact causeExcCode_of_cp0Write accepted
  | returned _ _ reg _ write =>
    rw [retire_cp0_write write]
    exact congrArg causeExcCode (applyCp0Write_cause_of_ne (by simp [reg]))

/-- Settles O57: what an entry records is the code of an exception that can be raised, and Watch is not on this style. -/
theorem r3000CodesStayLow : Obligations.R3000CodesStayLow := by
  intro s t style low next
  rcases cpuStep_next next with ⟨e, n, ⟨raised, -⟩, rfl⟩ | ⟨i, m, u, -, completed, -, rfl⟩
  · rw [enter_cause, causeExcCode_onEntry]
    rcases raised with code | ⟨-, r4000⟩
    · exact code
    · cases style.symm.trans r4000
  · rwa [completed.keeps_excCode]

/-! ### The timer request (R266) -/

/-- An instruction that completes keeps the timer request, but for a move to Compare. -/
theorem Completes.keeps_request {m : Mode} {s : State} {i : Instr} {u : Update} (h : Completes m s i u)
    (pending : s.cp0.timerPending = true) :
    (s.retire u).cp0.timerPending = true ∨ ∃ rt, i = .mtc0 rt 11 ∨ i = .dmtc0 rt 11 := by
  cases h.cp0Change with
  | untouched noWrite keepsLink => exact .inl (by rw [retire_cp0_none s u noWrite keepsLink, pending])
  | moved rt rd r double w _ form number accepted write =>
    by_cases isCompare : r = .compare
    · subst isCompare
      cases eq_11_of_lookup_compare number
      exact .inr ⟨rt, form⟩
    · obtain ⟨-, -, keeps⟩ := cp0Write_ok accepted
      exact .inl (by rw [retire_cp0_write write]; exact keeps isCompare pending)
  | returned w _ _ keepsRequest write =>
    have keeps : s.timerAfter w.timer = true := by rw [keepsRequest, timerAfter_keep, pending]
    exact .inl (by rw [retire_cp0_write write]; exact keeps)

/-- So does every instruction that gives a next state, because no entry ends the request. -/
theorem exec_keeps_request {i : Instr} {s t : State} (next : exec i s = .next t) (pending : s.cp0.timerPending = true) :
    t.cp0.timerPending = true ∨ ∃ rt, i = .mtc0 rt 11 ∨ i = .dmtc0 rt 11 := by
  obtain ⟨m, -, ⟨u, done, -, rfl⟩ | ⟨e, n, -, rfl⟩⟩ := exec_next next
  · exact (completes_of_done done).keeps_request pending
  · exact .inl pending

/-- Everything the CPU can do when it gives a next state, with the word it fetched: the entry of an exception, or the run of the
instruction of that word. -/
theorem cpuStep_next_fetched {s t : State} (next : cpuStep s = .next t) :
    (∃ e n, t = enter e n s) ∨ ∃ w i, s.fetch = .word w ∧ decode w = .instr i ∧ exec i s = .next t := by
  rcases cpuStep_cases s with ⟨-, entered⟩ | ⟨-, x, -, stopped⟩ | ⟨-, w, fetched, ran⟩
  · exact .inl ⟨.int, .none, by simpa using next.symm.trans entered⟩
  · rcases finish_next.1 (stopped.symm.trans next) with ⟨u, noUpdate, -⟩ | ⟨e, n, -, entered⟩
    · cases noUpdate
    · exact .inl ⟨e, n, entered⟩
  · rcases runWord_next (ran.symm.trans next) with ⟨i, decoded, executed⟩ | ⟨z, m, -, -, -, entered⟩
    · exact .inr ⟨w, i, fetched, decoded, executed⟩
    · exact .inl ⟨.cpu z, .none, entered⟩

/-- The turn of an agent other than the CPU. -/
theorem step_of_other_turn {s : State} {mv : Move} {rest : List Move} (schedule : s.schedule = mv :: rest)
    (notCpu : mv ≠ .cpu) : step s = otherMove mv { s with schedule := rest } := by
  unfold step agentStep
  rw [schedule]
  cases mv with
  | cpu => exact absurd rfl notCpu
  | tick | setExtInt | setBusError | setTlb | hardReset | softReset | nmi => rfl

/-- Everything a step can do when it gives a next state, with the state the CPU finds at its turn. -/
theorem step_next_turn {s t : State} (next : step s = .next t) :
    (∃ u, CpuTurn s u ∧ cpuStep u = .next t) ∨
    ∃ mv rest, s.schedule = mv :: rest ∧ mv ≠ .cpu ∧ otherMove mv { s with schedule := rest } = .next t := by
  cases schedule : s.schedule with
  | nil =>
    have turn : CpuTurn s s := .inl ⟨schedule, rfl⟩
    exact .inl ⟨s, turn, (step_of_turn turn).symm.trans next⟩
  | cons mv rest =>
    by_cases cpu : mv = .cpu
    · subst cpu
      have turn : CpuTurn s { s with schedule := rest } := .inr ⟨rest, schedule, rfl⟩
      exact .inl ⟨_, turn, (step_of_turn turn).symm.trans next⟩
    · exact .inr ⟨mv, rest, rfl, cpu, (step_of_other_turn schedule cpu).symm.trans next⟩

/-- A move of another agent keeps the timer request, but for the hard reset. -/
theorem otherMove_keeps_request {mv : Move} {s t : State} (next : otherMove mv s = .next t)
    (pending : s.cp0.timerPending = true) : t.cp0.timerPending = true ∨ mv = .hardReset := by
  cases mv with
  | hardReset => exact .inr rfl
  | cpu | setExtInt | setBusError | setTlb => cases next; exact .inl pending
  | tick =>
    cases style : s.cfg.style <;> simp only [otherMove, style] at next <;> cases next
    exact .inl (by simp [pending])
  | softReset | nmi =>
    cases style : s.cfg.style <;> simp only [otherMove, style] at next <;> cases next
    exact .inl pending

/-- Settles O48. -/
theorem timerRequestStays : Obligations.TimerRequestStays := by
  refine ⟨fun s t next pending => ?_, fun i s t => exec_keeps_request⟩
  rcases step_next_turn next with ⟨u, turn, ran⟩ | ⟨mv, rest, schedule, -, moved⟩
  · have pendingAtTurn : u.cp0.timerPending = true := by
      rcases turn with ⟨-, rfl⟩ | ⟨rest, -, rfl⟩ <;> exact pending
    rcases cpuStep_next_fetched ran with ⟨e, n, rfl⟩ | ⟨w, i, fetched, decoded, executed⟩
    · exact .inl pendingAtTurn
    · rcases exec_keeps_request executed pendingAtTurn with kept | ⟨rt, form⟩
      · exact .inl kept
      · refine .inr (.inr ⟨u, w, rt, turn, fetched, ?_⟩)
        rcases form with rfl | rfl
        · exact .inl decoded
        · exact .inr decoded
  · rcases otherMove_keeps_request moved pending with kept | rfl
    · exact .inl kept
    · exact .inr (.inl ⟨rest, schedule⟩)

end Sys2Proof.Machine
end

section
/-! The statements about the moves of the timer and the environment: TimerTick, EnvironmentMoves. -/

namespace Sys2Proof.Machine

/-- Settles O47: with the windows of Count agreed, the comparison of the tick is `tickHits`. -/
theorem timerTickResult : Obligations.TimerTick := by
  intro s rest schedule
  refine ⟨fun style => ⟨timerTick { s with schedule := rest }, _, ?_, rfl, fun agreed => ?_, fun pending => ?_, rfl, rfl, rfl,
    rfl, rfl, rfl, rfl, rfl, rfl, rfl⟩, fun style => ?_⟩
  · rw [step_of_other_turn schedule (by decide), otherMove, style]
  · rw [tickRaises_eq (s := { s with schedule := rest }) agreed]
    rfl
  · simp [pending]
  · rw [step_of_other_turn schedule (by decide), otherMove, style]

/-- Input 5 stays 0 where the timer is wired to IP7, the other inputs are as set (60_exceptions.md R250). -/
theorem extInt_setInputs (levels : BitVec 6) (s : State) :
    (∀ k, k < 5 → (setInputs levels s).extInt.getLsbD k = levels.getLsbD k) ∧
      (setInputs levels s).extInt.getLsbD 5 =
        (if s.cfg.style = .r4000 ∧ s.cfg.timerIrqWired = true then false else levels.getLsbD 5) := by
  unfold setInputs
  split
  · refine ⟨fun k hk => ?_, ?_⟩
    · interval_cases k <;> simp
    · simp
  · exact ⟨fun _ _ => rfl, rfl⟩

/-- Settles O49. -/
theorem environmentMoves : Obligations.EnvironmentMoves := by
  intro s rest
  exact ⟨fun levels schedule => ⟨setInputs levels { s with schedule := rest },
      step_of_other_turn schedule (by simp), rfl, extInt_setInputs levels _⟩,
    fun onFetch onLoad schedule => step_of_other_turn schedule (by simp),
    fun rules schedule => step_of_other_turn schedule (by simp)⟩

end Sys2Proof.Machine
end

section
/-! The statements about the resets: HardReset, SoftReset. -/

namespace Sys2Proof.Machine

/-! ### Hard reset (70_reset_and_hazards.md R280, 10_state.md R97) -/

section HardReset
variable (s : State)

theorem mode_hardReset : (hardReset s).mode = some .kernel :=
  mode_of_afterHardReset (by rw [hardReset_sr, hardReset_cfg])

/-- After a hard reset IEc = 0 or ERL = 1 shuts interrupts out, and no window is open. -/
theorem takesInterrupt_hardReset : (hardReset s).takesInterrupt = false := by
  have notPending : (hardReset s).intPending = false := by
    rw [Bool.eq_false_iff, ne_eq, intPending_iff, hardReset_cfg, hardReset_sr]
    rintro ⟨r3000, r4000, -⟩
    cases style : s.cfg.style with
    | r3000 =>
      obtain ⟨-, iec, -⟩ := sr_afterHardReset_r3000 (Config.draw s.draws .hardResetSr 32) style
      exact absurd (r3000 style) (by simp [iec])
    | r4000 =>
      obtain ⟨erl, -, -⟩ := sr_afterHardReset_r4000 (Config.draw s.draws .hardResetSr 32) style
      exact absurd (r4000 style) (by simp [erl])
  rw [takesInterrupt_settled (hardReset_hazards s), notPending, Bool.false_and]

variable {s}

theorem readByte_hardReset_of_placed {a : Nat} {b : Byte} (notStored : a ∉ s.written)
    (placed : Memory.find? s.mem a = some b) : (hardReset s).readByte a = b := by
  simp [readByte_hardReset, notStored, placed]

theorem readByte_hardReset_of_free {a : Nat} (free : a ∈ s.written ∨ Memory.find? s.mem a = none) :
    (hardReset s).readByte a = Config.unwrittenByte (hardReset s).memEpoch a := by
  rw [readByte_hardReset, hardReset_memEpoch]
  rcases free with stored | notPlaced
  · simp [stored]
  · simp [notPlaced]

end HardReset

/-- Settles O50. -/
theorem hardResetResult : Obligations.HardReset := by
  intro s rest schedule
  have sr := hardReset_sr { s with schedule := rest }
  have config := hardReset_config { s with schedule := rest }
  refine ⟨hardReset { s with schedule := rest }, step_of_other_turn schedule (by decide), hardReset_cfg _,
    hardReset_pc _, ?_, hardReset_inDelay _, ?_, ?_, fun style => ?_, fun style => ?_, ?_, ?_, hardReset_tlb _, hardReset_written _,
    fun _ _ => readByte_hardReset_of_placed, fun _ => readByte_hardReset_of_free, mode_hardReset _,
    takesInterrupt_hardReset _⟩
  · rw [hardReset_npc, hardReset_pc]
  · rw [sr]; exact srBev_afterHardReset _ _
  · rw [sr]; exact srTs_afterHardReset _ _
  · rw [sr]; exact sr_afterHardReset_r4000 _ style
  · rw [sr]; exact sr_afterHardReset_r3000 _ style
  · rw [config]; exact configAfterHardReset_hardware _ _
  · rw [config]; exact configBe_afterHardReset _ _

/-! ### Soft reset and NMI (R281, R282) -/

/-- SR after soft reset: TS kept or cleared, then SR, BEV and ERL set. -/
theorem srAfterSoftReset_ts (s : State) :
    ∃ sr, (sr = s.cp0.sr ∨ sr = s.cp0.sr &&& ~~~0x00200000) ∧ srAfterSoftReset s = sr ||| 0x00500004 := by
  rcases srAfterSoftReset_eq s with kept | cleared
  · exact ⟨_, .inl rfl, kept⟩
  · exact ⟨_, .inr rfl, cleared⟩

section SoftReset
variable {s : State} {mv : Move} {rest : List Move}

/-- An NMI does what a soft reset does (R282). -/
theorem step_softReset_of_r4000 (schedule : s.schedule = mv :: rest) (reset : mv = .softReset ∨ mv = .nmi)
    (style : s.cfg.style = .r4000) : step s = .next (softReset { s with schedule := rest }) := by
  rcases reset with rfl | rfl <;> rw [step_of_other_turn schedule (by decide), otherMove, style]

theorem step_softReset_of_r3000 (schedule : s.schedule = mv :: rest) (reset : mv = .softReset ∨ mv = .nmi)
    (style : s.cfg.style = .r3000) : step s = .refused .noSoftReset := by
  rcases reset with rfl | rfl <;> rw [step_of_other_turn schedule (by decide), otherMove, style]

end SoftReset

/-- Settles O51. -/
theorem softResetResult : Obligations.SoftReset := by
  intro s mv rest schedule reset
  refine ⟨fun style => ?_, step_softReset_of_r3000 schedule reset⟩
  obtain ⟨sr, ts, srAfter⟩ := srAfterSoftReset_ts { s with schedule := rest }
  have cp0 : (softReset { s with schedule := rest }).cp0 =
      { s.cp0 with sr := sr ||| 0x00500004, errorEpc := if s.inDelay then s.cfg.norm (s.pc - 4) else s.pc } := by
    rw [← srAfter]
    rfl
  exact ⟨_, sr, step_softReset_of_r4000 schedule reset style, ts, cp0, rfl, rfl, rfl, rfl, rfl, rfl, rfl, rfl⟩

end Sys2Proof.Machine
end

section
/-! The statements about the hazard windows: HazardWindow, HazardRefuses. -/

namespace Sys2Proof.Machine

/-! ### How the windows age (R294) -/

/-- The old value of a window after an instruction that wrote `w`: a write that opens no window shows in the old view too
(log 14). -/
def agedOld (w : Option Cp0Write) (g : Hazard) : Word :=
  match w with
  | some w => if w.reg = g.reg ∧ w.window = false then putBits g.old w.mask w.value else g.old
  | none => g.old

/-- A window ends with its last instruction, else it is one instruction shorter. -/
theorem ageHazard_eq (w : Option Cp0Write) (g : Hazard) :
    ageHazard w g = if g.left ≤ 1 then none else some { g with left := g.left - 1, old := agedOld w g } := by
  unfold ageHazard agedOld
  cases w with
  | none => rfl
  | some w => by_cases h : w.reg = g.reg ∧ w.window = false <;> simp [h]

theorem ageHazard_some {w : Option Cp0Write} {g h : Hazard} (aged : ageHazard w g = some h) :
    h.reg = g.reg ∧ h.left + 1 = g.left ∧ h.oldTimer = g.oldTimer ∧ h.old = agedOld w g := by
  rw [ageHazard_eq] at aged
  split at aged
  · cases aged
  · cases aged
    exact ⟨rfl, by dsimp only; omega, rfl, rfl⟩

/-- The windows that go on are, in order, those with two or more instructions left, each aged. -/
theorem forall₂_ageHazard (w : Option Cp0Write) (hs : List Hazard) :
    List.Forall₂ (fun g h => ageHazard w g = some h) (hs.filter (fun g => decide (2 ≤ g.left)))
      (hs.filterMap (ageHazard w)) := by
  induction hs with
  | nil => exact .nil
  | cons g hs ih =>
    by_cases last : g.left ≤ 1
    · have ends : ageHazard w g = none := by rw [ageHazard_eq, if_pos last]
      rw [List.filter_cons_of_neg (by simpa using by omega), List.filterMap_cons_none ends]
      exact ih
    · have goesOn : ageHazard w g = some { g with left := g.left - 1, old := agedOld w g } := by
        rw [ageHazard_eq, if_neg last]
      rw [List.filter_cons_of_pos (by simpa using by omega), List.filterMap_cons_some goesOn]
      exact .cons goesOn ih

/-- The old value of a window after `i` completes: rfe and eret put the bits of SR they write into the old value of SR too, and
every other old value stays (log 14). -/
def oldAfter (i : Instr) (s : State) (g : Hazard) : Word :=
  if g.reg = .sr ∧ i = .rfe then putBits g.old 0xF (zext64 ((s.cp0.sr >>> 2) &&& 0xF))
  else if g.reg = .sr ∧ i = .eret then putBits g.old (if srErl s.cp0.sr then 0x4 else 0x2) 0
  else g.old

theorem putBits_noBits (a v : Word) : putBits a 0#64 v = a :=
  BitVec.eq_of_getLsbD_eq fun i _ => by simp [getLsbD_putBits]

/-- A move to CP0 leaves the old value of every window: it opens its own window, or writes no bit. -/
theorem agedOld_of_cp0Write {s : State} {r : Cp0Reg} {v : Word} {d : Bool} {w : Cp0Write}
    (accepted : cp0Write s r v d = .ok w) (g : Hazard) : agedOld (some w) g = g.old := by
  by_cases readOnly : r = .badVaddr ∨ r = .prid
  · have noBits : w.mask = 0 := by rcases readOnly with rfl | rfl <;> cases accepted <;> rfl
    simp [agedOld, noBits, putBits_noBits]
  · obtain ⟨-, window, -⟩ := cp0Write_ok accepted
    have opens : w.window = true := window (fun h => readOnly (.inl h)) (fun h => readOnly (.inr h))
    simp [agedOld, opens]

/-- The write of SR by eret: ERL, or EXL with ERL = 0. -/
theorem exceptionReturn_cp0 (s : State) :
    (exceptionReturn s).cp0 =
      some { reg := .sr, mask := if srErl s.cp0.sr then 0x4 else 0x2, value := 0 } := by
  cases erl : srErl s.cp0.sr <;> simp [exceptionReturn, erl]

/-- The old values after an instruction that completes. -/
theorem Completes.agedOld_eq {m : Mode} {s : State} {i : Instr} {u : Update} (h : Completes m s i u) (g : Hazard) :
    agedOld u.cp0 g = oldAfter i s g := by
  cases h with
  | mtc0 rt rd r w usable reg write => simpa [oldAfter] using agedOld_of_cp0Write write g
  | dmtc0 rt rd r w usable wide reg write => simpa [oldAfter] using agedOld_of_cp0Write write g
  | rfe => simp [popKuIe, agedOld, oldAfter, @eq_comm _ Cp0Reg.sr]
  | eret => simp [exceptionReturn_cp0, agedOld, oldAfter, @eq_comm _ Cp0Reg.sr]
  | mfc0 | dmfc0 | jr | addu | and | or | sll | nop | ssnop | sync | lw | sw => simp [agedOld, oldAfter]

/-! ### Which window an instruction opens -/

theorem openHazard_of_window {s : State} {w : Cp0Write} (opens : w.window = true) :
    openHazard s (some w) =
      if s.cfg.hazardDistance = 0 then []
      else [{ reg := w.reg, old := s.cp0Get w.reg, oldTimer := s.cp0.timerPending, left := s.cfg.hazardDistance }] := by
  by_cases h : s.cfg.hazardDistance = 0 <;> simp [openHazard, opens, h]

/-- A write opens one window, or none. -/
theorem openHazard_some (s : State) (w : Cp0Write) : openHazard s (some w) = [] ∨ ∃ h, openHazard s (some w) = [h] := by
  simp only [openHazard]
  split
  · exact .inr ⟨_, rfl⟩
  · exact .inl rfl

/-- Only a move to CP0 opens a window. -/
theorem Completes.openHazard_eq {m : Mode} {s : State} {i : Instr} {u : Update} (h : Completes m s i u) :
    openHazard s u.cp0 = [] ∨ ∃ rt n h, (i = .mtc0 rt n ∨ i = .dmtc0 rt n) ∧ openHazard s u.cp0 = [h] := by
  cases h with
  | mtc0 rt rd r w => exact (openHazard_some s w).imp_right fun ⟨h, opened⟩ => ⟨rt, rd, h, .inl rfl, opened⟩
  | dmtc0 rt rd r w => exact (openHazard_some s w).imp_right fun ⟨h, opened⟩ => ⟨rt, rd, h, .inr rfl, opened⟩
  | rfe => exact .inl (by simp [popKuIe, openHazard])
  | eret => exact .inl (by simp [exceptionReturn_cp0, openHazard])
  | mfc0 | dmfc0 | jr | addu | and | or | sll | nop | ssnop | sync | lw | sw => exact .inl rfl

/-- What a move to CP0 does in a mode where it is allowed. -/
theorem effect_moveTo {i : Instr} {rt n : RegNum} {m : Mode} {s : State}
    (form : i = .mtc0 rt n ∨ (i = .dmtc0 rt n ∧ s.cfg.xlen = .x64 ∧ s.dw64Allowed m = true))
    (usable : s.cp0Usable m = true) : ∃ double, effect i m s = moveTo rt n double s := by
  rcases form with rfl | ⟨rfl, x64, allowed⟩
  · exact ⟨false, if_pos usable⟩
  · exact ⟨true, doubleChecked_allowed x64 usable allowed⟩

theorem moveTo_not_raise {rt rd : RegNum} {d : Bool} {s : State} {e : Exc} {n : Note} :
    moveTo rt rd d s ≠ .stop (.raise e n) := by
  unfold moveTo
  split
  · simp [Effect.refuse]
  · split <;> simp [Effect.refuse]

/-- A move to CP0 that gives a next state has made an accepted write of the register its number names. -/
theorem exec_moveTo_next {i : Instr} {rt n : RegNum} {r : Cp0Reg} {m : Mode} {s t : State}
    (form : i = .mtc0 rt n ∨ (i = .dmtc0 rt n ∧ s.cfg.xlen = .x64 ∧ s.dw64Allowed m = true)) (runs : Runs i m s)
    (usable : m = .kernel ∨ srCu s.cp0.sr 0 = true) (lookup : cp0Lookup s.cfg n = .ok r) (next : exec i s = .next t) :
    ∃ double w, cp0Write s r (s.readGpr rt) double = .ok w ∧ t = s.retire { cp0 := some w } := by
  obtain ⟨double, moves⟩ := effect_moveTo form (cp0Usable_iff.2 usable)
  rw [exec_of_runs runs, moves, finish_next] at next
  rcases next with ⟨u, done, -, rfl⟩ | ⟨e, note, raised, -⟩
  · obtain ⟨r', w, found, accepted, rfl⟩ := moveTo_done done
    cases lookup.symm.trans found
    exact ⟨double, w, accepted, rfl⟩
  · exact absurd raised moveTo_not_raise

/-- Settles O54: a move to CP0 opens the window of its write; the windows that were open age. -/
theorem hazardWindow : Obligations.HazardWindow := by
  refine ⟨fun i rt n r m s t form runs usable lookup notBadVaddr notPrid next => ?_, fun i s t next => ?_⟩
  · obtain ⟨double, w, accepted, rfl⟩ := exec_moveTo_next form runs usable lookup next
    obtain ⟨reg, window, -⟩ := cp0Write_ok accepted
    refine ⟨s.hazards.filterMap (ageHazard (some w)), ?_, (forall₂_ageHazard (some w) s.hazards).length_eq.symm⟩
    rw [retire_hazards, openHazard_of_window (window notBadVaddr notPrid), reg]
    split <;> rfl
  · obtain ⟨m, -, ⟨u, done, -, rfl⟩ | ⟨e, note, -, entered⟩⟩ := exec_next next
    · have completed := completes_of_done done
      refine .inr ⟨_, _, retire_hazards s u, completed.openHazard_eq, (forall₂_ageHazard u.cp0 s.hazards).imp ?_⟩
      intro g h aged
      obtain ⟨reg, left, timer, old⟩ := ageHazard_some aged
      exact ⟨reg, left, timer, old.trans (completed.agedOld_eq g)⟩
    · exact .inl ⟨e, note, entered⟩

/-! ### The old views -/

theorem oldViews_cfg {s v : State} (h : v ∈ s.oldViews) : v.cfg = s.cfg := by
  simpa using congrArg State.cfg (oldViews_same h)

/-- What makes an entry differ in a view. -/
theorem entryReads_ne {s v : State} {e : Exc} (cfg : v.cfg = s.cfg) :
    v.entryReads e ≠ s.entryReads e ↔ v.nested ≠ s.nested ∨ v.vectorPair e ≠ s.vectorPair e ∨
      (s.cfg.style = .r3000 ∧ v.cp0.sr.extractLsb' 0 4 ≠ s.cp0.sr.extractLsb' 0 4) := by
  rw [ne_eq, entryReads_eq cfg, not_and_or, not_and_or, Classical.not_imp]

/-- With no load delay in the way, an instruction that does in some old view other than it does is refused. -/
theorem exec_of_view_differs {i : Instr} {s v : State} (loads : s.readsLoaded (sources i) = false) (hv : v ∈ s.oldViews)
    (differs : ¬ sameIn (effect i) s v = true) : exec i s = .refused .cp0Hazard := by
  rw [exec_eq, commit, resolve, if_neg (by simp [loads]), if_neg]
  · rfl
  · rw [List.all_eq_true]
    exact fun all => differs (all v hv)

/-- With no load delay in the way, an instruction that does the same in every old view does it. -/
theorem exec_of_views_agree {i : Instr} {s : State} (loads : s.readsLoaded (sources i) = false)
    (agree : ∀ v ∈ s.oldViews, sameIn (effect i) s v = true) : exec i s = finish (inMode (effect i) s) s := by
  rw [exec_eq, commit, resolve, if_neg (by simp [loads]), if_pos (List.all_eq_true.2 agree)]

/-- A fetch that gives in some old view other than it gives is refused. -/
theorem fetch_of_view_differs {s v : State} (hv : v ∈ s.oldViews) (differs : ¬ sameFetch s v = true) :
    s.fetch = .stop (.refuse .cp0Hazard) := by
  rw [State.fetch, if_neg]
  rw [List.all_eq_true]
  exact fun all => differs (all v hv)

/-- The CPU without an interrupt stops as its fetch does. -/
theorem step_of_fetch_refused {s t : State} {r : Refusal} (turn : CpuTurn s t) (noInterrupt : t.takesInterrupt = false)
    (refused : t.fetch = .stop (.refuse r)) : step s = .refused r := by
  rw [step_of_turn turn]
  simp [cpuStep, noInterrupt, refused]

/-! ### The top of the address space (10_state.md R24) -/

theorem wraps_of_not_staysInSpace {s : State} {f : Flow} (notJump : ∀ target, f ≠ .jump target)
    (top : ¬ StaysInSpace s) : s.wraps f = true := by
  obtain ⟨slot, past⟩ : s.inDelay = false ∧ (s.cfg.norm (s.pc + 4)).toNat < 4 := by simpa [StaysInSpace] using top
  have below : s.cfg.norm (s.pc + 4) < 4 := past
  cases f with
  | jump target => exact absurd rfl (notJump target)
  | next => simpa [State.wraps, slot] using below
  | delayed target => simpa [State.wraps, slot] using below

/-- Settles O53: each case is the hazard rule for what differs, or does not, between the views. -/
theorem hazardRefuses : Obligations.HazardRefuses := by
  refine ⟨fun s => oldViews_nil, fun s h window => ?_, fun i s loads => ⟨?_, fun agree => ?_, ?_⟩,
    fun s t turn noInterrupt => ?_⟩
  · rw [oldViews_singleton window]
    cases reg : h.reg <;> simp [seeOld, putCp0, reg]
  · rintro ⟨v, hv, differs⟩
    refine exec_of_view_differs loads hv fun same => ?_
    obtain ⟨sameEffect, sameEntry⟩ := sameIn_iff.1 same
    rcases differs with effectDiffers | ⟨e, note, raises, entryDiffers⟩
    · exact effectDiffers sameEffect
    · exact (entryReads_ne (oldViews_cfg hv)).2 entryDiffers (sameEntry e note raises)
  · refine exec_of_views_agree loads fun v hv => ?_
    obtain ⟨sameEffect, sameEntry⟩ := agree v hv
    exact sameIn_iff.2 ⟨sameEffect, fun e note raises => (entryReads_eq (oldViews_cfg hv)).2 (sameEntry e note raises)⟩
  · intro m u runs done notJump top
    rw [exec_of_runs runs, done, finish, if_pos (wraps_of_not_staysInSpace notJump top)]
  · rintro ⟨v, hv, differs⟩
    refine step_of_fetch_refused turn noInterrupt (fetch_of_view_differs hv fun same => ?_)
    obtain ⟨sameWord, sameEntry⟩ := sameFetch_iff.1 same
    rcases differs with fetchDiffers | ⟨e, note, raises, entryDiffers⟩
    · exact fetchDiffers sameWord
    · exact (entryReads_ne (oldViews_cfg hv)).2 entryDiffers (sameEntry e note raises)

end Sys2Proof.Machine
end

section
/-! The statement about the load delay: LoadDelay. -/

namespace Sys2Proof.Machine

/-- An instruction that reads the register just loaded is refused (R296). -/
theorem exec_of_readsLoaded {i : Instr} {s : State} (h : s.readsLoaded (sources i) = true) :
    exec i s = .refused .loadDelay := by
  rw [exec_eq, commit, resolve, if_pos h]
  rfl

/-- Only LW and MFC0 load a register, and not register 0. -/
theorem Completes.loaded_some {m : Mode} {s : State} {i : Instr} {u : Update} {r : RegNum} (h : Completes m s i u)
    (loaded : u.loaded = some r) :
    r ≠ 0 ∧ ((∃ base offset, i = .lw base r offset) ∨ ∃ rd, i = .mfc0 r rd) := by
  cases h with
  | mfc0 rt rd =>
    obtain ⟨notZero, rfl⟩ : rt ≠ 0 ∧ rt = r := by simpa using loaded
    exact ⟨notZero, .inr ⟨rd, rfl⟩⟩
  | lw base rt offset =>
    obtain ⟨notZero, rfl⟩ : rt ≠ 0 ∧ rt = r := by simpa using loaded
    exact ⟨notZero, .inl ⟨base, offset, rfl⟩⟩
  | eret =>
    rw [exceptionReturn] at loaded
    split at loaded <;> cases loaded
  | dmfc0 | mtc0 | dmtc0 | rfe | jr | addu | and | or | sll | nop | ssnop | sync | sw => cases loaded

/-- Settles O55. -/
theorem loadDelay : Obligations.LoadDelay := by
  refine ⟨fun rs rt rd base sa op offset code => ?_, fun i r s delay loaded notZero reads => ?_,
    fun i r s t next loaded => ?_⟩
  · simp [sources]
  · have readsLoaded : s.readsLoaded (sources i) = true := by
      simpa [State.readsLoaded, delay, loaded, reads] using notZero
    exact exec_of_readsLoaded readsLoaded
  · obtain ⟨m, -, ⟨u, done, -, rfl⟩ | ⟨e, note, -, rfl⟩⟩ := exec_next next
    · obtain ⟨delay, loadedNow⟩ : s.cfg.loadDelay = true ∧ u.loaded = some r := by simpa using loaded
      exact ⟨delay, (completes_of_done done).loaded_some loadedNow⟩
    · simp at loaded

end Sys2Proof.Machine
end
